-- ==== Sys2Proof/Word.lean ====
section
/-! DEFINITION. The word types of NBC (spec 00_scope.md R12: a symbol and a code are 8 bits, a length is 64 bits;
30_encoding.md R90: a command word is 32 bits). -/

namespace Sys2Proof

/-- A byte: a symbol, a code, one cell of IBUF or OBUF (R12, R13). -/
abbrev Byte := BitVec 8

/-- The contents of a 64-bit register (R21, R26). -/
abbrev Word := BitVec 64

/-- A command word, the value written to CMD (R90). -/
abbrev CmdWord := BitVec 32

end Sys2Proof
end

