-- ==== Sys2Proof/Syntax.lean ====
section
/-! DEFINITION. The NBC command set, revision 1: one constructor per row of spec/opcode_table.json
(30_encoding.md R92). -/

namespace Sys2Proof

/-- A command. An operand has the type of what it is: a key, a value, a code or a method is a byte; a count or a width
is a number, whose range is checked by `Instr.wf`; a bit is a Boolean. -/
inductive Instr where
  /-- SRESET, R250. -/
  | sreset
  /-- RELEASE, R249. -/
  | release
  /-- TCLR, R121. -/
  | tclr
  /-- TINS key, value, R122. -/
  | tins (key value : Byte)
  /-- TLOOK key, R123. -/
  | tlook (key : Byte)
  /-- TBITS, R125. -/
  | tbits
  /-- TRAW, R126. -/
  | traw
  /-- TSIZE, R128. -/
  | tsize
  /-- TITER index, R127. -/
  | titer (index : Byte)
  /-- WINIT, R141. -/
  | winit
  /-- WBYTES count, R142: the count is 0 to 8. -/
  | wbytes (count : Nat)
  /-- WBIT bit, R143. -/
  | wbit (bit : Bool)
  /-- WFLUSH, R145. -/
  | wflush
  /-- WGIVE, R148. -/
  | wgive
  /-- RINIT, R161. -/
  | rinit
  /-- RD8, R162. -/
  | rd8
  /-- RD16, R163. -/
  | rd16
  /-- RD64, R164. -/
  | rd64
  /-- RBIT, R166. -/
  | rbit
  /-- RREM, R165. -/
  | rrem
  /-- PACK width, code, R181: the width is 0 to 8. -/
  | pack (width : Nat) (code : Byte)
  /-- UNPACK width, R183: the width is 0 to 8. -/
  | unpack (width : Nat)
  /-- ENCODE, R190. -/
  | encode
  /-- DECODE, R210. -/
  | decode
  /-- COMPRESS method, R241. -/
  | compress (method : Byte)
  /-- DECOMPRESS, R242. -/
  | decompress
deriving DecidableEq, Repr

end Sys2Proof
end

