-- ==== Sys2Proof/WellFormed.lean ====
section
/-! DEFINITION. The range constraints of 30_encoding.md R92 on the operands of a command. -/

namespace Sys2Proof

/-- R92: the count of WBYTES and the width of PACK and UNPACK are "0..8 only". Every other operand has every value of its
type. -/
def Instr.wf : Instr → Bool
  | .wbytes count => decide (count ≤ 8)
  | .pack width _ => decide (width ≤ 8)
  | .unpack width => decide (width ≤ 8)
  | .sreset | .release | .tclr | .tins _ _ | .tlook _ | .tbits | .traw | .tsize | .titer _ | .winit | .wbit _ | .wflush
  | .wgive | .rinit | .rd8 | .rd16 | .rd64 | .rbit | .rrem | .encode | .decode | .compress _ | .decompress => true

end Sys2Proof
end

