-- ==== Sys2Proof/Decode.lean ====
section
/-! DEFINITION. The command word: its fields (30_encoding.md R90), its formats (R91), the opcode map (R92, R94), the
illegal words (R95), and the encoder written from the same tables. -/

namespace Sys2Proof

/-- Why a word is illegal: the three grounds of R95. -/
inductive Reject where
  /-- "its `op` is not one of the 26 opcodes". -/
  | unknownOpcode
  /-- "a field its format does not use is non-zero". -/
  | reservedField
  /-- "an operand is outside an \"only\" range". -/
  | operandRange
deriving DecidableEq, Repr

/-- The field `op`, bits 7:0 (R90). -/
def fieldOp (w : CmdWord) : Byte := w.extractLsb' 0 8
/-- The field `a`, bits 15:8 (R90). -/
def fieldA (w : CmdWord) : Byte := w.extractLsb' 8 8
/-- The field `b`, bits 23:16 (R90). -/
def fieldB (w : CmdWord) : Byte := w.extractLsb' 16 8
/-- The field `z`, bits 31:24, reserved (R90). -/
def fieldZ (w : CmdWord) : Byte := w.extractLsb' 24 8

/-- Format Z (R91): `a`, `b` and `z` must be 0. -/
def formatZ (w : CmdWord) (i : Instr) : Except Reject Instr :=
  if fieldA w = 0 ∧ fieldB w = 0 ∧ fieldZ w = 0 then .ok i else .error .reservedField

/-- Format A (R91): `b` and `z` must be 0; `a` is the operand. -/
def formatA (w : CmdWord) (mk : Byte → Except Reject Instr) : Except Reject Instr :=
  if fieldB w = 0 ∧ fieldZ w = 0 then mk (fieldA w) else .error .reservedField

/-- Format AB (R91): `z` must be 0; `a` and `b` are operands. -/
def formatAB (w : CmdWord) (mk : Byte → Byte → Except Reject Instr) : Except Reject Instr :=
  if fieldZ w = 0 then mk (fieldA w) (fieldB w) else .error .reservedField

/-- An operand with the range "0..8 only" (R92). -/
def upTo8 (a : Byte) (mk : Nat → Instr) : Except Reject Instr :=
  if a.toNat ≤ 8 then .ok (mk a.toNat) else .error .operandRange

/-- An operand with the range "0..1 only" (R92). -/
def oneBit (a : Byte) (mk : Bool → Instr) : Except Reject Instr :=
  if a.toNat ≤ 1 then .ok (mk (a.getLsbD 0)) else .error .operandRange

/-- Decoding of a command word (R91, R92, R95): total, and every illegal word is rejected by name. -/
def decode (w : CmdWord) : Except Reject Instr :=
  match (fieldOp w).toNat with
  | 0x01 => formatZ w .sreset
  | 0x02 => formatZ w .release
  | 0x10 => formatZ w .tclr
  | 0x11 => formatAB w fun a b => .ok (.tins a b)
  | 0x12 => formatA w fun a => .ok (.tlook a)
  | 0x13 => formatZ w .tbits
  | 0x14 => formatZ w .traw
  | 0x15 => formatZ w .tsize
  | 0x16 => formatA w fun a => .ok (.titer a)
  | 0x20 => formatZ w .winit
  | 0x21 => formatA w fun a => upTo8 a .wbytes
  | 0x22 => formatA w fun a => oneBit a .wbit
  | 0x23 => formatZ w .wflush
  | 0x24 => formatZ w .wgive
  | 0x30 => formatZ w .rinit
  | 0x31 => formatZ w .rd8
  | 0x32 => formatZ w .rd16
  | 0x33 => formatZ w .rd64
  | 0x34 => formatZ w .rbit
  | 0x35 => formatZ w .rrem
  | 0x40 => formatAB w fun a b => upTo8 a fun width => .pack width b
  | 0x41 => formatA w fun a => upTo8 a .unpack
  | 0x50 => formatZ w .encode
  | 0x51 => formatZ w .decode
  | 0x60 => formatA w fun a => .ok (.compress a)
  | 0x61 => formatZ w .decompress
  | _ => .error .unknownOpcode

/-- The word with the fields `op`, `a`, `b` and `z = 0` (R90): `op + 256*a + 65536*b` (R110). -/
def word (op a b : Byte) : CmdWord := 0#8 ++ b ++ a ++ op

/-- The opcode of a command (R92, R94). -/
def opcode : Instr → Byte
  | .sreset => 0x01
  | .release => 0x02
  | .tclr => 0x10
  | .tins _ _ => 0x11
  | .tlook _ => 0x12
  | .tbits => 0x13
  | .traw => 0x14
  | .tsize => 0x15
  | .titer _ => 0x16
  | .winit => 0x20
  | .wbytes _ => 0x21
  | .wbit _ => 0x22
  | .wflush => 0x23
  | .wgive => 0x24
  | .rinit => 0x30
  | .rd8 => 0x31
  | .rd16 => 0x32
  | .rd64 => 0x33
  | .rbit => 0x34
  | .rrem => 0x35
  | .pack _ _ => 0x40
  | .unpack _ => 0x41
  | .encode => 0x50
  | .decode => 0x51
  | .compress _ => 0x60
  | .decompress => 0x61

/-- The operand field `a` of a command (R92); 0 where its format does not use it (R91). -/
def operandA : Instr → Byte
  | .tins key _ => key
  | .tlook key => key
  | .titer index => index
  | .wbytes count => BitVec.ofNat 8 count
  | .wbit bit => BitVec.ofNat 8 bit.toNat
  | .pack width _ => BitVec.ofNat 8 width
  | .unpack width => BitVec.ofNat 8 width
  | .compress method => method
  | .sreset | .release | .tclr | .tbits | .traw | .tsize | .winit | .wflush | .wgive | .rinit | .rd8 | .rd16 | .rd64
  | .rbit | .rrem | .encode | .decode | .decompress => 0

/-- The operand field `b` of a command (R92); 0 where its format does not use it (R91). -/
def operandB : Instr → Byte
  | .tins _ value => value
  | .pack _ code => code
  | .sreset | .release | .tclr | .tlook _ | .tbits | .traw | .tsize | .titer _ | .winit | .wbytes _ | .wbit _ | .wflush
  | .wgive | .rinit | .rd8 | .rd16 | .rd64 | .rbit | .rrem | .unpack _ | .encode | .decode | .compress _
  | .decompress => 0

/-- The command word of a well-formed command (R90, R92). -/
def encode (i : Instr) : CmdWord := word (opcode i) (operandA i) (operandB i)

/-- The instruction the decoder reads from an instruction of `nbits` bits whose bits are `w`, numbered as
spec/opcode_table.json numbers them. A command is one 32-bit word (R90, R97); nothing longer is one. -/
def decodeTableWord (nbits w : Nat) : Option Instr :=
  let v := w % 2 ^ nbits
  if v < 2 ^ 32 then (decode (BitVec.ofNat 32 v)).toOption else none

end Sys2Proof
end

