-- ==== Sys2Proof/Config.lean ====
section
/-! DEFINITION. What an instance of NBC fixes (spec 00_scope.md R10, R11) and the values the spec leaves
unspecified (93_implementation_defined.md X1 to X5), the latter as constants without a body. -/

namespace Sys2Proof

/-- The parameter `BYTE_ORDER` (R66): the order of the bytes of a multi-byte header field. -/
inductive ByteOrder where
  | little
  | big
deriving DecidableEq, Repr

/-- The parameters of an instance (R10). They are fixed for a machine: `Machine.State` carries them in its field
`cfg`, which no step writes, so that a claim about every state is a claim about every instance. -/
structure Config where
  /-- `METHOD_TAG`: the one method tag of the instance (R10, R101). -/
  methodTag : Byte
  /-- `BYTE_ORDER` (R10, R66). -/
  byteOrder : ByteOrder
  /-- `IN_CAP`: the capacity of IBUF in bytes (R10, R40). -/
  inCap : Nat
  /-- `OUT_CAP`: the capacity of OBUF in bytes (R10, R41). -/
  outCap : Nat
deriving DecidableEq, Repr

/-- The reference instance of R10, the one the spec's vectors use. -/
def Config.reference : Config where
  methodTag := 0x01
  byteOrder := .little
  inCap := 65536
  outCap := 65536

/-- R10: both capacities are at least 1. R26 shows each in a 64-bit register, so each is below `2^64`
(assumption log 6). -/
abbrev Config.wf (c : Config) : Prop :=
  1 ≤ c.inCap ∧ c.inCap < 2 ^ 64 ∧ 1 ≤ c.outCap ∧ c.outCap < 2 ^ 64

/-! The constants of R11, fixed by the source. -/

/-- `TAG_SIZE`. -/
def Config.tagSize : Nat := 1
/-- `COUNT_SIZE`. -/
def Config.countSize : Nat := 2
/-- `ENTRY_SIZE`. -/
def Config.entrySize : Nat := 2
/-- `LEN_SIZE`. -/
def Config.lenSize : Nat := 8
/-- `MAX_ENTRIES`. -/
def Config.maxEntries : Nat := 256
/-- `BYTE_BITS`. -/
def Config.byteBits : Nat := 8
/-- `FIXED_HEADER`, the sum of the three field sizes. -/
def Config.fixedHeader : Nat := Config.tagSize + Config.countSize + Config.lenSize

/-! The free values. None has a body: nothing can be proved of the value of any of them. -/

/-- `IBUF[a]` where the host has written nothing since the `epoch`-th hardware reset
(R291, X3; assumption log 2). -/
opaque Config.ibufPowerOn : (epoch a : Nat) → Byte

/-- `OBUF[a]` where nothing has been written since the `epoch`-th hardware reset or allocation
(R141, R291, X1, X3; assumption log 3). -/
opaque Config.obufUnwritten : (epoch a : Nat) → Byte

/-- The `n`-th byte a host read returns where the spec gives it no value (R64, R65, X2, X4; assumption log 4). -/
opaque Config.hostReadByte : (n : Nat) → Byte

/-- Word `i` of `T.val` or `T.ord` after the `draw`-th free value is drawn, where a reset or an epilogue leaves these words
unspecified (R248, R291, X5; assumption log 5). -/
opaque Config.tableWord : (draw i : Nat) → Byte

/-- The lookahead `R.la` after the `n`-th time a reset or an epilogue leaves it unspecified
(R248, R291, X5; assumption log 5). -/
opaque Config.lookahead : (n : Nat) → Byte

end Sys2Proof
end

