-- ==== Sys2Proof/Machine/Operands.lean ====
section
/-! DEFINITION. The operand forms: bit fields and bit sequences (spec 00_scope.md R13, 20_memory.md R67, 30_encoding.md
R109), byte order (20_memory.md R66), the source bytes of WBYTES (30_encoding.md R93), and the exact arithmetic on
operands (00_scope.md R14, 40_symbol_table.md R124). -/

namespace Sys2Proof.Machine

/-- `ceil_div(a, b)` (R14). -/
def ceilDiv (a b : Nat) : Nat := (a + b - 1) / b

/-- The search of `clog2`: the least `k` from `k` on with `n ≤ 2^k`, within `fuel` trials. -/
def clog2From (n : Nat) : (fuel k : Nat) → Nat
  | 0, k => k
  | fuel + 1, k => if n ≤ 2 ^ k then k else clog2From n fuel (k + 1)

/-- `clog2(n)`: the least `k` with `2^k ≥ n` (R14). -/
def clog2 (n : Nat) : Nat := clog2From n n 0

/-- `bits(n)`: the bits per entry of a table of size `n` (R124). -/
def bitsPerEntry (n : Nat) : Nat := if n = 0 then 0 else clog2 n

/-- `v[i] <- bit` on a byte (R13). -/
def setBit (v : Byte) (i : Nat) (bit : Bool) : Byte :=
  if bit then v ||| (1#8 <<< i) else v &&& ~~~(1#8 <<< i)

/-- The number whose bits are the given ones, first bit into bit 0 (R109 (c)). -/
def bitsValue : List Bool → Nat
  | [] => 0
  | bit :: rest => bit.toNat + 2 * bitsValue rest

/-- The low `width` bits of a code, bit 0 first (R181). -/
def codeBits (width : Nat) (code : Byte) : List Bool := (List.range width).map code.getLsbD

/-- Byte `k` of a value: bits `8k+7:8k` (R66, R93). -/
def byteOf (v k : Nat) : Byte := BitVec.ofNat 8 (v / 256 ^ k)

/-- The `count` bytes of a value, byte 0 first. -/
def bytesLittle (count v : Nat) : List Byte := (List.range count).map (byteOf v)

/-- The value of a sequence of bytes, byte 0 lowest. -/
def valueLittle : List Byte → Nat
  | [] => 0
  | b :: rest => b.toNat + 256 * valueLittle rest

/-- The `count`-byte sequence of a value under a byte order: `enc16` with `count = 2`, `enc64` with `count = 8` (R66). -/
def encBytes (order : ByteOrder) (count v : Nat) : List Byte :=
  match order with
  | .little => bytesLittle count v
  | .big => (bytesLittle count v).reverse

/-- The value of a byte sequence under a byte order: `dec16` on 2 bytes, `dec64` on 8 (R66). -/
def decBytes (order : ByteOrder) (s : List Byte) : Nat :=
  match order with
  | .little => valueLittle s
  | .big => valueLittle s.reverse

/-- The source bytes of WBYTES: byte `k`, for `k < count`, is bits `8k+7:8k` of `x[1]` (R93), under either byte order. -/
def sourceBytes (x1 : Word) (count : Nat) : List Byte := (List.range count).map fun k => x1.extractLsb' (8 * k) 8

/-- `zext_64` of a number that fits (R14). -/
def zext64 (v : Nat) : Word := BitVec.ofNat 64 v

end Sys2Proof.Machine
end

