-- ==== Sys2Proof/Machine/State.lean ====
section
/-! DEFINITION. The state of NBC as plain data (spec 10_state.md), its value after reset (R44, R291), and the reasons the
model itself stops. -/

namespace Sys2Proof.Machine

/-- The two byte-addressed memories (R60). -/
inductive BufferName where
  /-- The input buffer memory (R40). -/
  | ibuf
  /-- The output buffer memory (R41). -/
  | obuf
deriving DecidableEq, Repr

/-- The reasons the model itself stops. They are not the faults of the spec: those are `FaultKind`, and they lead to a
next state (R272). -/
inductive Fault where
  /-- Raised by `obufStore` and `ibufByte`: the block addresses a byte that its memory does not have (at or above `OUT_CAP`
  or `IN_CAP`, R40, R41). Only a state whose cursor exceeds the capacity can reach it, and no run from reset reaches such a
  state (R31, R32 invariant (a)). Safe: the model stops where the spec gives no access. -/
  | noSuchByte (memory : BufferName) (address : Nat)
deriving DecidableEq, Repr

/-- The reasons the model gives a command no meaning. -/
inductive Refusal where
  /-- Raised by an arm of `exec` whose command has no meaning yet. Safe: nothing is claimed of the command. No arm raises
  it in this model. -/
  | notModelled (mnemonic : String)
deriving DecidableEq, Repr

/-- The six kinds of programming error, one sticky FAULT bit each (R27, R271). -/
inductive FaultKind where
  /-- Bit 0: an illegal command word. -/
  | illegalCmd
  /-- Bit 1: a write past `W.len`. -/
  | wOverrun
  /-- Bit 2: a read past `R.len`. -/
  | rOverrun
  /-- Bit 3: a byte-level write, or a hand-over, with `W.bi ≠ 0`. -/
  | wMisaligned
  /-- Bit 4: a byte-level read with `R.bi ≠ 0`. -/
  | rMisaligned
  /-- Bit 5: the output buffer used while the host owns it, handed over twice, or released while not owned. -/
  | ownership
deriving DecidableEq, Repr

/-- The contents of ERR: no failure, or one of the six error kinds (R260). -/
inductive ErrKind where
  /-- 0, `None`: no failure. -/
  | noError
  /-- 1, `InvalidInput` (R261). -/
  | invalidInput
  /-- 2, `AllocationFailure` (R262). -/
  | allocationFailure
  /-- 3, `UnknownMethod` (R263). -/
  | unknownMethod
  /-- 4, `MalformedHeader` (R264). -/
  | malformedHeader
  /-- 5, `MalformedBody` (R265). -/
  | malformedBody
  /-- 6, `InvalidCode` (R266). -/
  | invalidCode
deriving DecidableEq, Repr

/-- The values of `S.PHASE` (R36). -/
inductive Phase where
  | idle
  | eCheck | eScan | eSize | eAlloc | eHdr | ePack | eDone
  | dCheck | dTag | dCount | dTabChk | dTable | dLen | dBodyChk | dAlloc | dUnpack | dDone
  | fail
deriving DecidableEq, Repr

/-- A buffer memory: the bytes written to it, by address. An address that is not listed holds no known byte, which
`Memory.read?` answers as `none`. -/
abbrev Memory := List Host.Cell

/-- The canonical form of a memory: addresses strictly rising. No entry can equal what an unlisted address reads as, since
that is no byte at all. -/
abbrev Memory.wf (m : Memory) : Prop := m.Pairwise fun c d => c.1 < d.1

/-- The symbol-table unit T (R29). -/
structure TableUnit where
  /-- `T.valid[k]`: key `k` is present. -/
  valid : Vector Bool 256
  /-- `T.val[k]`: the value stored for key `k`. -/
  val : Vector Byte 256
  /-- `T.ord[i]`: the key inserted `i`-th. -/
  ord : Vector Byte 256
  /-- `T.count`: the number of keys present, 0 to 256. -/
  count : BitVec 9
deriving DecidableEq, Repr

/-- The bit-stream writer W (R31). -/
structure WriterUnit where
  /-- `W.len`: the length of the buffer W is bound to; 0 is unbound. -/
  len : Word
  /-- `W.ptr`: the address the next emitted byte goes to. -/
  ptr : Word
  /-- `W.bi`: how many bits the accumulator holds. -/
  bi : BitVec 3
  /-- `W.acc`: the accumulator. -/
  acc : Byte
deriving DecidableEq, Repr

/-- The bit-stream reader R (R32). -/
structure ReaderUnit where
  /-- `R.len`: the length of the buffer R is bound to; 0 is unbound. -/
  len : Word
  /-- `R.ptr`: the address of the next unread byte, or of the byte being read bit by bit. -/
  ptr : Word
  /-- `R.bi`: how many bits of byte `R.ptr` have been read. -/
  bi : BitVec 3
  /-- `R.la`: the lookahead, a copy of `IBUF[R.ptr]` taken when R arrived there. -/
  la : Byte
deriving DecidableEq, Repr

/-- The sequencer S: its position and its latches (R22, R34). -/
structure Sequencer where
  /-- `S.PHASE`. -/
  phase : Phase
  /-- `S.IDX`. -/
  idx : Word
  /-- `S.tag`. -/
  tag : Byte
  /-- `S.N`. -/
  n : BitVec 16
  /-- `S.L`. -/
  l : Word
  /-- `S.B`. -/
  b : BitVec 4
deriving DecidableEq, Repr

/-- One thing the host can do between two commands (R20), and the hardware reset event (R290). A host write carries 64 bits;
a narrower register takes the low ones (assumption log 8). -/
inductive HostAction where
  /-- A write of a register of R26; a write of CMD, register 4, executes a command. -/
  | writeReg (no : Nat) (value : Word)
  /-- A read of a register of R26. -/
  | readReg (no : Nat)
  /-- A write of `IBUF[a]` (R64). -/
  | writeIbuf (a : Nat) (value : Byte)
  /-- A read of `IBUF[a]` (R64). -/
  | readIbuf (a : Nat)
  /-- A read of `OBUF[a]` (R65). -/
  | readObuf (a : Nat)
  /-- The hardware reset event (R290). -/
  | hardReset
deriving DecidableEq, Repr

/-- The state of the machine. The fields from `cfg` on are the model's own; the others are the spec's. -/
structure State where
  /-- `x[0]`, ARG0 (R21). -/
  x0 : Word
  /-- `x[1]`, ARG1 (R21). -/
  x1 : Word
  /-- `x[2]`, RES0 (R21). -/
  x2 : Word
  /-- `x[3]`, RES1 (R21). -/
  x3 : Word
  /-- `STATUS.OK` (R23). -/
  ok : Bool
  /-- `STATUS.FLAG` (R23). -/
  flag : Bool
  /-- `STATUS.OUT_VALID` (R23), the ownership bit of OBUF (R25). -/
  outValid : Bool
  /-- `STATUS.TAG_VALID` (R23). `STATUS.FAULTED` is not stored: it is 1 exactly when FAULT is not 0. -/
  tagValid : Bool
  /-- ERR (R26, R260). -/
  err : ErrKind
  /-- FAULT (R27). -/
  fault : BitVec 8
  /-- `CTRL.IN_PRESENT` (R26, R28). -/
  inPresent : Bool
  /-- IN_LEN (R26). -/
  inLen : Word
  /-- OUT_LEN (R26). -/
  outLen : Word
  /-- TAG (R26). -/
  tag : Byte
  /-- The symbol-table unit (R29). -/
  t : TableUnit
  /-- The bit-stream writer (R31). -/
  w : WriterUnit
  /-- The bit-stream reader (R32). -/
  r : ReaderUnit
  /-- The sequencer (R34). -/
  seq : Sequencer
  /-- IBUF (R40). -/
  ibuf : Memory
  /-- OBUF (R41). -/
  obuf : Memory
  /-- The instance's parameters (R10), which CFG, IN_CAP and OUT_CAP show (R26). No step writes them. -/
  cfg : Config
  /-- How many times IBUF's contents have become unspecified (R291); picks the free bytes of `Config.ibufPowerOn`. -/
  ibufEpoch : Nat
  /-- How many times OBUF's contents have become unspecified (R141, R291); picks the free bytes of
  `Config.obufUnwritten`. -/
  obufEpoch : Nat
  /-- How many other free values have been drawn so far. -/
  draws : Nat
  /-- What the last host read returned (R20). -/
  hostData : Word
  /-- What the host does next, in order (R20): its next action first. -/
  pending : List HostAction
deriving DecidableEq, Repr

/-- T after reset (R291). The words of `T.val` and `T.ord`, which R291 leaves unspecified, are 0 here (assumption log 1). -/
def TableUnit.reset : TableUnit where
  valid := Vector.replicate 256 false
  val := Vector.replicate 256 0
  ord := Vector.replicate 256 0
  count := 0

/-- W after reset (R291). -/
def WriterUnit.reset : WriterUnit where
  len := 0
  ptr := 0
  bi := 0
  acc := 0

/-- R after reset (R291). The lookahead, which R291 leaves unspecified, is 0 here (assumption log 1). -/
def ReaderUnit.reset : ReaderUnit where
  len := 0
  ptr := 0
  bi := 0
  la := 0

/-- S after reset, and before and after every command (R22, R34, R291). -/
def Sequencer.reset : Sequencer where
  phase := .idle
  idx := 0
  tag := 0
  n := 0
  l := 0
  b := 0

/-- The machine right after hardware reset (R44, R291): the reference instance (R10), nothing known of either memory, and no
host action waiting. -/
def State.reset : State where
  x0 := 0
  x1 := 0
  x2 := 0
  x3 := 0
  ok := false
  flag := false
  outValid := false
  tagValid := false
  err := .noError
  fault := 0
  inPresent := false
  inLen := 0
  outLen := 0
  tag := 0
  t := TableUnit.reset
  w := WriterUnit.reset
  r := ReaderUnit.reset
  seq := Sequencer.reset
  ibuf := []
  obuf := []
  cfg := Config.reference
  ibufEpoch := 0
  obufEpoch := 0
  draws := 0
  hostData := 0
  pending := []

end Sys2Proof.Machine
end

