-- ==== Sys2Proof/Machine/Flags.lean ====
section
/-! DEFINITION. STATUS and its flags (spec 10_state.md R23), the codes of ERR (60_exceptions.md R260), the bits of FAULT
(10_state.md R27), and the words the host reads from the register file (10_state.md R26). -/

namespace Sys2Proof.Machine

/-- The bit of FAULT that a kind of programming error sets (R27). -/
def FaultKind.bit : FaultKind → BitVec 8
  | .illegalCmd => 0x01
  | .wOverrun => 0x02
  | .rOverrun => 0x04
  | .wMisaligned => 0x08
  | .rMisaligned => 0x10
  | .ownership => 0x20

/-- The code of an error kind in ERR (R260). -/
def ErrKind.code : ErrKind → BitVec 8
  | .noError => 0
  | .invalidInput => 1
  | .allocationFailure => 2
  | .unknownMethod => 3
  | .malformedHeader => 4
  | .malformedBody => 5
  | .invalidCode => 6

/-- `STATUS.FAULTED`: FAULT is non-zero (R23, R27). -/
def State.faulted (s : State) : Bool := decide (s.fault ≠ 0)

/-- STATUS as the host reads it (R23): bits 31:5 read 0. -/
def State.statusWord (s : State) : BitVec 32 :=
  BitVec.ofNat 32 (s.ok.toNat + 2 * s.flag.toNat + 4 * s.outValid.toNat + 8 * s.tagValid.toNat + 16 * s.faulted.toNat)

/-- CFG as the host reads it (R26): bits 7:0 `METHOD_TAG`, bit 8 `BYTE_ORDER`, bits 31:9 read 0. -/
def State.cfgWord (s : State) : BitVec 32 :=
  BitVec.ofNat 32 (s.cfg.methodTag.toNat + match s.cfg.byteOrder with | .little => 0 | .big => 256)

/-- What a host read of a register returns, zero-extended (R26): CMD reads 0, and so does every number above 14. -/
def State.register (s : State) : Nat → Word
  | 0 => s.x0
  | 1 => s.x1
  | 2 => s.x2
  | 3 => s.x3
  | 5 => s.statusWord.setWidth 64
  | 6 => s.err.code.setWidth 64
  | 7 => s.fault.setWidth 64
  | 8 => zext64 s.inPresent.toNat
  | 9 => s.inLen
  | 10 => s.outLen
  | 11 => s.tag.setWidth 64
  | 12 => s.cfgWord.setWidth 64
  | 13 => zext64 s.cfg.inCap
  | 14 => zext64 s.cfg.outCap
  | _ => 0

/-- "Every command that completes or fails writes `OK` and `FLAG`" (R23). -/
def State.setStatus (ok flag : Bool) (s : State) : State := { s with ok := ok, flag := flag }

end Sys2Proof.Machine
end

