-- ==== Sys2Proof/Machine/Ops.lean ====
section
/-! DEFINITION. The named operations over memories and registers, the fault mechanism (spec 60_exceptions.md R272), the
failure exit (R268), and the reset of the units (46_dispatch_system.md R248). -/

namespace Sys2Proof.Machine

/-! ## Memories (R60 to R63) -/

/-- The byte written to an address, or `none` where nothing has been written. -/
def Memory.read? : Memory → (a : Nat) → Option Byte
  | [], _ => none
  | c :: m, a => if c.1 = a then some c.2 else Memory.read? m a

/-- `M[a] <- b`, in the canonical form. -/
def Memory.write : Memory → (a : Nat) → (b : Byte) → Memory
  | [], a, b => [(a, b)]
  | c :: m, a, b =>
    if a < c.1 then (a, b) :: c :: m
    else if a = c.1 then (a, b) :: m
    else c :: Memory.write m a b

/-- `M[a] <- unspecified` for every `a < n` (R141). -/
def Memory.forgetBelow (n : Nat) (m : Memory) : Memory := m.filter fun c => decide (n ≤ c.1)

/-! ## Register and unit updates -/

/-- `x[2] <- v` (R21). -/
def State.setRes0 (v : Word) (s : State) : State := { s with x2 := v }
/-- `x[3] <- v` (R21). -/
def State.setRes1 (v : Word) (s : State) : State := { s with x3 := v }
/-- A new state of T. -/
def State.setTable (t : TableUnit) (s : State) : State := { s with t := t }
/-- A new state of W. -/
def State.setWriter (w : WriterUnit) (s : State) : State := { s with w := w }
/-- A new state of R. -/
def State.setReader (r : ReaderUnit) (s : State) : State := { s with r := r }
/-- A new state of S. -/
def State.setSeq (q : Sequencer) (s : State) : State := { s with seq := q }
/-- New contents of OBUF. -/
def State.setObuf (m : Memory) (s : State) : State := { s with obuf := m }
/-- `STATUS.OUT_VALID` and `OUT_LEN` (R25, R26). -/
def State.setOwner (valid : Bool) (len : Word) (s : State) : State := { s with outValid := valid, outLen := len }
/-- `TAG` and `STATUS.TAG_VALID` (R246). -/
def State.setTag (valid : Bool) (tag : Byte) (s : State) : State := { s with tagValid := valid, tag := tag }
/-- `ERR` (R260). -/
def State.setErr (k : ErrKind) (s : State) : State := { s with err := k }
/-- `PHASE <- p` (R16, R36). -/
def State.toPhase (p : Phase) (s : State) : State := s.setSeq { s.seq with phase := p }

/-- The last act of a unit-level command: `STATUS.OK <- 1`, `STATUS.FLAG <- flag` (R23). -/
def complete (flag : Bool) (s : State) : State := s.setStatus true flag

/-! ## How a piece of a command ends -/

/-- How a piece of a command ends: it goes on with a value and a state, it calls `fault(F)` (R272), it calls
`raise Error(K)` in a state (R268), or it addresses a byte that does not exist. -/
inductive Res (α : Type) where
  | ok (a : α) (s : State)
  | fault (f : FaultKind)
  | raise (k : ErrKind) (s : State)
  | absent (e : Fault)
deriving DecidableEq, Repr

/-- One piece of a command after another. -/
def Res.bind {α β : Type} (r : Res α) (k : α → State → Res β) : Res β :=
  match r with
  | .ok a s => k a s
  | .fault f => .fault f
  | .raise e s => .raise e s
  | .absent e => .absent e

/-- `for S.IDX in i .. i + todo - 1: body` (R16, R22): the position is written before each iteration. -/
def forIdx (body : State → Res Unit) : (todo i : Nat) → State → Res Unit
  | 0, _, s => .ok () s
  | todo + 1, i, s =>
    (body (s.setSeq { s.seq with idx := zext64 i })).bind fun _ s => forIdx body todo (i + 1) s

/-! ## Faults, failures and resets -/

/-- `fault(F)` (R272): the FAULT bit is set, and no other register, unit, latch or memory byte changes. No pc and no status is
saved, and there is no handler. -/
def takeFault (f : FaultKind) (s : State) : State := { s with fault := s.fault ||| f.bit }

/-- 256 unspecified words (X5). -/
def freeWords (draw : Nat) : Vector Byte 256 := ⟨((List.range 256).map (Config.tableWord draw)).toArray, by simp⟩

/-- T, W, R and S at their reset values (R247, R248, R291). `T.val`, `T.ord` and `R.la` become unspecified. -/
def resetUnits (s : State) : State :=
  { s with
    t := { valid := Vector.replicate 256 false, val := freeWords s.draws, ord := freeWords (s.draws + 1), count := 0 }
    w := WriterUnit.reset
    r := { len := 0, ptr := 0, bi := 0, la := Config.lookahead (s.draws + 2) }
    seq := Sequencer.reset
    draws := s.draws + 3 }

/-- The failure exit: what `raise Error(K)` does (R268). -/
def failureExit (k : ErrKind) (s : State) : State :=
  let s := ((s.toPhase .fail).setOwner false 0).setErr k
  let s := if k = .invalidInput then s.setTag false 0 else s
  resetUnits (s.setStatus false false)

/-- The state SRESET leaves (R250, R291): every register and unit at its reset value, both memories as they were. -/
def softReset (s : State) : State :=
  resetUnits
    { s with
      x0 := 0, x1 := 0, x2 := 0, x3 := 0, ok := false, flag := false, outValid := false, tagValid := false
      err := .noError, fault := 0, inPresent := false, inLen := 0, outLen := 0, tag := 0 }

/-- The state hardware reset leaves (R290, R291): as SRESET, and both memories unspecified. -/
def hardReset (s : State) : State :=
  let s := softReset s
  { s with ibuf := [], obuf := [], ibufEpoch := s.ibufEpoch + 1, obufEpoch := s.obufEpoch + 1 }

/-- How a command ends, from how its body ends (R17, R268, R272). A fault leaves the state the command began in, but for its
FAULT bit. -/
def Res.outcome (start : State) (r : Res Unit) : Host.Outcome State Fault Refusal :=
  match r with
  | .ok _ s => .next s
  | .fault f => .next (takeFault f start)
  | .raise k s => .next (failureExit k s)
  | .absent e => .fault e

/-- Every command but SRESET: a faulted block ignores it, with "no state change at all, not even STATUS" (R27, R272). -/
def command (body : State → Res Unit) (s : State) : Host.Outcome State Fault Refusal :=
  if s.fault = 0 then (body s).outcome s else .next s

/-! ## The block's accesses to the memories (R60 to R63) -/

/-- `OBUF[a] <- b` by the block: a write of one byte (R63). -/
def obufStore (a : Nat) (b : Byte) (s : State) : Res Unit :=
  if a < s.cfg.outCap then .ok () (s.setObuf (s.obuf.write a b)) else .absent (.noSuchByte .obuf a)

/-- `MemWrite(OBUF, a, n, s)` (R63). -/
def obufStoreAll : (a : Nat) → List Byte → State → Res Unit
  | _, [], s => .ok () s
  | a, b :: rest, s => (obufStore a b s).bind fun _ s => obufStoreAll (a + 1) rest s

/-- What `IBUF[a]` holds: the byte the host last wrote, or an unspecified byte (R64, R293). -/
def State.ibufAt (s : State) (a : Nat) : Byte := (s.ibuf.read? a).getD (Config.ibufPowerOn s.ibufEpoch a)

/-- What `OBUF[a]` holds: the byte last written, or an unspecified byte (R141, R148). -/
def State.obufAt (s : State) (a : Nat) : Byte := (s.obuf.read? a).getD (Config.obufUnwritten s.obufEpoch a)

/-- A read of `IBUF[a]` by the block (R62). -/
def ibufByte (a : Nat) (s : State) : Res Byte :=
  if a < s.cfg.inCap then .ok (s.ibufAt a) s else .absent (.noSuchByte .ibuf a)

/-- `MemRead(IBUF, a, n)` (R62). -/
def ibufBytes : (n a : Nat) → State → Res (List Byte)
  | 0, _, s => .ok [] s
  | n + 1, a, s =>
    (ibufByte a s).bind fun b s => (ibufBytes n (a + 1) s).bind fun rest s => .ok (b :: rest) s

/-- "The input descriptor is acceptable" (R28): `IN_PRESENT = 1` and `1 <= IN_LEN <= IN_CAP`. -/
def State.acceptable (s : State) : Bool :=
  s.inPresent && decide (1 ≤ s.inLen.toNat) && decide (s.inLen.toNat ≤ s.cfg.inCap)

end Sys2Proof.Machine
end

