-- ==== Sys2Proof/Machine/Reader.lean ====
section
/-! DEFINITION. The bit-stream reader R and its commands RINIT, RD8, RD16, RD64, RREM, RBIT (spec
42_bitstream_reader.md). -/

namespace Sys2Proof.Machine

/-- `if R.ptr < R.len: R.la <- IBUF[R.ptr]`: the refill, "only while unread bytes remain" (R160, R162). -/
def refill (s : State) : Res Unit :=
  if s.r.ptr.toNat < s.r.len.toNat then
    (ibufByte s.r.ptr.toNat s).bind fun b s => .ok () (s.setReader { s.r with la := b })
  else .ok () s

/-- RINIT's effect on R (R161); the answer says whether R is bound. -/
def bindReader (s : State) : Res Bool :=
  if s.inPresent = true ∧ s.inLen.toNat ≤ s.cfg.inCap then
    (refill (s.setReader { s.r with len := s.inLen, ptr := 0, bi := 0 })).bind fun _ s => .ok true s
  else .ok false (s.setReader { s.r with len := 0, ptr := 0, bi := 0 })

/-- `R.len - R.ptr` (R165). -/
def State.remaining (s : State) : Nat := s.r.len.toNat - s.r.ptr.toNat

/-- The effect of a byte-level read of `n` bytes (R162, R163, R164, R168): misalignment is tested before overrun, the bytes come
from IBUF, and the lookahead is refilled from the new cursor. -/
def readBytes (n : Nat) (s : State) : Res (List Byte) :=
  if s.r.bi ≠ 0 then .fault .rMisaligned
  else if s.remaining < n then .fault .rOverrun
  else
    (ibufBytes n s.r.ptr.toNat s).bind fun bs s =>
      (refill (s.setReader { s.r with ptr := s.r.ptr + zext64 n })).bind fun _ s => .ok bs s

/-- RBIT's effect (R166): the bit comes from the lookahead, never from IBUF (R168). -/
def readBit (s : State) : Res Bool :=
  if s.r.len.toNat ≤ s.r.ptr.toNat then .fault .rOverrun
  else
    let bit := s.r.la.getLsbD s.r.bi.toNat
    if s.r.bi = 7 then
      (refill (s.setReader { s.r with bi := 0, ptr := s.r.ptr + 1 })).bind fun _ s => .ok bit s
    else .ok bit (s.setReader { s.r with bi := s.r.bi + 1 })

/-- RBIT `n` times, the bits in order (R183). -/
def readBits : (n : Nat) → State → Res (List Bool)
  | 0, s => .ok [] s
  | n + 1, s => (readBit s).bind fun bit s => (readBits n s).bind fun rest s => .ok (bit :: rest) s

/-- RINIT (R161). -/
def execRinit (s : State) : Host.Outcome State Fault Refusal :=
  command (fun s => (bindReader s).bind fun bound s => .ok () (s.setStatus bound false)) s

/-- RD8 (R162). -/
def execRd8 (s : State) : Host.Outcome State Fault Refusal :=
  command (fun s => (readBytes 1 s).bind fun bs s => .ok () (complete false (s.setRes0 (zext64 (decBytes s.cfg.byteOrder bs)))))
    s

/-- RD16 (R163). -/
def execRd16 (s : State) : Host.Outcome State Fault Refusal :=
  command (fun s => (readBytes 2 s).bind fun bs s => .ok () (complete false (s.setRes0 (zext64 (decBytes s.cfg.byteOrder bs)))))
    s

/-- RD64 (R164). -/
def execRd64 (s : State) : Host.Outcome State Fault Refusal :=
  command (fun s => (readBytes 8 s).bind fun bs s => .ok () (complete false (s.setRes0 (zext64 (decBytes s.cfg.byteOrder bs)))))
    s

/-- RBIT (R166). -/
def execRbit (s : State) : Host.Outcome State Fault Refusal :=
  command (fun s => (readBit s).bind fun bit s => .ok () (complete false (s.setRes0 (zext64 bit.toNat)))) s

/-- RREM (R165). -/
def execRrem (s : State) : Host.Outcome State Fault Refusal :=
  command (fun s => .ok () (complete false (s.setRes0 (zext64 s.remaining)))) s

end Sys2Proof.Machine
end

