-- ==== Sys2Proof/Machine/Writer.lean ====
section
/-! DEFINITION. The bit-stream writer W and its commands WINIT, WBYTES, WBIT, WFLUSH, WGIVE (spec
41_bitstream_writer.md). The unit's operations are shared with the macro operations, which supply their own operands
(46_dispatch_system.md R247). -/

namespace Sys2Proof.Machine

/-- WINIT's effect on W and OBUF (R141); the answer says whether the allocation succeeded. The bytes of the new buffer
become unspecified. -/
def allocate (size : Nat) (s : State) : Res Bool :=
  if s.outValid then .fault .ownership
  else if s.cfg.outCap < size then .ok false (s.setWriter WriterUnit.reset)
  else
    .ok true
      { s with
        w := { len := zext64 size, ptr := 0, bi := 0, acc := 0 }
        obuf := s.obuf.forgetBelow size
        obufEpoch := s.obufEpoch + 1 }

/-- WBYTES's effect (R142): misalignment is tested before overrun, and a write that does not fit writes nothing. -/
def writeBytes (bs : List Byte) (s : State) : Res Unit :=
  if s.w.bi ≠ 0 then .fault .wMisaligned
  else if s.w.len.toNat < s.w.ptr.toNat + bs.length then .fault .wOverrun
  else
    (obufStoreAll s.w.ptr.toNat bs s).bind fun _ s =>
      .ok () (s.setWriter { s.w with ptr := s.w.ptr + zext64 bs.length })

/-- WBIT's effect (R143). -/
def writeBit (bit : Bool) (s : State) : Res Unit :=
  if s.w.len.toNat ≤ s.w.ptr.toNat then .fault .wOverrun
  else
    let acc := setBit s.w.acc s.w.bi.toNat bit
    if s.w.bi = 7 then
      (obufStore s.w.ptr.toNat acc s).bind fun _ s =>
        .ok () (s.setWriter { s.w with ptr := s.w.ptr + 1, acc := 0, bi := 0 })
    else .ok () (s.setWriter { s.w with acc := acc, bi := s.w.bi + 1 })

/-- WBIT for each bit of a list, in order (R181). -/
def writeBits : List Bool → State → Res Unit
  | [], s => .ok () s
  | bit :: rest, s => (writeBit bit s).bind fun _ s => writeBits rest s

/-- WFLUSH's effect (R145). -/
def flushBits (s : State) : Res Unit :=
  if s.w.bi ≠ 0 then
    (obufStore s.w.ptr.toNat s.w.acc s).bind fun _ s =>
      .ok () (s.setWriter { s.w with ptr := s.w.ptr + 1, acc := 0, bi := 0 })
  else .ok () s

/-- WGIVE's effect (R148): ownership is tested before misalignment, and the length handed over is `W.len`. -/
def giveBuffer (s : State) : Res Unit :=
  if s.outValid then .fault .ownership
  else if s.w.bi ≠ 0 then .fault .wMisaligned
  else .ok () ((s.setOwner true s.w.len).setWriter WriterUnit.reset)

/-- WINIT (R141). -/
def execWinit (s : State) : Host.Outcome State Fault Refusal :=
  command (fun s => (allocate s.x0.toNat s).bind fun bound s => .ok () (s.setStatus bound false)) s

/-- WBYTES count (R142). -/
def execWbytes (count : Nat) (s : State) : Host.Outcome State Fault Refusal :=
  command (fun s => (writeBytes (sourceBytes s.x1 count) s).bind fun _ s => .ok () (complete false s)) s

/-- WBIT bit (R143). -/
def execWbit (bit : Bool) (s : State) : Host.Outcome State Fault Refusal :=
  command (fun s => (writeBit bit s).bind fun _ s => .ok () (complete false s)) s

/-- WFLUSH (R145). -/
def execWflush (s : State) : Host.Outcome State Fault Refusal :=
  command (fun s => (flushBits s).bind fun _ s => .ok () (complete false s)) s

/-- WGIVE (R148). -/
def execWgive (s : State) : Host.Outcome State Fault Refusal :=
  command (fun s => (giveBuffer s).bind fun _ s => .ok () (complete false s)) s

end Sys2Proof.Machine
end

