-- ==== Sys2Proof/Machine/Packing.lean ====
section
/-! DEFINITION. The code packing and unpacking datapath P and its commands PACK and UNPACK (spec 43_pack_unpack.md). P has
no state: it drives W and R (R33). -/

namespace Sys2Proof.Machine

/-- PACK's effect (R181): all `width` bits are written, or the bound check faults with nothing written. -/
def packCode (width : Nat) (code : Byte) (s : State) : Res Unit :=
  if 0 < width ∧ s.w.len.toNat < s.w.ptr.toNat + ceilDiv (s.w.bi.toNat + width) 8 then .fault .wOverrun
  else writeBits (codeBits width code) s

/-- UNPACK's effect (R183): the code of the next `width` bits, or the bound check faults with nothing consumed. -/
def unpackCode (width : Nat) (s : State) : Res Nat :=
  if 0 < width ∧ s.r.len.toNat < s.r.ptr.toNat + ceilDiv (s.r.bi.toNat + width) 8 then .fault .rOverrun
  else (readBits width s).bind fun bits s => .ok (bitsValue bits) s

/-- PACK width, code (R181). -/
def execPack (width : Nat) (code : Byte) (s : State) : Host.Outcome State Fault Refusal :=
  command (fun s => (packCode width code s).bind fun _ s => .ok () (complete false s)) s

/-- UNPACK width (R183). -/
def execUnpack (width : Nat) (s : State) : Host.Outcome State Fault Refusal :=
  command (fun s => (unpackCode width s).bind fun code s => .ok () (complete false (s.setRes0 (zext64 code)))) s

end Sys2Proof.Machine
end

