-- ==== Sys2Proof/Machine/Table.lean ====
section
/-! DEFINITION. The symbol-table unit T and its commands TCLR, TINS, TLOOK, TBITS, TRAW, TSIZE, TITER
(spec 40_symbol_table.md). -/

namespace Sys2Proof.Machine

/-- `T.valid[k]` (R29). -/
def TableUnit.has (t : TableUnit) (key : Byte) : Bool := t.valid[key.toNat]'key.isLt
/-- `T.val[k]` (R29). -/
def TableUnit.valueOf (t : TableUnit) (key : Byte) : Byte := t.val[key.toNat]'key.isLt
/-- `T.ord[i]` (R29). -/
def TableUnit.keyAt (t : TableUnit) (i : Byte) : Byte := t.ord[i.toNat]'i.isLt

/-- TCLR's effect on T (R121): `T.val` and `T.ord` keep their words. -/
def TableUnit.clear (t : TableUnit) : TableUnit := { t with valid := Vector.replicate 256 false, count := 0 }

/-- TINS's effect on T (R122). -/
def TableUnit.insert (t : TableUnit) (key value : Byte) : TableUnit :=
  if t.has key then t
  else
    { valid := t.valid.set key.toNat true key.isLt
      val := t.val.set key.toNat value key.isLt
      ord := t.ord.setIfInBounds t.count.toNat key
      count := t.count + 1 }

/-- The lookup of R123: the value stored for a key that is present. -/
def TableUnit.lookup? (t : TableUnit) (key : Byte) : Option Byte := if t.has key then some (t.valueOf key) else none

/-- The iteration of R127: the `i`-th key inserted and its value. -/
def TableUnit.entry? (t : TableUnit) (i : Byte) : Option (Byte × Byte) :=
  if i.toNat < t.count.toNat then some (t.keyAt i, t.valueOf (t.keyAt i)) else none

/-- TCLR (R121). -/
def execTclr (s : State) : Host.Outcome State Fault Refusal :=
  command (fun s => .ok () (complete false (s.setTable s.t.clear))) s

/-- TINS key, value (R122). -/
def execTins (key value : Byte) (s : State) : Host.Outcome State Fault Refusal :=
  command (fun s => .ok () (complete (!s.t.has key) (s.setTable (s.t.insert key value)))) s

/-- TLOOK key (R123). -/
def execTlook (key : Byte) (s : State) : Host.Outcome State Fault Refusal :=
  command
    (fun s =>
      match s.t.lookup? key with
      | some v => .ok () (complete true (s.setRes0 (v.setWidth 64)))
      | none => .ok () (complete false (s.setRes0 0)))
    s

/-- TBITS (R125). -/
def execTbits (s : State) : Host.Outcome State Fault Refusal :=
  command (fun s => .ok () (complete false (s.setRes0 (zext64 (bitsPerEntry s.t.count.toNat))))) s

/-- TRAW (R126). -/
def execTraw (s : State) : Host.Outcome State Fault Refusal :=
  command (fun s => .ok () (complete false (s.setRes0 (zext64 (Config.entrySize * s.t.count.toNat))))) s

/-- TSIZE (R128). -/
def execTsize (s : State) : Host.Outcome State Fault Refusal :=
  command (fun s => .ok () (complete false (s.setRes0 (zext64 s.t.count.toNat)))) s

/-- TITER index (R127). -/
def execTiter (index : Byte) (s : State) : Host.Outcome State Fault Refusal :=
  command
    (fun s =>
      match s.t.entry? index with
      | some e => .ok () (complete true ((s.setRes0 (e.1.setWidth 64)).setRes1 (e.2.setWidth 64)))
      | none => .ok () (complete false ((s.setRes0 0).setRes1 0)))
    s

end Sys2Proof.Machine
end

