-- ==== Sys2Proof/Machine/Encoder.lean ====
section
/-! DEFINITION. The wrapper of every macro operation (spec 46_dispatch_system.md R247, R248) and ENCODE: one definition per
phase of 44_encoder.md R191. Unit-level operations performed here write neither STATUS nor the general registers, and take
their operands from the sequencer's latches (R247). -/

namespace Sys2Proof.Machine

/-- The prologue (R247): the ownership check comes before any state change. -/
def prologue (s : State) : Res Unit :=
  if s.outValid then .fault .ownership else .ok () (resetUnits ((s.setErr .noError).setTag false 0))

/-- The end of a macro operation that succeeds (R198, R222): WGIVE, ERR, the one write of STATUS, and the epilogue (R248). -/
def finishMacro (s : State) : Res Unit :=
  (giveBuffer s).bind fun _ s => .ok () (resetUnits ((s.setErr .noError).setStatus true false))

/-- `perform W8 v` (R144). -/
def put8 (v : Byte) (s : State) : Res Unit := writeBytes [v] s
/-- `perform W16 v` (R144). -/
def put16 (v : Nat) (s : State) : Res Unit := writeBytes (encBytes s.cfg.byteOrder Config.countSize v) s
/-- `perform W64 v` (R144). -/
def put64 (v : Nat) (s : State) : Res Unit := writeBytes (encBytes s.cfg.byteOrder Config.lenSize v) s

/-- E_CHECK (R192). -/
def eCheck (s : State) : Res Unit :=
  if s.acceptable then
    .ok () (((s.setSeq { s.seq with l := s.inLen }).setTag true s.cfg.methodTag).toPhase .eScan)
  else .raise .invalidInput s

/-- One iteration of E_SCAN (R193): a byte value that is not a key yet is inserted with the next code. -/
def scanStep (s : State) : Res Unit :=
  (ibufByte s.seq.idx.toNat s).bind fun b s =>
    if s.t.has b then .ok () s else .ok () (s.setTable (s.t.insert b (BitVec.ofNat 8 s.t.count.toNat)))

/-- E_SCAN (R193). -/
def eScan (s : State) : Res Unit :=
  (forIdx scanStep s.seq.l.toNat 0 (s.setTable s.t.clear)).bind fun _ s =>
    .ok () ((s.setSeq { s.seq with n := BitVec.ofNat 16 s.t.count.toNat }).toPhase .eSize)

/-- E_SIZE (R194): the latch `S.B`. -/
def eSize (s : State) : Res Unit :=
  .ok () ((s.setSeq { s.seq with b := BitVec.ofNat 4 (bitsPerEntry s.seq.n.toNat) }).toPhase .eAlloc)

/-- The size E_SIZE computes from the latches, exactly (R194). -/
def encodedSize (q : Sequencer) : Nat :=
  Config.fixedHeader + Config.entrySize * q.n.toNat + ceilDiv (q.b.toNat * q.l.toNat) Config.byteBits

/-- E_ALLOC (R195). -/
def eAlloc (s : State) : Res Unit :=
  (allocate (encodedSize s.seq) s).bind fun bound s =>
    if bound then .ok () (s.toPhase .eHdr) else .raise .allocationFailure s

/-- One iteration of E_HDR: the table entry in position `S.IDX`, code byte then symbol byte (R196). -/
def entryStep (s : State) : Res Unit :=
  let k := s.t.keyAt (BitVec.ofNat 8 s.seq.idx.toNat)
  (put8 (s.t.valueOf k) s).bind fun _ s => put8 k s

/-- E_HDR (R196). -/
def eHdr (s : State) : Res Unit :=
  (put8 s.cfg.methodTag s).bind fun _ s =>
  (put16 s.seq.n.toNat s).bind fun _ s =>
  (forIdx entryStep s.seq.n.toNat 0 s).bind fun _ s =>
  (put64 s.seq.l.toNat s).bind fun _ s => .ok () (s.toPhase .ePack)

/-- One iteration of E_PACK: the code of input byte `S.IDX` (R197). -/
def packStep (s : State) : Res Unit :=
  (ibufByte s.seq.idx.toNat s).bind fun b s => packCode s.seq.b.toNat (s.t.valueOf b) s

/-- E_PACK (R197). -/
def ePack (s : State) : Res Unit :=
  (forIdx packStep s.seq.l.toNat 0 s).bind fun _ s => (flushBits s).bind fun _ s => .ok () (s.toPhase .eDone)

/-- E_DONE (R198). -/
def eDone (s : State) : Res Unit := finishMacro s

/-- ENCODE from phase E_CHECK (R191). -/
def encodeFromCheck (s : State) : Res Unit :=
  (eCheck (s.toPhase .eCheck)).bind fun _ s =>
  (eScan s).bind fun _ s =>
  (eSize s).bind fun _ s =>
  (eAlloc s).bind fun _ s =>
  (eHdr s).bind fun _ s =>
  (ePack s).bind fun _ s => eDone s

/-- ENCODE (R190). -/
def execEncode (s : State) : Host.Outcome State Fault Refusal :=
  command (fun s => (prologue s).bind fun _ s => encodeFromCheck s) s

end Sys2Proof.Machine
end

