-- ==== Sys2Proof/Machine/Decoder.lean ====
section
/-! DEFINITION. DECODE: one definition per phase of spec 45_decoder.md R211. Every failure of a check is
`raise Error(K)`; the checks stand in the order of the phases, which is the priority of the error kinds
(60_exceptions.md R267). -/

namespace Sys2Proof.Machine

/-- D_CHECK (R212). -/
def dCheck (s : State) : Res Unit :=
  if s.acceptable then
    (bindReader s).bind fun _ s => .ok () ((s.setTable s.t.clear).toPhase .dTag)
  else .raise .invalidInput s

/-- D_TAG (R213): the tag is reported whether or not it matches. -/
def dTag (s : State) : Res Unit :=
  (readBytes Config.tagSize s).bind fun bs s =>
    let tag := BitVec.ofNat 8 (decBytes s.cfg.byteOrder bs)
    let s := (s.setSeq { s.seq with tag := tag }).setTag true tag
    if tag ≠ s.cfg.methodTag then .raise .unknownMethod s else .ok () (s.toPhase .dCount)

/-- D_COUNT (R214). -/
def dCount (s : State) : Res Unit :=
  if s.remaining < Config.countSize then .raise .malformedHeader s
  else
    (readBytes Config.countSize s).bind fun bs s =>
      let s := s.setSeq { s.seq with n := BitVec.ofNat 16 (decBytes s.cfg.byteOrder bs) }
      if Config.maxEntries < s.seq.n.toNat then .raise .malformedHeader s
      else if s.seq.n = 0 then .raise .malformedHeader s
      else .ok () (s.toPhase .dTabChk)

/-- D_TABCHK (R215). -/
def dTabChk (s : State) : Res Unit :=
  if s.remaining < Config.entrySize * s.seq.n.toNat then .raise .malformedHeader s else .ok () (s.toPhase .dTable)

/-- One iteration of D_TABLE: a code byte, then a symbol byte; the key is the code (R216). -/
def tableStep (s : State) : Res Unit :=
  (readBytes 1 s).bind fun c s =>
  (readBytes 1 s).bind fun v s =>
    .ok () (s.setTable
      (s.t.insert (BitVec.ofNat 8 (decBytes s.cfg.byteOrder c)) (BitVec.ofNat 8 (decBytes s.cfg.byteOrder v))))

/-- D_TABLE (R216): a repeated code is dropped by the insertion and shows as too few entries. -/
def dTable (s : State) : Res Unit :=
  (forIdx tableStep s.seq.n.toNat 0 s).bind fun _ s =>
    if s.t.count.toNat < s.seq.n.toNat then .raise .malformedHeader s else .ok () (s.toPhase .dLen)

/-- D_LEN (R217). -/
def dLen (s : State) : Res Unit :=
  if s.remaining < Config.lenSize then .raise .malformedHeader s
  else
    (readBytes Config.lenSize s).bind fun bs s =>
      .ok () ((s.setSeq { s.seq with l := zext64 (decBytes s.cfg.byteOrder bs) }).toPhase .dBodyChk)

/-- D_BODYCHK (R218): the product and the comparison are exact. -/
def dBodyChk (s : State) : Res Unit :=
  let s := s.setSeq { s.seq with b := BitVec.ofNat 4 (bitsPerEntry s.t.count.toNat) }
  if ceilDiv (s.seq.b.toNat * s.seq.l.toNat) Config.byteBits ≠ s.remaining then .raise .malformedBody s
  else .ok () (s.toPhase .dAlloc)

/-- D_ALLOC (R220). -/
def dAlloc (s : State) : Res Unit :=
  (allocate s.seq.l.toNat s).bind fun bound s =>
    if bound then .ok () (s.toPhase .dUnpack) else .raise .allocationFailure s

/-- One iteration of D_UNPACK (R221): a code with no entry is InvalidCode at once. -/
def unpackStep (s : State) : Res Unit :=
  (unpackCode s.seq.b.toNat s).bind fun c s =>
    match s.t.lookup? (BitVec.ofNat 8 c) with
    | some symbol => put8 symbol s
    | none => .raise .invalidCode s

/-- D_UNPACK (R221). -/
def dUnpack (s : State) : Res Unit :=
  (forIdx unpackStep s.seq.l.toNat 0 s).bind fun _ s => .ok () (s.toPhase .dDone)

/-- D_DONE (R222). -/
def dDone (s : State) : Res Unit := finishMacro s

/-- DECODE from phase D_CHECK (R211). -/
def decodeFromCheck (s : State) : Res Unit :=
  (dCheck (s.toPhase .dCheck)).bind fun _ s =>
  (dTag s).bind fun _ s =>
  (dCount s).bind fun _ s =>
  (dTabChk s).bind fun _ s =>
  (dTable s).bind fun _ s =>
  (dLen s).bind fun _ s =>
  (dBodyChk s).bind fun _ s =>
  (dAlloc s).bind fun _ s =>
  (dUnpack s).bind fun _ s => dDone s

/-- DECODE (R210). -/
def execDecode (s : State) : Host.Outcome State Fault Refusal :=
  command (fun s => (prologue s).bind fun _ s => decodeFromCheck s) s

end Sys2Proof.Machine
end

