-- ==== Sys2Proof/Machine/System.lean ====
section
/-! DEFINITION. The dispatch layer, COMPRESS and DECOMPRESS, and the system commands RELEASE and SRESET (spec
46_dispatch_system.md). -/

namespace Sys2Proof.Machine

/-- COMPRESS method (R241): the input is validated first, the method second, and then it is ENCODE from E_CHECK. -/
def execCompress (method : Byte) (s : State) : Host.Outcome State Fault Refusal :=
  command
    (fun s =>
      (prologue s).bind fun _ s =>
        if s.acceptable then
          let s := s.setTag true method
          if method ≠ s.cfg.methodTag then .raise .unknownMethod s else encodeFromCheck s
        else .raise .invalidInput s)
    s

/-- DECOMPRESS (R242): the leading tag is inspected in IBUF, not consumed, and then it is DECODE from D_CHECK. -/
def execDecompress (s : State) : Host.Outcome State Fault Refusal :=
  command
    (fun s =>
      (prologue s).bind fun _ s =>
        if s.acceptable then
          (ibufByte 0 s).bind fun tag s =>
            let s := s.setTag true tag
            if tag ≠ s.cfg.methodTag then .raise .unknownMethod s else decodeFromCheck s
        else .raise .invalidInput s)
    s

/-- RELEASE (R249). -/
def execRelease (s : State) : Host.Outcome State Fault Refusal :=
  command
    (fun s => if s.outValid then .ok () (complete false (s.setOwner false 0)) else .fault .ownership)
    s

/-- SRESET (R250): the only command a faulted block executes (R27), so it does not go through `command`; and the one command
that completes with `STATUS.OK = 0`. -/
def execSreset (s : State) : Host.Outcome State Fault Refusal := .next (softReset s)

end Sys2Proof.Machine
end

