-- ==== Sys2Proof/Machine/Dispatch.lean ====
section
/-! DEFINITION. Which meaning each command has (spec 30_encoding.md R92). -/

namespace Sys2Proof.Machine

def exec (i : Instr) (s : State) : Host.Outcome State Fault Refusal :=
  match i with
  | .sreset => Sys2Proof.Machine.execSreset s
  | .release => Sys2Proof.Machine.execRelease s
  | .tclr => Sys2Proof.Machine.execTclr s
  | .tins key value => Sys2Proof.Machine.execTins key value s
  | .tlook key => Sys2Proof.Machine.execTlook key s
  | .tbits => Sys2Proof.Machine.execTbits s
  | .traw => Sys2Proof.Machine.execTraw s
  | .tsize => Sys2Proof.Machine.execTsize s
  | .titer index => Sys2Proof.Machine.execTiter index s
  | .winit => Sys2Proof.Machine.execWinit s
  | .wbytes count => Sys2Proof.Machine.execWbytes count s
  | .wbit bit => Sys2Proof.Machine.execWbit bit s
  | .wflush => Sys2Proof.Machine.execWflush s
  | .wgive => Sys2Proof.Machine.execWgive s
  | .rinit => Sys2Proof.Machine.execRinit s
  | .rd8 => Sys2Proof.Machine.execRd8 s
  | .rd16 => Sys2Proof.Machine.execRd16 s
  | .rd64 => Sys2Proof.Machine.execRd64 s
  | .rbit => Sys2Proof.Machine.execRbit s
  | .rrem => Sys2Proof.Machine.execRrem s
  | .pack width code => Sys2Proof.Machine.execPack width code s
  | .unpack width => Sys2Proof.Machine.execUnpack width s
  | .encode => Sys2Proof.Machine.execEncode s
  | .decode => Sys2Proof.Machine.execDecode s
  | .compress method => Sys2Proof.Machine.execCompress method s
  | .decompress => Sys2Proof.Machine.execDecompress s

end Sys2Proof.Machine
end

