-- ==== Sys2Proof/Machine/HostInterface.lean ====
section
/-! DEFINITION. The command front end (spec 60_exceptions.md R272) and the host's accesses to the register file
(10_state.md R26), to IBUF (20_memory.md R64) and to OBUF (R65). -/

namespace Sys2Proof.Machine

/-- A host write of a word to CMD (R272): a legal word executes its command; an illegal one raises `fault(ILLEGAL_CMD)`,
or is ignored by a faulted block. (Each command but SRESET ignores itself in a faulted block: `command`.) -/
def issue (w : CmdWord) (s : State) : Host.Outcome State Fault Refusal :=
  match decode w with
  | .ok i => exec i s
  | .error _ => if s.fault = 0 then .next (takeFault .illegalCmd s) else .next s

/-- A host write of a register (R26): writes of read-only registers, and of numbers above 14, are ignored. -/
def hostWriteReg (no : Nat) (v : Word) (s : State) : Host.Outcome State Fault Refusal :=
  match no with
  | 0 => .next { s with x0 := v }
  | 1 => .next { s with x1 := v }
  | 4 => issue (v.setWidth 32) s
  | 8 => .next { s with inPresent := v.getLsbD 0 }
  | 9 => .next { s with inLen := v }
  | _ => .next s

/-- A host write of `IBUF[a]` (R64): at `a >= IN_CAP` it has no effect. -/
def hostWriteIbuf (a : Nat) (b : Byte) (s : State) : State :=
  if a < s.cfg.inCap then { s with ibuf := s.ibuf.write a b } else s

/-- What a host read of `OBUF[a]` is defined to return (R65, R306): a byte only while the host owns OBUF and only below
`OUT_LEN`. -/
def State.hostObuf? (s : State) (a : Nat) : Option Byte :=
  if s.outValid = true ∧ a < s.outLen.toNat then some (s.obufAt a) else none

/-- What a host read of `IBUF[a]` is defined to return (R64). -/
def State.hostIbuf? (s : State) (a : Nat) : Option Byte := if a < s.cfg.inCap then some (s.ibufAt a) else none

/-- The host reads a byte: the one the spec defines, or an unspecified one, fresh for each read. -/
def hostReadByte (b : Option Byte) (s : State) : State :=
  match b with
  | some b => { s with hostData := b.setWidth 64 }
  | none => { s with hostData := (Config.hostReadByte s.draws).setWidth 64, draws := s.draws + 1 }

/-- One host action (R20, R290). -/
def hostAct (act : HostAction) (s : State) : Host.Outcome State Fault Refusal :=
  match act with
  | .writeReg no v => hostWriteReg no v s
  | .readReg no => .next { s with hostData := s.register no }
  | .writeIbuf a b => .next (hostWriteIbuf a b s)
  | .readIbuf a => .next (hostReadByte (s.hostIbuf? a) s)
  | .readObuf a => .next (hostReadByte (s.hostObuf? a) s)
  | .hardReset => .next (hardReset s)

/-- The next action of the host, the state with that action taken from the list, and what it does. With no action waiting the
block waits for the host (R292): nothing changes. -/
def hostStep (s : State) : Host.Outcome State Fault Refusal :=
  match s.pending with
  | [] => .next s
  | act :: rest => hostAct act { s with pending := rest }

/-- The host's next action is a write of the given word to CMD. -/
def fetchWord (nbits w : Nat) (s : State) : State :=
  { s with pending := .writeReg 4 (zext64 (w % 2 ^ nbits % 2 ^ 32)) :: s.pending }

end Sys2Proof.Machine
end

