-- ==== Sys2Proof/Machine/Step.lean ====
section
/-! DEFINITION. One step of the machine: one action of the host, a command included (spec 10_state.md R20, R22). -/

namespace Sys2Proof.Machine

/-- One step: the host's next action (R20). A command is one atomic step (R20, R310). -/
def step (s : State) : Host.Outcome State Fault Refusal := hostStep s

/-- NBC fetches no instructions: a command arrives as a host write of CMD (R22, R90). `s` with that write as the host's next
action. -/
def State.withFetchWord (s : State) (nbits w : Nat) : State := fetchWord nbits w s

end Sys2Proof.Machine
end

