-- ==== Sys2Proof/OpcodeMap.lean ====
section
/-! DEFINITION. The opcode table as masks and patterns (spec 30_encoding.md R91, R92), apart from the decoder: claims
compare `decode` with it. -/

namespace Sys2Proof

/-- A row of the opcode table: a word matches it when its bits under `mask` are `pattern` and its field `a` is at most
`limit` (R91, R92). -/
structure CommandRow where
  mnemonic : String
  pattern : CmdWord
  mask : CmdWord
  limit : Nat
deriving DecidableEq, Repr

/-- Does a word match a row (R91)? -/
def CommandRow.holds (r : CommandRow) (w : CmdWord) : Prop := w &&& r.mask = r.pattern ∧ (w.extractLsb' 8 8).toNat ≤ r.limit

/-- The rows of R92. A field without an "only" range has the limit 255. -/
def commandRows : List CommandRow :=
  [⟨"SRESET", 0x01, 0xFFFFFFFF, 255⟩, ⟨"RELEASE", 0x02, 0xFFFFFFFF, 255⟩,
   ⟨"TCLR", 0x10, 0xFFFFFFFF, 255⟩, ⟨"TINS", 0x11, 0xFF0000FF, 255⟩, ⟨"TLOOK", 0x12, 0xFFFF00FF, 255⟩,
   ⟨"TBITS", 0x13, 0xFFFFFFFF, 255⟩, ⟨"TRAW", 0x14, 0xFFFFFFFF, 255⟩, ⟨"TSIZE", 0x15, 0xFFFFFFFF, 255⟩,
   ⟨"TITER", 0x16, 0xFFFF00FF, 255⟩]
  ++
  [⟨"WINIT", 0x20, 0xFFFFFFFF, 255⟩, ⟨"WBYTES", 0x21, 0xFFFFF0FF, 8⟩, ⟨"WBIT", 0x22, 0xFFFFFEFF, 1⟩,
   ⟨"WFLUSH", 0x23, 0xFFFFFFFF, 255⟩, ⟨"WGIVE", 0x24, 0xFFFFFFFF, 255⟩,
   ⟨"RINIT", 0x30, 0xFFFFFFFF, 255⟩, ⟨"RD8", 0x31, 0xFFFFFFFF, 255⟩, ⟨"RD16", 0x32, 0xFFFFFFFF, 255⟩,
   ⟨"RD64", 0x33, 0xFFFFFFFF, 255⟩, ⟨"RBIT", 0x34, 0xFFFFFFFF, 255⟩, ⟨"RREM", 0x35, 0xFFFFFFFF, 255⟩]
  ++
  [⟨"PACK", 0x40, 0xFF00F0FF, 8⟩, ⟨"UNPACK", 0x41, 0xFFFFF0FF, 8⟩,
   ⟨"ENCODE", 0x50, 0xFFFFFFFF, 255⟩, ⟨"DECODE", 0x51, 0xFFFFFFFF, 255⟩,
   ⟨"COMPRESS", 0x60, 0xFFFF00FF, 255⟩, ⟨"DECOMPRESS", 0x61, 0xFFFFFFFF, 255⟩]

end Sys2Proof
end

