-- ==== Sys2Proof/Safety.lean ====
section
/-! DEFINITION. The terms claims use: the invariants of the units (spec 10_state.md R30, R31, R32) and of the machine, a
series of commands, what a macro operation leaves alone, and the records it leaves (46_dispatch_system.md R244). -/

namespace Sys2Proof.Machine

/-- The keys of T in the order of insertion: `T.ord[0..T.count)` (R30). -/
def TableUnit.keys (t : TableUnit) : List Byte := t.ord.toList.take t.count.toNat

/-- The invariants of T (R30): (a) `T.count` is the number of valid keys; (b) `T.ord[0..T.count)` lists exactly the valid keys,
each once; (c) `T.count <= 256`. -/
abbrev TableUnit.wf (t : TableUnit) : Prop :=
  t.count.toNat = t.valid.toList.count true ∧ t.keys.Nodup ∧ (∀ key : Byte, t.has key = true ↔ key ∈ t.keys)
    ∧ t.count.toNat ≤ 256

/-- The invariants of W (R31): (a) `W.ptr <= W.len <= OUT_CAP`; (b) `W.bi != 0` only if `W.ptr < W.len`; (c) the bits of the
accumulator at and above the bit index are zero. -/
abbrev WriterUnit.wf (c : Config) (w : WriterUnit) : Prop :=
  w.ptr.toNat ≤ w.len.toNat ∧ w.len.toNat ≤ c.outCap ∧ (w.bi ≠ 0 → w.ptr.toNat < w.len.toNat)
    ∧ w.acc.toNat < 2 ^ w.bi.toNat

/-- The invariants of R (R32): (a) `R.ptr <= R.len <= IN_CAP`; (b) `R.bi != 0` only if `R.ptr < R.len`. (Part (c) speaks of what
the host has written since and is not one of the state.) -/
abbrev ReaderUnit.wf (c : Config) (r : ReaderUnit) : Prop :=
  r.ptr.toNat ≤ r.len.toNat ∧ r.len.toNat ≤ c.inCap ∧ (r.bi ≠ 0 → r.ptr.toNat < r.len.toNat)

/-- A memory in its canonical form with every address inside its capacity (R40, R41). -/
abbrev Memory.within (cap : Nat) (m : Memory) : Prop := m.wf ∧ ∀ c ∈ m, c.1 < cap

/-- The invariant of the machine between two steps. -/
structure Inv (s : State) : Prop where
  /-- The parameters are in range (R10, R26). -/
  cfg : s.cfg.wf
  /-- IBUF is in its canonical form and within its capacity (R40). -/
  ibuf : s.ibuf.within s.cfg.inCap
  /-- OBUF is in its canonical form and within its capacity (R41). -/
  obuf : s.obuf.within s.cfg.outCap
  /-- R30. -/
  table : s.t.wf
  /-- R31. -/
  writer : s.w.wf s.cfg
  /-- R32. -/
  reader : s.r.wf s.cfg
  /-- Before and after every command S is at its reset values (R22, R34). -/
  sequencer : s.seq = Sequencer.reset
  /-- At most one FAULT bit is set, and none of the reserved ones (R27, R271). -/
  oneFault : s.fault = 0 ∨ ∃ f : FaultKind, s.fault = f.bit
  /-- `OUT_LEN` is 0 whenever `OUT_VALID = 0` (R26). -/
  noBuffer : s.outValid = false → s.outLen = 0
  /-- While the host owns OBUF, its buffer lies inside OBUF and W is unbound (R25, R148). -/
  owned : s.outValid = true → s.outLen.toNat ≤ s.cfg.outCap ∧ s.w = WriterUnit.reset
  /-- TAG is 0 when `TAG_VALID = 0` (R26). -/
  noTag : s.tagValid = false → s.tag = 0

/-- A series of commands, the first first, as long as each gives a next state. -/
def runCommands : List Instr → State → Host.Outcome State Fault Refusal
  | [], s => .next s
  | i :: rest, s =>
    match exec i s with
    | .next s' => runCommands rest s'
    | .fault f => .fault f
    | .refused r => .refused r

/-- The scan of R129 and R193: each byte that is not a key yet is inserted with the entry count as its value. -/
def scanTable (t : TableUnit) (xs : List Byte) : TableUnit :=
  xs.foldl (fun t x => if t.has x then t else t.insert x (BitVec.ofNat 8 t.count.toNat)) t

/-- The input: the bytes `IBUF[0..IN_LEN)` (R28). -/
def State.input (s : State) : List Byte := (List.range s.inLen.toNat).map s.ibufAt

/-- The four macro operations (R19). -/
def isMacro : Instr → Bool
  | .encode | .decode | .compress _ | .decompress => true
  | .sreset | .release | .tclr | .tins _ _ | .tlook _ | .tbits | .traw | .tsize | .titer _ | .winit | .wbytes _ | .wbit _
  | .wflush | .wgive | .rinit | .rd8 | .rd16 | .rd64 | .rbit | .rrem | .pack _ _ | .unpack _ => false

/-- T, W, R and S are at their reset values, where the spec gives these (R248). -/
def State.unitsReset (s : State) : Prop :=
  s.t.valid = Vector.replicate 256 false ∧ s.t.count = 0 ∧ s.w = WriterUnit.reset
    ∧ s.r.len = 0 ∧ s.r.ptr = 0 ∧ s.r.bi = 0 ∧ s.seq = Sequencer.reset

/-- What no macro operation changes: the general registers, FAULT, the input and the host's side (R190, R210, R247, R268). -/
def State.macroFrame (s t : State) : Prop :=
  t.x0 = s.x0 ∧ t.x1 = s.x1 ∧ t.x2 = s.x2 ∧ t.x3 = s.x3 ∧ t.fault = s.fault ∧ t.inPresent = s.inPresent
    ∧ t.inLen = s.inLen ∧ t.ibuf = s.ibuf ∧ t.ibufEpoch = s.ibufEpoch ∧ t.cfg = s.cfg ∧ t.hostData = s.hostData
    ∧ t.pending = s.pending

/-- The record of a macro operation that succeeds with the given bytes and tag (R190, R210, R244): every byte of the buffer
is written, and OBUF is unchanged beyond it. -/
def State.success (s t : State) (bytes : List Byte) (tag : Byte) : Prop :=
  t.ok = true ∧ t.flag = false ∧ t.outValid = true ∧ t.outLen.toNat = bytes.length
    ∧ (∀ a < bytes.length, t.obuf.read? a = bytes[a]?)
    ∧ (∀ a, bytes.length ≤ a → t.obuf.read? a = s.obuf.read? a)
    ∧ t.tagValid = true ∧ t.tag = tag ∧ t.err = .noError ∧ t.unitsReset ∧ s.macroFrame t

/-- The record of a macro operation that fails (R244, R246, R268). -/
def State.failure (s t : State) (k : ErrKind) (tag : Option Byte) : Prop :=
  t.ok = false ∧ t.flag = false ∧ t.outValid = false ∧ t.outLen = 0 ∧ t.err = k
    ∧ t.tagValid = tag.isSome ∧ t.tag = tag.getD 0 ∧ t.unitsReset ∧ s.macroFrame t

/-- Every block of an instance that is given the bytes `e` as its acceptable input, with OBUF free, fails on DECODE and on
DECOMPRESS with the kind `k`, reports byte 0 as the tag, and writes no byte (R213, R242, R268). -/
def decodeFails (c : Config) (e : List Byte) (k : ErrKind) : Prop :=
  ∀ (i : Instr) (s : State), i = .decode ∨ i = .decompress → s.cfg = c → s.fault = 0 → s.outValid = false →
    s.inPresent = true → s.inLen.toNat ≤ s.cfg.inCap → s.input = e → ∃ t,
      exec i s = .next t ∧ s.failure t k e.head? ∧ t.obuf = s.obuf

end Sys2Proof.Machine
end

