-- ==== Sys2Proof/WireFormat.lean ====
section
/-! DEFINITION. The wire format of an encoded buffer as a function of the input, apart from the machine: the encoded buffer
of an input (spec 30_encoding.md R100 to R106, 44_encoder.md R199) and what a decoder answers on a buffer
(45_decoder.md R223). The step does not use this file; claims compare ENCODE and DECODE with it. -/

namespace Sys2Proof.Wire

open Sys2Proof.Machine

/-- Stream bit `k` of a byte sequence: bit `k mod 8` of byte `k div 8` (R19, R67). -/
def streamBit (s : List Byte) (k : Nat) : Bool := (s.getD (k / 8) 0).getLsbD (k % 8)

/-- The byte whose bits are the given ones, first bit into bit 0; bits that are missing are 0. -/
def byteOfBits (bits : List Bool) : Byte := BitVec.ofNat 8 (bitsValue (bits.take 8))

/-- A sequence of bits as bytes, 8 to a byte, the last byte zero-padded (R67, R105). -/
def bytesOfBits (bits : List Bool) : List Byte :=
  (List.range (ceilDiv bits.length 8)).map fun q => byteOfBits (bits.drop (8 * q))

/-- `d(x)`: the distinct byte values of an input in order of first occurrence (R129, R199). -/
def distinct : List Byte → List Byte
  | [] => []
  | s :: rest => s :: (distinct rest).filter fun u => decide (u ≠ s)

/-- `packbits(B, cs)`: stream bit `i*B + j` is bit `j` of `cs[i]`, and the other bits are 0 (R199). -/
def packbits (width : Nat) (cs : List Nat) : List Byte :=
  bytesOfBits (cs.flatMap fun c => (List.range width).map c.testBit)

/-- The table entries of a list of distinct symbols: code byte, then symbol byte (R103, R199). -/
def entries (symbols : List Byte) : List Byte :=
  symbols.zipIdx.flatMap fun e => [BitVec.ofNat 8 e.2, e.1]

/-- `enc(x)`: the encoded buffer of an input (R199). -/
def enc (c : Config) (x : List Byte) : List Byte :=
  let d := distinct x
  c.methodTag :: encBytes c.byteOrder Config.countSize d.length ++ entries d
    ++ encBytes c.byteOrder Config.lenSize x.length
    ++ packbits (bitsPerEntry d.length) (x.map fun s => d.idxOf s)

/-- The entry count of a buffer (R102). -/
def headerCount (c : Config) (e : List Byte) : Nat := decBytes c.byteOrder ((e.drop 1).take Config.countSize)

/-- The code bytes of the table entries, in their order (R103). -/
def headerCodes (c : Config) (e : List Byte) : List Byte := (List.range (headerCount c e)).map fun k => e.getD (3 + 2 * k) 0

/-- The original length a buffer states (R104). -/
def headerLength (c : Config) (e : List Byte) : Nat :=
  decBytes c.byteOrder ((e.drop (3 + 2 * headerCount c e)).take Config.lenSize)

/-- The code in position `i` of the data region (R223, condition 9). -/
def dataCode (c : Config) (e : List Byte) (i : Nat) : Byte :=
  let width := bitsPerEntry (headerCount c e)
  BitVec.ofNat 8 (bitsValue ((List.range width).map fun j => streamBit (e.drop (11 + 2 * headerCount c e)) (i * width + j)))

/-- `sym(c)`: the symbol byte of the entry with the given code byte (R223). -/
def symbolOf (c : Config) (e : List Byte) (code : Byte) : Byte := e.getD (4 + 2 * (headerCodes c e).idxOf code) 0

/-- Acceptance and result of R223: the nine conditions in their order, each with its error kind, and the output. -/
def verdict (c : Config) (e : List Byte) : Except ErrKind (List Byte) :=
  let n := headerCount c e
  let l := headerLength c e
  if e.head? ≠ some c.methodTag then .error .unknownMethod
  else if e.length < 3 then .error .malformedHeader
  else if n < 1 ∨ 256 < n then .error .malformedHeader
  else if e.length - 3 < 2 * n then .error .malformedHeader
  else if ¬ (headerCodes c e).Nodup then .error .malformedHeader
  else if e.length - 3 - 2 * n < 8 then .error .malformedHeader
  else if ceilDiv (bitsPerEntry n * l) 8 ≠ e.length - 11 - 2 * n then .error .malformedBody
  else if c.outCap < l then .error .allocationFailure
  else if ∃ i < l, dataCode c e i ∉ headerCodes c e then .error .invalidCode
  else .ok ((List.range l).map fun i => symbolOf c e (dataCode c e i))

end Sys2Proof.Wire
end

