-- ==== Sys2Proof/Certificates/Slice0/Obligations.lean ====
section
/-! DEFINITION. The statements for the provers. Each docstring names the rules of spec/ it formalises; a hypothesis such as
`s.w.wf s.cfg` is a part of `Inv`, which `EveryStepKeepsTheInvariant` states of every step. -/

open Sys2Proof Sys2Proof.Machine

/-! ## Encodings -/

/-- R90, R91, R92, R94: every well-formed command, with every operand its encoding admits, is what its word decodes to. -/
def Obligations.DecodeOfEncodeIsTheCommand : Prop :=
  ∀ i : Instr, i.wf = true → decode (encode i) = .ok i

/-- R90, R91, R92, R97: a legal word is the encoding of the command it decodes to, so each command has one word, and the
decoder yields well-formed commands only. -/
def Obligations.EncodeOfDecodeIsTheWord : Prop :=
  ∀ (w : CmdWord) (i : Instr), decode w = .ok i → encode i = w ∧ i.wf = true

/-- R95: a word is illegal when it matches no row of R92; an illegal word executes nothing and raises `fault(ILLEGAL_CMD)`.
A word that matches a row executes a command, so no word is a hint. -/
def Obligations.IllegalWordsAreThoseMatchingNoRow : Prop :=
  ∀ (w : CmdWord) (s : State), s.fault = 0 →
    ((∀ r ∈ commandRows, ¬ r.holds w) → (∃ e, decode w = .error e) ∧ issue w s = .next { s with fault := 0x01 }) ∧
    (∀ r ∈ commandRows, r.holds w → ∃ i, decode w = .ok i ∧ issue w s = exec i s)

/-- R90, R92, R95: words written out from the rows of R92 decode to their commands, and each of the illegal words of V97 to
V104 is rejected on the ground the vector gives. -/
def Obligations.WrittenWordsDecode : Prop :=
  decode 0x00000001 = .ok .sreset ∧ decode 0x00054111 = .ok (.tins 0x41 5) ∧ decode 0x00000821 = .ok (.wbytes 8) ∧
  decode 0x00000122 = .ok (.wbit true) ∧ decode 0x00000032 = .ok .rd16 ∧ decode 0x00A50840 = .ok (.pack 8 0xA5) ∧
  decode 0x00000341 = .ok (.unpack 3) ∧ decode 0x00000050 = .ok .encode ∧ decode 0x0000A760 = .ok (.compress 0xA7) ∧
  decode 0x00000000 = .error .unknownOpcode ∧ decode 0x000000FF = .error .unknownOpcode ∧
  decode 0x00000003 = .error .unknownOpcode ∧ decode 0x00000017 = .error .unknownOpcode ∧
  decode 0x00000025 = .error .unknownOpcode ∧ decode 0x00000036 = .error .unknownOpcode ∧
  decode 0x00000042 = .error .unknownOpcode ∧ decode 0x00000052 = .error .unknownOpcode ∧
  decode 0x00000062 = .error .unknownOpcode ∧ decode 0x01000010 = .error .reservedField ∧
  decode 0x00010110 = .error .reservedField ∧ decode 0x00000101 = .error .reservedField ∧
  decode 0x00010012 = .error .reservedField ∧ decode 0x00000921 = .error .operandRange ∧
  decode 0x00001021 = .error .operandRange ∧ decode 0x00000222 = .error .operandRange ∧
  decode 0x00000940 = .error .operandRange ∧ decode 0x00000941 = .error .operandRange

/-! ## The front end -/

/-- R20, R90: a step at which the host writes a legal word to CMD runs the command the word decodes to, on the state with that
host action done; and the word that `withFetchWord` places is the next one to run. (That a write carries 64 bits, of which CMD
takes the low 32, is the model's choice: assumption log 8. So is the list of host actions that `withFetchWord` puts one in front
of: assumption log 7.) -/
def Obligations.StepRunsTheCommandWritten : Prop :=
  (∀ (s : State) (v : Word) (rest : List HostAction) (i : Instr), s.pending = .writeReg 4 v :: rest →
    decode (v.setWidth 32) = .ok i → step s = exec i { s with pending := rest }) ∧
  (∀ (s : State) (w : Nat) (i : Instr), w < 2 ^ 32 → decode (BitVec.ofNat 32 w) = .ok i →
    step (s.withFetchWord 32 w) = exec i s)

/-- R27, R272: while FAULT is non-zero, every command except SRESET is ignored: no state changes at all, not even STATUS; so is
an illegal word; and the only word a faulted block executes is SRESET's. -/
def Obligations.FaultedBlockAcceptsOnlySreset : Prop :=
  ∀ s : State, s.fault ≠ 0 →
    (∀ i : Instr, i ≠ .sreset → exec i s = .next s) ∧
    (∀ w : CmdWord, w ≠ 0x00000001 → issue w s = .next s) ∧
    (∃ t, issue 0x00000001 s = .next t ∧ t.fault = 0)

/-- R272: a command that faults sets one FAULT bit and changes nothing else: any next state of a command other than SRESET has
the FAULT register it began with, or is the state it began in with one more FAULT bit. -/
def Obligations.FaultsChangeOnlyTheFaultRegister : Prop :=
  ∀ (i : Instr) (s t : State), i ≠ .sreset → exec i s = .next t →
    t.fault = s.fault ∨ (s.fault = 0 ∧ ∃ f : FaultKind, t = { s with fault := f.bit })

/-! ## The table unit -/

/-- R121: TCLR clears every valid bit and the count; `T.val` and `T.ord` keep their words; `OK = 1`, `FLAG = 0`. -/
def Obligations.TclrClearsTheTable : Prop :=
  encode .tclr = 0x00000010 ∧
  ∀ s : State, s.fault = 0 →
    exec .tclr s = .next
      { s with t := { s.t with valid := Vector.replicate 256 false, count := 0 }, ok := true, flag := false }

/-- R122: TINS inserts a pair if the key is absent, and leaves the table as it is if the key is present; `FLAG` says which; the
count never passes 256, because by the invariants of T (R30) an absent key leaves it below 256. -/
def Obligations.TinsInsertsAbsentKeysOnly : Prop :=
  ∀ (key value : Byte) (s : State), s.fault = 0 →
    encode (.tins key value) = BitVec.ofNat 32 (0x11 + 256 * key.toNat + 65536 * value.toNat) ∧
    (s.t.valid[key.toNat]'key.isLt = true → exec (.tins key value) s = .next { s with ok := true, flag := false }) ∧
    (s.t.valid[key.toNat]'key.isLt = false → ∀ h : s.t.count.toNat < 256,
      exec (.tins key value) s = .next
        { s with
          t :=
            { valid := s.t.valid.set key.toNat true key.isLt
              val := s.t.val.set key.toNat value key.isLt
              ord := s.t.ord.set s.t.count.toNat key h
              count := s.t.count + 1 }
          ok := true
          flag := true }) ∧
    (s.t.valid[key.toNat]'key.isLt = false → s.t.wf → s.t.count.toNat < 256)

/-- R123: TLOOK gives the value of a key that is present with `FLAG = 1`, and 0 with `FLAG = 0` on a miss. -/
def Obligations.TlookReportsHitOrMiss : Prop :=
  ∀ (key : Byte) (s : State), s.fault = 0 →
    encode (.tlook key) = BitVec.ofNat 32 (0x12 + 256 * key.toNat) ∧
    exec (.tlook key) s = .next
      (if s.t.valid[key.toNat]'key.isLt = true then
        { s with x2 := (s.t.val[key.toNat]'key.isLt).setWidth 64, ok := true, flag := true }
      else { s with x2 := 0, ok := true, flag := false })

/-- R125, R126, R128: TBITS, TRAW and TSIZE give `bits(T.count)`, `2 * T.count` and `T.count`, and change nothing else but the
flags. -/
def Obligations.TableSizesAreReported : Prop :=
  encode .tbits = 0x00000013 ∧ encode .traw = 0x00000014 ∧ encode .tsize = 0x00000015 ∧
  ∀ s : State, s.fault = 0 →
    exec .tbits s = .next { s with x2 := BitVec.ofNat 64 (bitsPerEntry s.t.count.toNat), ok := true, flag := false } ∧
    exec .traw s = .next { s with x2 := BitVec.ofNat 64 (2 * s.t.count.toNat), ok := true, flag := false } ∧
    exec .tsize s = .next { s with x2 := BitVec.ofNat 64 s.t.count.toNat, ok := true, flag := false }

/-- R127: TITER gives the key inserted `index`-th and its value, or 0 and 0 with `FLAG = 0` at or above the count. -/
def Obligations.TiterReadsInInsertionOrder : Prop :=
  ∀ (index : Byte) (s : State), s.fault = 0 →
    encode (.titer index) = BitVec.ofNat 32 (0x16 + 256 * index.toNat) ∧
    (index.toNat < s.t.count.toNat → ∀ k : Byte, s.t.ord[index.toNat]'index.isLt = k →
      exec (.titer index) s = .next
        { s with x2 := k.setWidth 64, x3 := (s.t.val[k.toNat]'k.isLt).setWidth 64, ok := true, flag := true }) ∧
    (s.t.count.toNat ≤ index.toNat →
      exec (.titer index) s = .next { s with x2 := 0, x3 := 0, ok := true, flag := false })

/-- R14, R124: `bits(n)` is the least width that represents `n` values, 0 for `n = 0` and `n = 1`, never more than 8 for a table,
and every code below `n` fits in it. -/
def Obligations.BitsPerEntryIsTheLeastWidth : Prop :=
  bitsPerEntry 0 = 0 ∧ bitsPerEntry 1 = 0 ∧
  (∀ n, 1 ≤ n → n ≤ 2 ^ bitsPerEntry n ∧ ∀ k, n ≤ 2 ^ k → bitsPerEntry n ≤ k) ∧
  (∀ n, n ≤ 256 → bitsPerEntry n ≤ 8) ∧
  (∀ n c, c < n → c < 2 ^ bitsPerEntry n)

/-- R129: a table built by the scan "if the byte is absent, insert it with the count as its value" from a clear table has the
distinct bytes of the input as its keys, in order of first occurrence, and their positions as its values, and has 1 to 256
entries for a non-empty input; and the encoder's phase E_SCAN builds the table of this scan over the input bytes. -/
def Obligations.ScanBuildsADenseTable : Prop :=
  (∀ (t : TableUnit) (xs : List Byte), t.count = 0 → t.valid = Vector.replicate 256 false →
    (scanTable t xs).keys = Wire.distinct xs ∧
    (scanTable t xs).count.toNat = (Wire.distinct xs).length ∧
    (scanTable t xs).count.toNat ≤ 256 ∧ (xs ≠ [] → 1 ≤ (scanTable t xs).count.toNat) ∧
    ∀ i (h : i < (Wire.distinct xs).length), ((scanTable t xs).valueOf (Wire.distinct xs)[i]).toNat = i) ∧
  (∀ s : State, s.seq.l.toNat ≤ s.cfg.inCap → ∃ u,
    eScan s = .ok () u ∧ u = { s with t := u.t, seq := u.seq } ∧
    u.t = scanTable s.t.clear ((List.range s.seq.l.toNat).map s.ibufAt) ∧ u.seq.n.toNat = u.t.count.toNat)

/-! ## The writer -/

/-- R141: WINIT faults while the host owns OBUF; fails, unbinding W, when the size exceeds `OUT_CAP`; else binds W to a buffer of
`x[0]` bytes, whose bytes are unspecified (nothing written), and leaves the bytes beyond it alone. -/
def Obligations.WinitBindsOrFails : Prop :=
  encode .winit = 0x00000020 ∧
  ∀ s : State, s.fault = 0 →
    (s.outValid = true → exec .winit s = .next { s with fault := 0x20 }) ∧
    (s.outValid = false → s.cfg.outCap < s.x0.toNat →
      exec .winit s = .next { s with w := { len := 0, ptr := 0, bi := 0, acc := 0 }, ok := false, flag := false }) ∧
    (s.outValid = false → s.x0.toNat ≤ s.cfg.outCap → ∃ t,
      exec .winit s = .next t ∧
      t = { s with
            w := { len := s.x0, ptr := 0, bi := 0, acc := 0 }
            ok := true
            flag := false
            obuf := t.obuf
            obufEpoch := t.obufEpoch } ∧
      (∀ a, a < s.x0.toNat → t.obuf.read? a = none) ∧
      (∀ a, s.x0.toNat ≤ a → t.obuf.read? a = s.obuf.read? a))

/-- R93, R142: WBYTES faults on a misaligned writer, then on an overrun, with nothing written; else it stores the low `count`
bytes of `x[1]` from the cursor on, byte 0 first, and advances the cursor. -/
def Obligations.WbytesStoresTheSourceBytes : Prop :=
  ∀ (count : Nat) (s : State), count ≤ 8 → s.fault = 0 → s.w.len.toNat ≤ s.cfg.outCap →
    encode (.wbytes count) = BitVec.ofNat 32 (0x21 + 256 * count) ∧
    (s.w.bi ≠ 0 → exec (.wbytes count) s = .next { s with fault := 0x08 }) ∧
    (s.w.bi = 0 → s.w.len.toNat < s.w.ptr.toNat + count → exec (.wbytes count) s = .next { s with fault := 0x02 }) ∧
    (s.w.bi = 0 → s.w.ptr.toNat + count ≤ s.w.len.toNat → ∃ t,
      exec (.wbytes count) s = .next t ∧
      t = { s with
            w := { s.w with ptr := BitVec.ofNat 64 (s.w.ptr.toNat + count) }
            ok := true
            flag := false
            obuf := t.obuf } ∧
      (∀ k, k < count → t.obuf.read? (s.w.ptr.toNat + k) = some (s.x1.extractLsb' (8 * k) 8)) ∧
      (∀ a, a < s.w.ptr.toNat ∨ s.w.ptr.toNat + count ≤ a → t.obuf.read? a = s.obuf.read? a))

/-- R143: WBIT faults when no byte is left; else it puts the bit at the bit index of the accumulator, and the eighth bit emits
the byte at the cursor. -/
def Obligations.WbitFillsTheAccumulator : Prop :=
  ∀ (bit : Bool) (s : State), s.fault = 0 → s.w.len.toNat ≤ s.cfg.outCap →
    encode (.wbit bit) = (if bit then 0x00000122 else 0x00000022) ∧
    (s.w.len.toNat ≤ s.w.ptr.toNat → exec (.wbit bit) s = .next { s with fault := 0x02 }) ∧
    (s.w.ptr.toNat < s.w.len.toNat → ∃ acc : Byte,
      (∀ j, j < 8 → acc.getLsbD j = if j = s.w.bi.toNat then bit else s.w.acc.getLsbD j) ∧
      (s.w.bi ≠ 7 →
        exec (.wbit bit) s = .next { s with w := { s.w with acc := acc, bi := s.w.bi + 1 }, ok := true, flag := false }) ∧
      (s.w.bi = 7 → ∃ t,
        exec (.wbit bit) s = .next t ∧
        t = { s with
              w := { s.w with ptr := BitVec.ofNat 64 (s.w.ptr.toNat + 1), acc := 0, bi := 0 }
              ok := true
              flag := false
              obuf := t.obuf } ∧
        t.obuf.read? s.w.ptr.toNat = some acc ∧
        (∀ a, a ≠ s.w.ptr.toNat → t.obuf.read? a = s.obuf.read? a)))

/-- R145: WFLUSH emits the partial byte at the cursor, if any, with zeros above the bits written; with `W.bi = 0` it changes
nothing but STATUS. -/
def Obligations.WflushEmitsThePartialByte : Prop :=
  encode .wflush = 0x00000023 ∧
  ∀ s : State, s.fault = 0 → s.w.wf s.cfg →
    (s.w.bi = 0 → exec .wflush s = .next { s with ok := true, flag := false }) ∧
    (s.w.bi ≠ 0 → ∃ t,
      exec .wflush s = .next t ∧
      t = { s with
            w := { s.w with ptr := BitVec.ofNat 64 (s.w.ptr.toNat + 1), acc := 0, bi := 0 }
            ok := true
            flag := false
            obuf := t.obuf } ∧
      t.obuf.read? s.w.ptr.toNat = some s.w.acc ∧
      (∀ j, s.w.bi.toNat ≤ j → s.w.acc.getLsbD j = false) ∧
      (∀ a, a ≠ s.w.ptr.toNat → t.obuf.read? a = s.obuf.read? a))

/-- R148: WGIVE faults while the host owns a buffer, then on a misaligned writer; else it hands `W.len` bytes to the host and
unbinds W. TAG and `TAG_VALID` stay. -/
def Obligations.WgiveHandsTheBufferOver : Prop :=
  encode .wgive = 0x00000024 ∧
  ∀ s : State, s.fault = 0 →
    (s.outValid = true → exec .wgive s = .next { s with fault := 0x20 }) ∧
    (s.outValid = false → s.w.bi ≠ 0 → exec .wgive s = .next { s with fault := 0x08 }) ∧
    (s.outValid = false → s.w.bi = 0 →
      exec .wgive s = .next
        { s with
          outLen := s.w.len
          outValid := true
          w := { len := 0, ptr := 0, bi := 0, acc := 0 }
          ok := true
          flag := false })

/-- R146: `m` bits written by WBIT to a byte-aligned writer with room for them, then WFLUSH: no fault, the cursor advances by
`ceil_div(m, 8)`, bit `r` of byte `p + q` is bit `8q + r` of the list or 0, and every other byte is unchanged; without the
WFLUSH, `m div 8` bytes are emitted and the accumulator holds the last `m mod 8` bits. -/
def Obligations.BitWritingPassClosedForm : Prop :=
  ∀ (bits : List Bool) (s : State), s.fault = 0 → s.w.wf s.cfg → s.w.bi = 0 →
    s.w.ptr.toNat + ceilDiv bits.length 8 ≤ s.w.len.toNat →
    (∃ t, runCommands (bits.map Instr.wbit ++ [.wflush]) s = .next t ∧
      t = { s with
            w := { s.w with ptr := BitVec.ofNat 64 (s.w.ptr.toNat + ceilDiv bits.length 8), bi := 0, acc := 0 }
            ok := true
            flag := false
            obuf := t.obuf } ∧
      (∀ q, q < ceilDiv bits.length 8 → ∃ b : Byte, t.obuf.read? (s.w.ptr.toNat + q) = some b ∧
        ∀ r, r < 8 → b.getLsbD r = bits.getD (8 * q + r) false) ∧
      (∀ a, a < s.w.ptr.toNat ∨ s.w.ptr.toNat + ceilDiv bits.length 8 ≤ a → t.obuf.read? a = s.obuf.read? a)) ∧
    (∃ u, runCommands (bits.map Instr.wbit) s = .next u ∧
      u = { s with w := u.w, ok := u.ok, flag := u.flag, obuf := u.obuf } ∧
      u.w.len = s.w.len ∧ u.w.ptr.toNat = s.w.ptr.toNat + bits.length / 8 ∧ u.w.bi.toNat = bits.length % 8 ∧
      (∀ r, r < 8 → u.w.acc.getLsbD r = (decide (r < bits.length % 8) && bits.getD (8 * (bits.length / 8) + r) false)) ∧
      (∀ q, q < bits.length / 8 → ∃ b : Byte, u.obuf.read? (s.w.ptr.toNat + q) = some b ∧
        ∀ r, r < 8 → b.getLsbD r = bits.getD (8 * q + r) false) ∧
      (∀ a, a < s.w.ptr.toNat ∨ s.w.ptr.toNat + bits.length / 8 ≤ a → u.obuf.read? a = s.obuf.read? a))

/-! ## The reader -/

/-- R161: RINIT binds R to the input and fills the lookahead, or fails and unbinds it when there is no input or it is longer than
IBUF. -/
def Obligations.RinitBindsTheInput : Prop :=
  encode .rinit = 0x00000030 ∧
  ∀ s : State, s.fault = 0 →
    (s.inPresent = true → s.inLen.toNat ≤ s.cfg.inCap →
      exec .rinit s = .next
        { s with
          r := { len := s.inLen, ptr := 0, bi := 0, la := if 0 < s.inLen.toNat then s.ibufAt 0 else s.r.la }
          ok := true
          flag := false }) ∧
    (s.inPresent = false ∨ s.cfg.inCap < s.inLen.toNat →
      exec .rinit s = .next { s with r := { s.r with len := 0, ptr := 0, bi := 0 }, ok := false, flag := false })

/-- R162, R163, R164, R168: RD8, RD16 and RD64 fault on a misaligned reader, then on an overrun, with nothing consumed; else they
give the 1, 2 or 8 bytes of IBUF at the cursor under `BYTE_ORDER`, advance the cursor, and refill the lookahead while unread
bytes remain. -/
def Obligations.ByteReadsTakeTheBytesAtTheCursor : Prop :=
  encode .rd8 = 0x00000031 ∧ encode .rd16 = 0x00000032 ∧ encode .rd64 = 0x00000033 ∧
  ∀ (i : Instr) (n : Nat) (s : State), (i, n) ∈ [(Instr.rd8, 1), (Instr.rd16, 2), (Instr.rd64, 8)] →
    s.fault = 0 → s.r.len.toNat ≤ s.cfg.inCap →
    (s.r.bi ≠ 0 → exec i s = .next { s with fault := 0x10 }) ∧
    (s.r.bi = 0 → s.r.len.toNat < s.r.ptr.toNat + n → exec i s = .next { s with fault := 0x04 }) ∧
    (s.r.bi = 0 → s.r.ptr.toNat + n ≤ s.r.len.toNat →
      exec i s = .next
        { s with
          r :=
            { s.r with
              ptr := BitVec.ofNat 64 (s.r.ptr.toNat + n)
              la := if s.r.ptr.toNat + n < s.r.len.toNat then s.ibufAt (s.r.ptr.toNat + n) else s.r.la }
          x2 := BitVec.ofNat 64 (decBytes s.cfg.byteOrder ((List.range n).map fun k => s.ibufAt (s.r.ptr.toNat + k)))
          ok := true
          flag := false })

/-- R165: RREM gives `R.len - R.ptr` at any bit index. -/
def Obligations.RremReportsTheRemainder : Prop :=
  encode .rrem = 0x00000035 ∧
  ∀ s : State, s.fault = 0 → s.r.ptr.toNat ≤ s.r.len.toNat → ∃ t,
    exec .rrem s = .next t ∧ t = { s with x2 := t.x2, ok := true, flag := false } ∧
    t.x2.toNat + s.r.ptr.toNat = s.r.len.toNat

/-- R166, R168: RBIT faults when no byte remains; else it gives the bit of the lookahead at the bit index, and the command that
consumes bit 7 advances the cursor and refills the lookahead while unread bytes remain. -/
def Obligations.RbitTakesTheLookaheadBit : Prop :=
  encode .rbit = 0x00000034 ∧
  ∀ s : State, s.fault = 0 → s.r.len.toNat ≤ s.cfg.inCap →
    (s.r.len.toNat ≤ s.r.ptr.toNat → exec .rbit s = .next { s with fault := 0x04 }) ∧
    (s.r.ptr.toNat < s.r.len.toNat → s.r.bi ≠ 7 →
      exec .rbit s = .next
        { s with
          r := { s.r with bi := s.r.bi + 1 }
          x2 := BitVec.ofNat 64 (s.r.la.getLsbD s.r.bi.toNat).toNat
          ok := true
          flag := false }) ∧
    (s.r.ptr.toNat < s.r.len.toNat → s.r.bi = 7 →
      exec .rbit s = .next
        { s with
          r :=
            { s.r with
              bi := 0
              ptr := BitVec.ofNat 64 (s.r.ptr.toNat + 1)
              la := if s.r.ptr.toNat + 1 < s.r.len.toNat then s.ibufAt (s.r.ptr.toNat + 1) else s.r.la }
          x2 := BitVec.ofNat 64 (s.r.la.getLsbD 7).toNat
          ok := true
          flag := false })

/-- R167: `m` RBITs from a byte-aligned reader whose lookahead is current, with enough bytes: none faults, the last one returns
bit `(m-1) mod 8` of byte `p + (m-1) div 8`, the reader ends at byte `p + m div 8`, bit `m mod 8`, and an RREM then gives
`R.len - p - m div 8`. -/
def Obligations.BitReadingPassClosedForm : Prop :=
  ∀ (m : Nat) (s : State), s.fault = 0 → s.r.wf s.cfg → s.r.bi = 0 → s.r.la = s.ibufAt s.r.ptr.toNat →
    s.r.ptr.toNat + ceilDiv m 8 ≤ s.r.len.toNat → ∃ t,
      runCommands (List.replicate m .rbit) s = .next t ∧
      t = { s with r := t.r, x2 := t.x2, ok := t.ok, flag := t.flag } ∧
      t.r.len = s.r.len ∧ t.r.ptr.toNat = s.r.ptr.toNat + m / 8 ∧ t.r.bi.toNat = m % 8 ∧
      (0 < m → t.x2.toNat = ((s.ibufAt (s.r.ptr.toNat + (m - 1) / 8)).getLsbD ((m - 1) % 8)).toNat) ∧
      ∃ u, exec .rrem t = .next u ∧ u.x2.toNat = s.r.len.toNat - s.r.ptr.toNat - m / 8

/-! ## The packing datapath -/

/-- R181: PACK faults with nothing written exactly when one of its WBITs would fault, and otherwise leaves the state they
leave, with `OK = 1` and `FLAG = 0`. -/
def Obligations.PackIsASeriesOfWbits : Prop :=
  ∀ (width : Nat) (code : Byte) (s : State), width ≤ 8 → s.fault = 0 → s.w.wf s.cfg →
    encode (.pack width code) = BitVec.ofNat 32 (0x40 + 256 * width + 65536 * code.toNat) ∧
    (0 < width ∧ s.w.len.toNat < s.w.ptr.toNat + ceilDiv (s.w.bi.toNat + width) 8 →
      exec (.pack width code) s = .next { s with fault := 0x02 } ∧
      ∃ t, runCommands ((List.range width).map fun j => .wbit (code.getLsbD j)) s = .next t ∧ t.fault = 0x02) ∧
    (¬ (0 < width ∧ s.w.len.toNat < s.w.ptr.toNat + ceilDiv (s.w.bi.toNat + width) 8) →
      ∃ t, runCommands ((List.range width).map fun j => .wbit (code.getLsbD j)) s = .next t ∧ t.fault = 0 ∧
        exec (.pack width code) s = .next { t with ok := true, flag := false })

/-- R182: PACK in one step, as a barrel shift of the code into the accumulator, emitting at most one byte. -/
def Obligations.PackIsABarrelShift : Prop :=
  ∀ (width : Nat) (code : Byte) (s : State), width ≤ 8 → s.fault = 0 → s.w.wf s.cfg →
    (0 < width → s.w.ptr.toNat + ceilDiv (s.w.bi.toNat + width) 8 ≤ s.w.len.toNat) →
    (8 ≤ s.w.bi.toNat + width → ∃ t,
      exec (.pack width code) s = .next t ∧
      t = { s with
            w :=
              { s.w with
                ptr := BitVec.ofNat 64 (s.w.ptr.toNat + 1)
                acc := BitVec.ofNat 8 ((s.w.acc.toNat + code.toNat % 2 ^ width * 2 ^ s.w.bi.toNat) / 256)
                bi := BitVec.ofNat 3 (s.w.bi.toNat + width - 8) }
            ok := true
            flag := false
            obuf := t.obuf } ∧
      t.obuf.read? s.w.ptr.toNat
        = some (BitVec.ofNat 8 (s.w.acc.toNat + code.toNat % 2 ^ width * 2 ^ s.w.bi.toNat)) ∧
      (∀ a, a ≠ s.w.ptr.toNat → t.obuf.read? a = s.obuf.read? a)) ∧
    (s.w.bi.toNat + width < 8 →
      exec (.pack width code) s = .next
        { s with
          w :=
            { s.w with
              acc := BitVec.ofNat 8 (s.w.acc.toNat + code.toNat % 2 ^ width * 2 ^ s.w.bi.toNat)
              bi := BitVec.ofNat 3 (s.w.bi.toNat + width) }
          ok := true
          flag := false })

/-- R183: UNPACK faults with nothing consumed exactly when one of its RBITs would fault; otherwise R is where they leave it, and
`x[2]` holds their bits, the first in bit 0. -/
def Obligations.UnpackIsASeriesOfRbits : Prop :=
  ∀ (width : Nat) (s : State), width ≤ 8 → s.fault = 0 → s.r.wf s.cfg →
    encode (.unpack width) = BitVec.ofNat 32 (0x41 + 256 * width) ∧
    (0 < width ∧ s.r.len.toNat < s.r.ptr.toNat + ceilDiv (s.r.bi.toNat + width) 8 →
      exec (.unpack width) s = .next { s with fault := 0x04 } ∧
      ∃ t, runCommands (List.replicate width .rbit) s = .next t ∧ t.fault = 0x04) ∧
    (¬ (0 < width ∧ s.r.len.toNat < s.r.ptr.toNat + ceilDiv (s.r.bi.toNat + width) 8) →
      ∃ t v, runCommands (List.replicate width .rbit) s = .next t ∧ t.fault = 0 ∧
        exec (.unpack width) s = .next v ∧
        v = { s with r := t.r, x2 := v.x2, ok := true, flag := false } ∧
        v.x2.toNat < 2 ^ width ∧
        ∀ j, j < width → ∃ u, runCommands (List.replicate (j + 1) .rbit) s = .next u ∧
          u.x2.toNat = (v.x2.getLsbD j).toNat)

/-- R184: UNPACK in one step, as a barrel shift of the lookahead and the next byte, when the lookahead is current. -/
def Obligations.UnpackIsABarrelShift : Prop :=
  ∀ (width : Nat) (s : State), 0 < width → width ≤ 8 → s.fault = 0 → s.r.wf s.cfg →
    s.r.la = s.ibufAt s.r.ptr.toNat →
    s.r.ptr.toNat + ceilDiv (s.r.bi.toNat + width) 8 ≤ s.r.len.toNat →
    ∀ following : Nat,
      following = (if 8 < s.r.bi.toNat + width then (s.ibufAt (s.r.ptr.toNat + 1)).toNat else 0) →
      exec (.unpack width) s = .next
        { s with
          r :=
            if 8 ≤ s.r.bi.toNat + width then
              { s.r with
                ptr := BitVec.ofNat 64 (s.r.ptr.toNat + 1)
                bi := BitVec.ofNat 3 (s.r.bi.toNat + width - 8)
                la := if s.r.ptr.toNat + 1 < s.r.len.toNat then s.ibufAt (s.r.ptr.toNat + 1) else s.r.la }
            else { s.r with bi := BitVec.ofNat 3 (s.r.bi.toNat + width) }
          x2 := BitVec.ofNat 64 ((s.r.la.toNat + 256 * following) / 2 ^ s.r.bi.toNat % 2 ^ width)
          ok := true
          flag := false }

/-- R105, R185: codes written by `PACK B` to a byte-aligned writer with room for them, then WFLUSH, leave the bytes whose stream
bit `i*B + j` is bit `j` of code `i`, zero-padded, and every other byte unchanged. -/
def Obligations.PackedCodesFormTheStream : Prop :=
  ∀ (width : Nat) (codes : List Byte) (s : State), width ≤ 8 → s.fault = 0 → s.w.wf s.cfg → s.w.bi = 0 →
    s.w.ptr.toNat + ceilDiv (width * codes.length) 8 ≤ s.w.len.toNat → ∃ t,
      runCommands (codes.map (Instr.pack width) ++ [.wflush]) s = .next t ∧
      t = { s with
            w :=
              { s.w with ptr := BitVec.ofNat 64 (s.w.ptr.toNat + ceilDiv (width * codes.length) 8), bi := 0, acc := 0 }
            ok := true
            flag := false
            obuf := t.obuf } ∧
      (∀ q, q < ceilDiv (width * codes.length) 8 → ∃ b : Byte, t.obuf.read? (s.w.ptr.toNat + q) = some b ∧
        ∀ r, r < 8 → b.getLsbD r =
          (decide (8 * q + r < width * codes.length) &&
            (codes.getD ((8 * q + r) / width) 0).getLsbD ((8 * q + r) % width))) ∧
      (∀ a, a < s.w.ptr.toNat ∨ s.w.ptr.toNat + ceilDiv (width * codes.length) 8 ≤ a →
        t.obuf.read? a = s.obuf.read? a)

/-! ## The macro operations -/

/-- R190, R199, and R241 for COMPRESS: with an acceptable input and OBUF free, ENCODE, and COMPRESS with the method `METHOD_TAG`, succeed with the
encoded buffer of the input when it fits OBUF, and otherwise fail with AllocationFailure and the tag. -/
def Obligations.EncodeWritesTheEncodedBuffer : Prop :=
  ∀ (i : Instr) (s : State), i = .encode ∨ i = .compress s.cfg.methodTag → s.cfg.wf → s.fault = 0 → s.outValid = false →
    s.inPresent = true → 1 ≤ s.inLen.toNat → s.inLen.toNat ≤ s.cfg.inCap → ∃ t,
      exec i s = .next t ∧
      ((Wire.enc s.cfg s.input).length ≤ s.cfg.outCap → s.success t (Wire.enc s.cfg s.input) s.cfg.methodTag) ∧
      (s.cfg.outCap < (Wire.enc s.cfg s.input).length →
        s.failure t .allocationFailure (some s.cfg.methodTag) ∧ t.obuf = s.obuf)

/-- R106, R200 (a): the size law of the encoded buffer. -/
def Obligations.EncodedLengthFollowsTheSizeLaw : Prop :=
  ∀ (c : Config) (x : List Byte),
    (Wire.enc c x).length =
      11 + 2 * (Wire.distinct x).length + ceilDiv (bitsPerEntry (Wire.distinct x).length * x.length) 8

/-- R210, R223, and R242 for DECOMPRESS: with an acceptable input and OBUF free, DECODE and DECOMPRESS succeed with the output of R223, or fail with the
kind of its first condition that does not hold, reporting byte 0 as the tag; a failure before the allocation leaves OBUF alone,
and InvalidCode changes at most the bytes of the buffer it had allocated. -/
def Obligations.DecodeFollowsTheVerdict : Prop :=
  ∀ (i : Instr) (s : State), i = .decode ∨ i = .decompress → s.fault = 0 → s.outValid = false →
    s.inPresent = true → 1 ≤ s.inLen.toNat → s.inLen.toNat ≤ s.cfg.inCap → ∃ t,
      exec i s = .next t ∧
      (∀ bytes, Wire.verdict s.cfg s.input = .ok bytes → s.success t bytes s.cfg.methodTag) ∧
      (∀ k, Wire.verdict s.cfg s.input = .error k →
        s.failure t k s.input.head? ∧ (k ≠ .invalidCode → t.obuf = s.obuf) ∧
        ∀ a, Wire.headerLength s.cfg s.input ≤ a → t.obuf.read? a = s.obuf.read? a)

/-- R224, and R242 for DECOMPRESS: where IBUF holds the encoded buffer of an input, DECODE and DECOMPRESS succeed with that input. -/
def Obligations.EncodedBuffersDecode : Prop :=
  ∀ (i : Instr) (s : State) (x : List Byte), i = .decode ∨ i = .decompress → s.cfg.wf → s.fault = 0 → s.outValid = false →
    1 ≤ x.length → x.length ≤ s.cfg.inCap → x.length ≤ s.cfg.outCap →
    (Wire.enc s.cfg x).length ≤ s.cfg.inCap → (Wire.enc s.cfg x).length ≤ s.cfg.outCap →
    s.inPresent = true → s.input = Wire.enc s.cfg x → ∃ t, exec i s = .next t ∧ s.success t x s.cfg.methodTag

/-- R199, R224, and R241, R242 for COMPRESS and DECOMPRESS: decoding what ENCODE (or COMPRESS) wrote, placed in IBUF of a block of the same instance, succeeds with the original
input. -/
def Obligations.RoundTripRestoresTheInput : Prop :=
  ∀ (i j : Instr) (s t u : State), i = .encode ∨ i = .compress s.cfg.methodTag → j = .decode ∨ j = .decompress →
    s.cfg.wf → s.fault = 0 → s.outValid = false → s.inPresent = true → 1 ≤ s.inLen.toNat → s.inLen.toNat ≤ s.cfg.inCap →
    exec i s = .next t → t.ok = true → s.inLen.toNat ≤ s.cfg.outCap → t.outLen.toNat ≤ s.cfg.inCap →
    u.cfg = s.cfg → u.fault = 0 → u.outValid = false → u.inPresent = true → u.inLen = t.outLen →
    (∀ a, a < t.outLen.toNat → u.ibufAt a = t.obufAt a) → ∃ v,
      exec j u = .next v ∧ u.success v s.input s.cfg.methodTag

/-- R225 (a), (b), (c): R223's verdict rejects, and DECODE and DECOMPRESS fail on, an encoded buffer whose byte 0 is another tag,
with UnknownMethod; every proper non-empty prefix of an encoded buffer, inside the header with MalformedHeader and after it with
MalformedBody; and an encoded buffer with bytes appended, with MalformedBody. Each failure reports the leading byte as the tag
and writes no byte. (The empty prefix, and an `IN_LEN` above `IN_CAP`, are the InvalidInput of R261.) -/
def Obligations.TruncatedAndExtendedBuffersAreRejected : Prop :=
  ∀ (c : Config) (x : List Byte), x ≠ [] → x.length < 2 ^ 64 →
    (∀ tag, tag ≠ c.methodTag →
      Wire.verdict c (tag :: (Wire.enc c x).drop 1) = .error .unknownMethod ∧
      decodeFails c (tag :: (Wire.enc c x).drop 1) .unknownMethod) ∧
    (∀ k, 1 ≤ k → k < 11 + 2 * (Wire.distinct x).length →
      Wire.verdict c ((Wire.enc c x).take k) = .error .malformedHeader ∧
      decodeFails c ((Wire.enc c x).take k) .malformedHeader) ∧
    (∀ k, 11 + 2 * (Wire.distinct x).length ≤ k → k < (Wire.enc c x).length →
      Wire.verdict c ((Wire.enc c x).take k) = .error .malformedBody ∧
      decodeFails c ((Wire.enc c x).take k) .malformedBody) ∧
    (∀ more, more ≠ [] →
      Wire.verdict c (Wire.enc c x ++ more) = .error .malformedBody ∧
      decodeFails c (Wire.enc c x ++ more) .malformedBody)

/-- R28, R261: with OBUF free, each macro operation on an input descriptor that is not acceptable fails with InvalidInput and no
tag, and writes no byte. -/
def Obligations.MacrosRejectUnacceptableInput : Prop :=
  ∀ (i : Instr) (s : State), isMacro i = true → s.fault = 0 → s.outValid = false →
    ¬ (s.inPresent = true ∧ 1 ≤ s.inLen.toNat ∧ s.inLen.toNat ≤ s.cfg.inCap) → ∃ t,
      exec i s = .next t ∧ s.failure t .invalidInput none ∧ t.obuf = s.obuf

/-- R241: COMPRESS with a method other than `METHOD_TAG`, on an acceptable input, fails with UnknownMethod and reports the
method. -/
def Obligations.CompressRejectsUnknownMethods : Prop :=
  ∀ (method : Byte) (s : State), method ≠ s.cfg.methodTag → s.fault = 0 → s.outValid = false →
    s.inPresent = true → 1 ≤ s.inLen.toNat → s.inLen.toNat ≤ s.cfg.inCap →
    encode (.compress method) = BitVec.ofNat 32 (0x60 + 256 * method.toNat) ∧
    ∃ t, exec (.compress method) s = .next t ∧ s.failure t .unknownMethod (some method) ∧ t.obuf = s.obuf

/-- R241, R242: COMPRESS with the method `METHOD_TAG` is ENCODE, and DECOMPRESS is DECODE, in every state: the same outcome on
the same input. -/
def Obligations.DispatchAgreesWithTheInnerOperations : Prop :=
  ∀ s : State, exec (.compress s.cfg.methodTag) s = exec .encode s ∧ exec .decompress s = exec .decode s

/-- R247, R200 (d), R226: the only fault a macro operation of an instance with capacities in range (R10, R26, a part of `Inv`) can
raise is OWNERSHIP, while the host owns OBUF, and then it changes nothing but FAULT. -/
def Obligations.MacrosFaultOnlyForOwnership : Prop :=
  ∀ (i : Instr) (s t : State), isMacro i = true → s.cfg.wf → s.fault = 0 → exec i s = .next t →
    (s.outValid = true → t = { s with fault := 0x20 }) ∧ (s.outValid = false → t.fault = 0)

/-- R35, R248: every macro operation that OBUF is free for, on an instance with capacities in range (R10, R26, a part of `Inv`), ends with T, W, R and S at their reset values, on success and on
failure, and leaves the general registers, the input and its descriptor alone. -/
def Obligations.MacrosLeaveTheUnitsAtReset : Prop :=
  ∀ (i : Instr) (s t : State), isMacro i = true → s.cfg.wf → s.fault = 0 → s.outValid = false → exec i s = .next t →
    t.unitsReset ∧ s.macroFrame t ∧ t.flag = false ∧ (t.outValid = t.ok)

/-! ## System commands and resets -/

/-- R249: RELEASE gives the buffer back, or faults when there is none; TAG, `TAG_VALID`, ERR, OBUF and the units stay. -/
def Obligations.ReleaseReturnsTheBuffer : Prop :=
  encode .release = 0x00000002 ∧
  ∀ s : State, s.fault = 0 →
    (s.outValid = false → exec .release s = .next { s with fault := 0x20 }) ∧
    (s.outValid = true → exec .release s = .next { s with outValid := false, outLen := 0, ok := true, flag := false })

/-- R250, R291: SRESET, in every state, a faulted one too, puts every register and unit at its reset value, and changes neither
memory; a word with its opcode and any other field set is not SRESET. (What it leaves of `T.val`, `T.ord` and `R.la` is
unspecified.) -/
def Obligations.SresetRestoresTheResetState : Prop :=
  encode .sreset = 0x00000001 ∧ (∀ w : CmdWord, fieldOp w = 0x01 → w ≠ 0x00000001 → ∃ e, decode w = .error e) ∧
  ∀ s : State, ∃ t, exec .sreset s = .next t ∧
    t.x0 = 0 ∧ t.x1 = 0 ∧ t.x2 = 0 ∧ t.x3 = 0 ∧ t.statusWord = 0 ∧ t.err = .noError ∧ t.fault = 0 ∧
    t.inPresent = false ∧ t.inLen = 0 ∧ t.outLen = 0 ∧ t.tag = 0 ∧ t.unitsReset ∧
    t.ibuf = s.ibuf ∧ t.obuf = s.obuf ∧ t.ibufEpoch = s.ibufEpoch ∧ t.obufEpoch = s.obufEpoch ∧ t.cfg = s.cfg ∧
    t.hostData = s.hostData ∧ t.pending = s.pending

/-- R290, R291: the hardware reset event leaves the state SRESET leaves, but that nothing is known of either memory. -/
def Obligations.HardwareResetForgetsTheMemories : Prop :=
  ∀ (s : State) (rest : List HostAction), s.pending = .hardReset :: rest → ∃ t, step s = .next t ∧
    t.x0 = 0 ∧ t.x1 = 0 ∧ t.x2 = 0 ∧ t.x3 = 0 ∧ t.statusWord = 0 ∧ t.err = .noError ∧ t.fault = 0 ∧
    t.inPresent = false ∧ t.inLen = 0 ∧ t.outLen = 0 ∧ t.tag = 0 ∧ t.unitsReset ∧
    (∀ a, t.ibuf.read? a = none ∧ t.obuf.read? a = none) ∧ t.cfg = s.cfg ∧ t.pending = rest

/-- R44, R291: the reset state, for every element the spec gives a value. -/
def Obligations.ResetStateFollowsTheTable : Prop :=
  State.reset.x0 = 0 ∧ State.reset.x1 = 0 ∧ State.reset.x2 = 0 ∧ State.reset.x3 = 0 ∧ State.reset.statusWord = 0 ∧
  State.reset.err = .noError ∧ State.reset.fault = 0 ∧ State.reset.inPresent = false ∧ State.reset.inLen = 0 ∧
  State.reset.outLen = 0 ∧ State.reset.tag = 0 ∧ State.reset.unitsReset ∧
  ∀ a, State.reset.ibuf.read? a = none ∧ State.reset.obuf.read? a = none

/-! ## The host's side -/

/-- R23, R26, R260: what each register reads as, with the code of each error kind, and which writes have an effect. (That a write
carries 64 bits, of which CTRL takes bit 0, is the model's choice: assumption log 8. That the writes take effect in a faulted
block too is read from the spec by inference: assumption log 9.) -/
def Obligations.HostRegisterFileFollowsTheTable : Prop :=
  (∀ s : State,
    s.register 0 = s.x0 ∧ s.register 1 = s.x1 ∧ s.register 2 = s.x2 ∧ s.register 3 = s.x3 ∧ s.register 4 = 0 ∧
    (s.register 5).toNat = s.ok.toNat + 2 * s.flag.toNat + 4 * s.outValid.toNat + 8 * s.tagValid.toNat
      + 16 * (decide (s.fault ≠ 0)).toNat ∧
    (s.register 6).toNat =
      (match s.err with
      | .noError => 0
      | .invalidInput => 1
      | .allocationFailure => 2
      | .unknownMethod => 3
      | .malformedHeader => 4
      | .malformedBody => 5
      | .invalidCode => 6) ∧
    (s.register 7).toNat = s.fault.toNat ∧
    (s.register 8).toNat = s.inPresent.toNat ∧ s.register 9 = s.inLen ∧ s.register 10 = s.outLen ∧
    (s.register 11).toNat = s.tag.toNat ∧
    (s.register 12).toNat = s.cfg.methodTag.toNat + (match s.cfg.byteOrder with | .little => 0 | .big => 256) ∧
    (s.cfg.wf → (s.register 13).toNat = s.cfg.inCap ∧ (s.register 14).toNat = s.cfg.outCap) ∧
    ∀ no, 14 < no → s.register no = 0) ∧
  (∀ (s : State) (no : Nat) (rest : List HostAction), s.pending = .readReg no :: rest →
    step s = .next { s with pending := rest, hostData := s.register no }) ∧
  (∀ (s : State) (v : Word) (rest : List HostAction) (no : Nat), s.pending = .writeReg no v :: rest → no ≠ 4 →
    step s = .next
      { s with
        pending := rest
        x0 := if no = 0 then v else s.x0
        x1 := if no = 1 then v else s.x1
        inPresent := if no = 8 then v.getLsbD 0 else s.inPresent
        inLen := if no = 9 then v else s.inLen })

/-- R64: a host write of `IBUF[a]` below `IN_CAP` stores the byte there and changes no other byte, and a read gives back what
the host wrote; at or above `IN_CAP` a write has no effect, and a read ends with an unspecified value. -/
def Obligations.HostAccessesToIbuf : Prop :=
  (∀ (s : State) (a : Nat) (b : Byte) (rest : List HostAction), s.pending = .writeIbuf a b :: rest →
    (a < s.cfg.inCap → ∃ t, step s = .next t ∧ t = { s with pending := rest, ibuf := t.ibuf } ∧ t.ibufAt a = b ∧
      ∀ k, k ≠ a → t.ibuf.read? k = s.ibuf.read? k) ∧
    (s.cfg.inCap ≤ a → step s = .next { s with pending := rest })) ∧
  (∀ (s : State) (a : Nat) (rest : List HostAction), s.pending = .readIbuf a :: rest → a < s.cfg.inCap →
    step s = .next { s with pending := rest, hostData := (s.ibufAt a).setWidth 64 }) ∧
  (∀ (s : State) (a : Nat) (rest : List HostAction), s.pending = .readIbuf a :: rest → s.cfg.inCap ≤ a → ∃ t,
    step s = .next t ∧ t = { s with pending := rest, hostData := t.hostData, draws := t.draws })

/-- R65, R306: a host read of OBUF is defined exactly while the host owns it and below `OUT_LEN`, and then gives the byte stored;
in every other case the read still ends, and changes nothing but what the host sees and the model's count of free values. -/
def Obligations.HostReadsOfObuf : Prop :=
  ∀ (s : State) (a : Nat) (rest : List HostAction), s.pending = .readObuf a :: rest →
    (s.outValid = true → a < s.outLen.toNat → s.hostObuf? a = some (s.obufAt a) ∧
      step s = .next { s with pending := rest, hostData := (s.obufAt a).setWidth 64 }) ∧
    (s.outValid = false ∨ s.outLen.toNat ≤ a → s.hostObuf? a = none ∧
      ∃ t, step s = .next t ∧ t = { s with pending := rest, hostData := t.hostData, draws := t.draws })

/-! ## The machine as a whole -/

/-- R21, R40, R61: no command writes IBUF, the parameters or the host's side, and none but SRESET writes `x[0]`, `x[1]`, IN_LEN or
CTRL. -/
def Obligations.CommandsNeverWriteTheInput : Prop :=
  ∀ (i : Instr) (s t : State), exec i s = .next t →
    t.ibuf = s.ibuf ∧ t.ibufEpoch = s.ibufEpoch ∧ t.cfg = s.cfg ∧ t.hostData = s.hostData ∧ t.pending = s.pending ∧
    (i ≠ .sreset → t.x0 = s.x0 ∧ t.x1 = s.x1 ∧ t.inLen = s.inLen ∧ t.inPresent = s.inPresent)

/-- R246, D39: ERR, TAG and `TAG_VALID` are written by macro operations and SRESET only. -/
def Obligations.OnlyMacrosWriteTheRecord : Prop :=
  ∀ (i : Instr) (s t : State), isMacro i = false → i ≠ .sreset → exec i s = .next t →
    t.err = s.err ∧ t.tag = s.tag ∧ t.tagValid = s.tagValid

/-- R25, R244: while the host owns a buffer, no command but RELEASE and SRESET changes a byte of OBUF, `OUT_LEN`, TAG,
`TAG_VALID` or ERR, or takes the buffer away. -/
def Obligations.OwnedBufferIsNotMutated : Prop :=
  ∀ (i : Instr) (s t : State), Inv s → s.outValid = true → i ≠ .release → i ≠ .sreset → exec i s = .next t →
    t.outValid = true ∧ t.outLen = s.outLen ∧ t.obuf = s.obuf ∧ t.obufEpoch = s.obufEpoch ∧ t.tag = s.tag ∧
    t.tagValid = s.tagValid ∧ t.err = s.err

/-- R30, R31, R32, R44: the reset state meets the invariant. (Of the elements log entry 1 gives a value, the invariant
constrains none.) -/
def Obligations.InvariantHoldsAtReset : Prop := Inv State.reset

/-- R22, R26, R30, R31, R32, R271: every step from a state that meets the invariant leads to one that meets it. -/
def Obligations.EveryStepKeepsTheInvariant : Prop :=
  ∀ s t : State, Inv s → step s = .next t → Inv t

/-- R17, R20: nothing in NBC is stuck: from a state that meets the invariant every step gives a next state, so the model's own
stops are never reached. -/
def Obligations.NoStepStopsUnderTheInvariant : Prop :=
  ∀ s : State, Inv s → ∃ t, step s = .next t

/-- R66: the two byte orders, byte by byte, and that decoding undoes encoding under either. -/
def Obligations.ByteOrdersFollowTheFormulas : Prop :=
  (∀ v : BitVec 16, encBytes .little 2 v.toNat = [v.extractLsb' 0 8, v.extractLsb' 8 8] ∧
    encBytes .big 2 v.toNat = [v.extractLsb' 8 8, v.extractLsb' 0 8]) ∧
  (∀ v : Word,
    encBytes .little 8 v.toNat =
      [v.extractLsb' 0 8, v.extractLsb' 8 8, v.extractLsb' 16 8, v.extractLsb' 24 8, v.extractLsb' 32 8,
       v.extractLsb' 40 8, v.extractLsb' 48 8, v.extractLsb' 56 8] ∧
    encBytes .big 8 v.toNat = (encBytes .little 8 v.toNat).reverse) ∧
  (∀ b0 b1 : Byte, decBytes .little [b0, b1] = b0.toNat + 256 * b1.toNat ∧
    decBytes .big [b0, b1] = b1.toNat + 256 * b0.toNat) ∧
  (∀ s : List Byte, s.length = 8 →
    decBytes .little s = ((List.range 8).map fun k => (s.getD k 0).toNat * 256 ^ k).sum ∧
    decBytes .big s = ((List.range 8).map fun k => (s.getD (7 - k) 0).toNat * 256 ^ k).sum) ∧
  (∀ (order : ByteOrder) (n v : Nat), v < 256 ^ n → decBytes order (encBytes order n v) = v)
end

