-- ==== Sys2Proof/Laws/State.lean ====
section
/-! SUPPORT. What each named update of the state does to each field: one lemma per field per update, true by `rfl`. -/

namespace Sys2Proof.Machine

/-! ### `setStatus` -/

@[simp] theorem setStatus_x0 (s : State) (a b : Bool) : (s.setStatus a b).x0 = s.x0 := rfl
@[simp] theorem setStatus_x1 (s : State) (a b : Bool) : (s.setStatus a b).x1 = s.x1 := rfl
@[simp] theorem setStatus_x2 (s : State) (a b : Bool) : (s.setStatus a b).x2 = s.x2 := rfl
@[simp] theorem setStatus_x3 (s : State) (a b : Bool) : (s.setStatus a b).x3 = s.x3 := rfl
@[simp] theorem setStatus_ok (s : State) (a b : Bool) : (s.setStatus a b).ok = a := rfl
@[simp] theorem setStatus_flag (s : State) (a b : Bool) : (s.setStatus a b).flag = b := rfl
@[simp] theorem setStatus_outValid (s : State) (a b : Bool) : (s.setStatus a b).outValid = s.outValid := rfl
@[simp] theorem setStatus_tagValid (s : State) (a b : Bool) : (s.setStatus a b).tagValid = s.tagValid := rfl
@[simp] theorem setStatus_err (s : State) (a b : Bool) : (s.setStatus a b).err = s.err := rfl
@[simp] theorem setStatus_fault (s : State) (a b : Bool) : (s.setStatus a b).fault = s.fault := rfl
@[simp] theorem setStatus_inPresent (s : State) (a b : Bool) : (s.setStatus a b).inPresent = s.inPresent := rfl
@[simp] theorem setStatus_inLen (s : State) (a b : Bool) : (s.setStatus a b).inLen = s.inLen := rfl
@[simp] theorem setStatus_outLen (s : State) (a b : Bool) : (s.setStatus a b).outLen = s.outLen := rfl
@[simp] theorem setStatus_tag (s : State) (a b : Bool) : (s.setStatus a b).tag = s.tag := rfl
@[simp] theorem setStatus_t (s : State) (a b : Bool) : (s.setStatus a b).t = s.t := rfl
@[simp] theorem setStatus_w (s : State) (a b : Bool) : (s.setStatus a b).w = s.w := rfl
@[simp] theorem setStatus_r (s : State) (a b : Bool) : (s.setStatus a b).r = s.r := rfl
@[simp] theorem setStatus_seq (s : State) (a b : Bool) : (s.setStatus a b).seq = s.seq := rfl
@[simp] theorem setStatus_ibuf (s : State) (a b : Bool) : (s.setStatus a b).ibuf = s.ibuf := rfl
@[simp] theorem setStatus_obuf (s : State) (a b : Bool) : (s.setStatus a b).obuf = s.obuf := rfl
@[simp] theorem setStatus_cfg (s : State) (a b : Bool) : (s.setStatus a b).cfg = s.cfg := rfl
@[simp] theorem setStatus_ibufEpoch (s : State) (a b : Bool) : (s.setStatus a b).ibufEpoch = s.ibufEpoch := rfl
@[simp] theorem setStatus_obufEpoch (s : State) (a b : Bool) : (s.setStatus a b).obufEpoch = s.obufEpoch := rfl
@[simp] theorem setStatus_draws (s : State) (a b : Bool) : (s.setStatus a b).draws = s.draws := rfl
@[simp] theorem setStatus_hostData (s : State) (a b : Bool) : (s.setStatus a b).hostData = s.hostData := rfl
@[simp] theorem setStatus_pending (s : State) (a b : Bool) : (s.setStatus a b).pending = s.pending := rfl

/-! ### `complete` -/

@[simp] theorem complete_x0 (s : State) (b : Bool) : (complete b s).x0 = s.x0 := rfl
@[simp] theorem complete_x1 (s : State) (b : Bool) : (complete b s).x1 = s.x1 := rfl
@[simp] theorem complete_x2 (s : State) (b : Bool) : (complete b s).x2 = s.x2 := rfl
@[simp] theorem complete_x3 (s : State) (b : Bool) : (complete b s).x3 = s.x3 := rfl
@[simp] theorem complete_ok (s : State) (b : Bool) : (complete b s).ok = true := rfl
@[simp] theorem complete_flag (s : State) (b : Bool) : (complete b s).flag = b := rfl
@[simp] theorem complete_outValid (s : State) (b : Bool) : (complete b s).outValid = s.outValid := rfl
@[simp] theorem complete_tagValid (s : State) (b : Bool) : (complete b s).tagValid = s.tagValid := rfl
@[simp] theorem complete_err (s : State) (b : Bool) : (complete b s).err = s.err := rfl
@[simp] theorem complete_fault (s : State) (b : Bool) : (complete b s).fault = s.fault := rfl
@[simp] theorem complete_inPresent (s : State) (b : Bool) : (complete b s).inPresent = s.inPresent := rfl
@[simp] theorem complete_inLen (s : State) (b : Bool) : (complete b s).inLen = s.inLen := rfl
@[simp] theorem complete_outLen (s : State) (b : Bool) : (complete b s).outLen = s.outLen := rfl
@[simp] theorem complete_tag (s : State) (b : Bool) : (complete b s).tag = s.tag := rfl
@[simp] theorem complete_t (s : State) (b : Bool) : (complete b s).t = s.t := rfl
@[simp] theorem complete_w (s : State) (b : Bool) : (complete b s).w = s.w := rfl
@[simp] theorem complete_r (s : State) (b : Bool) : (complete b s).r = s.r := rfl
@[simp] theorem complete_seq (s : State) (b : Bool) : (complete b s).seq = s.seq := rfl
@[simp] theorem complete_ibuf (s : State) (b : Bool) : (complete b s).ibuf = s.ibuf := rfl
@[simp] theorem complete_obuf (s : State) (b : Bool) : (complete b s).obuf = s.obuf := rfl
@[simp] theorem complete_cfg (s : State) (b : Bool) : (complete b s).cfg = s.cfg := rfl
@[simp] theorem complete_ibufEpoch (s : State) (b : Bool) : (complete b s).ibufEpoch = s.ibufEpoch := rfl
@[simp] theorem complete_obufEpoch (s : State) (b : Bool) : (complete b s).obufEpoch = s.obufEpoch := rfl
@[simp] theorem complete_draws (s : State) (b : Bool) : (complete b s).draws = s.draws := rfl
@[simp] theorem complete_hostData (s : State) (b : Bool) : (complete b s).hostData = s.hostData := rfl
@[simp] theorem complete_pending (s : State) (b : Bool) : (complete b s).pending = s.pending := rfl

/-! ### `setRes0` -/

@[simp] theorem setRes0_x0 (s : State) (v : Word) : (s.setRes0 v).x0 = s.x0 := rfl
@[simp] theorem setRes0_x1 (s : State) (v : Word) : (s.setRes0 v).x1 = s.x1 := rfl
@[simp] theorem setRes0_x2 (s : State) (v : Word) : (s.setRes0 v).x2 = v := rfl
@[simp] theorem setRes0_x3 (s : State) (v : Word) : (s.setRes0 v).x3 = s.x3 := rfl
@[simp] theorem setRes0_ok (s : State) (v : Word) : (s.setRes0 v).ok = s.ok := rfl
@[simp] theorem setRes0_flag (s : State) (v : Word) : (s.setRes0 v).flag = s.flag := rfl
@[simp] theorem setRes0_outValid (s : State) (v : Word) : (s.setRes0 v).outValid = s.outValid := rfl
@[simp] theorem setRes0_tagValid (s : State) (v : Word) : (s.setRes0 v).tagValid = s.tagValid := rfl
@[simp] theorem setRes0_err (s : State) (v : Word) : (s.setRes0 v).err = s.err := rfl
@[simp] theorem setRes0_fault (s : State) (v : Word) : (s.setRes0 v).fault = s.fault := rfl
@[simp] theorem setRes0_inPresent (s : State) (v : Word) : (s.setRes0 v).inPresent = s.inPresent := rfl
@[simp] theorem setRes0_inLen (s : State) (v : Word) : (s.setRes0 v).inLen = s.inLen := rfl
@[simp] theorem setRes0_outLen (s : State) (v : Word) : (s.setRes0 v).outLen = s.outLen := rfl
@[simp] theorem setRes0_tag (s : State) (v : Word) : (s.setRes0 v).tag = s.tag := rfl
@[simp] theorem setRes0_t (s : State) (v : Word) : (s.setRes0 v).t = s.t := rfl
@[simp] theorem setRes0_w (s : State) (v : Word) : (s.setRes0 v).w = s.w := rfl
@[simp] theorem setRes0_r (s : State) (v : Word) : (s.setRes0 v).r = s.r := rfl
@[simp] theorem setRes0_seq (s : State) (v : Word) : (s.setRes0 v).seq = s.seq := rfl
@[simp] theorem setRes0_ibuf (s : State) (v : Word) : (s.setRes0 v).ibuf = s.ibuf := rfl
@[simp] theorem setRes0_obuf (s : State) (v : Word) : (s.setRes0 v).obuf = s.obuf := rfl
@[simp] theorem setRes0_cfg (s : State) (v : Word) : (s.setRes0 v).cfg = s.cfg := rfl
@[simp] theorem setRes0_ibufEpoch (s : State) (v : Word) : (s.setRes0 v).ibufEpoch = s.ibufEpoch := rfl
@[simp] theorem setRes0_obufEpoch (s : State) (v : Word) : (s.setRes0 v).obufEpoch = s.obufEpoch := rfl
@[simp] theorem setRes0_draws (s : State) (v : Word) : (s.setRes0 v).draws = s.draws := rfl
@[simp] theorem setRes0_hostData (s : State) (v : Word) : (s.setRes0 v).hostData = s.hostData := rfl
@[simp] theorem setRes0_pending (s : State) (v : Word) : (s.setRes0 v).pending = s.pending := rfl

/-! ### `setRes1` -/

@[simp] theorem setRes1_x0 (s : State) (v : Word) : (s.setRes1 v).x0 = s.x0 := rfl
@[simp] theorem setRes1_x1 (s : State) (v : Word) : (s.setRes1 v).x1 = s.x1 := rfl
@[simp] theorem setRes1_x2 (s : State) (v : Word) : (s.setRes1 v).x2 = s.x2 := rfl
@[simp] theorem setRes1_x3 (s : State) (v : Word) : (s.setRes1 v).x3 = v := rfl
@[simp] theorem setRes1_ok (s : State) (v : Word) : (s.setRes1 v).ok = s.ok := rfl
@[simp] theorem setRes1_flag (s : State) (v : Word) : (s.setRes1 v).flag = s.flag := rfl
@[simp] theorem setRes1_outValid (s : State) (v : Word) : (s.setRes1 v).outValid = s.outValid := rfl
@[simp] theorem setRes1_tagValid (s : State) (v : Word) : (s.setRes1 v).tagValid = s.tagValid := rfl
@[simp] theorem setRes1_err (s : State) (v : Word) : (s.setRes1 v).err = s.err := rfl
@[simp] theorem setRes1_fault (s : State) (v : Word) : (s.setRes1 v).fault = s.fault := rfl
@[simp] theorem setRes1_inPresent (s : State) (v : Word) : (s.setRes1 v).inPresent = s.inPresent := rfl
@[simp] theorem setRes1_inLen (s : State) (v : Word) : (s.setRes1 v).inLen = s.inLen := rfl
@[simp] theorem setRes1_outLen (s : State) (v : Word) : (s.setRes1 v).outLen = s.outLen := rfl
@[simp] theorem setRes1_tag (s : State) (v : Word) : (s.setRes1 v).tag = s.tag := rfl
@[simp] theorem setRes1_t (s : State) (v : Word) : (s.setRes1 v).t = s.t := rfl
@[simp] theorem setRes1_w (s : State) (v : Word) : (s.setRes1 v).w = s.w := rfl
@[simp] theorem setRes1_r (s : State) (v : Word) : (s.setRes1 v).r = s.r := rfl
@[simp] theorem setRes1_seq (s : State) (v : Word) : (s.setRes1 v).seq = s.seq := rfl
@[simp] theorem setRes1_ibuf (s : State) (v : Word) : (s.setRes1 v).ibuf = s.ibuf := rfl
@[simp] theorem setRes1_obuf (s : State) (v : Word) : (s.setRes1 v).obuf = s.obuf := rfl
@[simp] theorem setRes1_cfg (s : State) (v : Word) : (s.setRes1 v).cfg = s.cfg := rfl
@[simp] theorem setRes1_ibufEpoch (s : State) (v : Word) : (s.setRes1 v).ibufEpoch = s.ibufEpoch := rfl
@[simp] theorem setRes1_obufEpoch (s : State) (v : Word) : (s.setRes1 v).obufEpoch = s.obufEpoch := rfl
@[simp] theorem setRes1_draws (s : State) (v : Word) : (s.setRes1 v).draws = s.draws := rfl
@[simp] theorem setRes1_hostData (s : State) (v : Word) : (s.setRes1 v).hostData = s.hostData := rfl
@[simp] theorem setRes1_pending (s : State) (v : Word) : (s.setRes1 v).pending = s.pending := rfl

/-! ### `setTable` -/

@[simp] theorem setTable_x0 (s : State) (t : TableUnit) : (s.setTable t).x0 = s.x0 := rfl
@[simp] theorem setTable_x1 (s : State) (t : TableUnit) : (s.setTable t).x1 = s.x1 := rfl
@[simp] theorem setTable_x2 (s : State) (t : TableUnit) : (s.setTable t).x2 = s.x2 := rfl
@[simp] theorem setTable_x3 (s : State) (t : TableUnit) : (s.setTable t).x3 = s.x3 := rfl
@[simp] theorem setTable_ok (s : State) (t : TableUnit) : (s.setTable t).ok = s.ok := rfl
@[simp] theorem setTable_flag (s : State) (t : TableUnit) : (s.setTable t).flag = s.flag := rfl
@[simp] theorem setTable_outValid (s : State) (t : TableUnit) : (s.setTable t).outValid = s.outValid := rfl
@[simp] theorem setTable_tagValid (s : State) (t : TableUnit) : (s.setTable t).tagValid = s.tagValid := rfl
@[simp] theorem setTable_err (s : State) (t : TableUnit) : (s.setTable t).err = s.err := rfl
@[simp] theorem setTable_fault (s : State) (t : TableUnit) : (s.setTable t).fault = s.fault := rfl
@[simp] theorem setTable_inPresent (s : State) (t : TableUnit) : (s.setTable t).inPresent = s.inPresent := rfl
@[simp] theorem setTable_inLen (s : State) (t : TableUnit) : (s.setTable t).inLen = s.inLen := rfl
@[simp] theorem setTable_outLen (s : State) (t : TableUnit) : (s.setTable t).outLen = s.outLen := rfl
@[simp] theorem setTable_tag (s : State) (t : TableUnit) : (s.setTable t).tag = s.tag := rfl
@[simp] theorem setTable_t (s : State) (t : TableUnit) : (s.setTable t).t = t := rfl
@[simp] theorem setTable_w (s : State) (t : TableUnit) : (s.setTable t).w = s.w := rfl
@[simp] theorem setTable_r (s : State) (t : TableUnit) : (s.setTable t).r = s.r := rfl
@[simp] theorem setTable_seq (s : State) (t : TableUnit) : (s.setTable t).seq = s.seq := rfl
@[simp] theorem setTable_ibuf (s : State) (t : TableUnit) : (s.setTable t).ibuf = s.ibuf := rfl
@[simp] theorem setTable_obuf (s : State) (t : TableUnit) : (s.setTable t).obuf = s.obuf := rfl
@[simp] theorem setTable_cfg (s : State) (t : TableUnit) : (s.setTable t).cfg = s.cfg := rfl
@[simp] theorem setTable_ibufEpoch (s : State) (t : TableUnit) : (s.setTable t).ibufEpoch = s.ibufEpoch := rfl
@[simp] theorem setTable_obufEpoch (s : State) (t : TableUnit) : (s.setTable t).obufEpoch = s.obufEpoch := rfl
@[simp] theorem setTable_draws (s : State) (t : TableUnit) : (s.setTable t).draws = s.draws := rfl
@[simp] theorem setTable_hostData (s : State) (t : TableUnit) : (s.setTable t).hostData = s.hostData := rfl
@[simp] theorem setTable_pending (s : State) (t : TableUnit) : (s.setTable t).pending = s.pending := rfl

/-! ### `setWriter` -/

@[simp] theorem setWriter_x0 (s : State) (w : WriterUnit) : (s.setWriter w).x0 = s.x0 := rfl
@[simp] theorem setWriter_x1 (s : State) (w : WriterUnit) : (s.setWriter w).x1 = s.x1 := rfl
@[simp] theorem setWriter_x2 (s : State) (w : WriterUnit) : (s.setWriter w).x2 = s.x2 := rfl
@[simp] theorem setWriter_x3 (s : State) (w : WriterUnit) : (s.setWriter w).x3 = s.x3 := rfl
@[simp] theorem setWriter_ok (s : State) (w : WriterUnit) : (s.setWriter w).ok = s.ok := rfl
@[simp] theorem setWriter_flag (s : State) (w : WriterUnit) : (s.setWriter w).flag = s.flag := rfl
@[simp] theorem setWriter_outValid (s : State) (w : WriterUnit) : (s.setWriter w).outValid = s.outValid := rfl
@[simp] theorem setWriter_tagValid (s : State) (w : WriterUnit) : (s.setWriter w).tagValid = s.tagValid := rfl
@[simp] theorem setWriter_err (s : State) (w : WriterUnit) : (s.setWriter w).err = s.err := rfl
@[simp] theorem setWriter_fault (s : State) (w : WriterUnit) : (s.setWriter w).fault = s.fault := rfl
@[simp] theorem setWriter_inPresent (s : State) (w : WriterUnit) : (s.setWriter w).inPresent = s.inPresent := rfl
@[simp] theorem setWriter_inLen (s : State) (w : WriterUnit) : (s.setWriter w).inLen = s.inLen := rfl
@[simp] theorem setWriter_outLen (s : State) (w : WriterUnit) : (s.setWriter w).outLen = s.outLen := rfl
@[simp] theorem setWriter_tag (s : State) (w : WriterUnit) : (s.setWriter w).tag = s.tag := rfl
@[simp] theorem setWriter_t (s : State) (w : WriterUnit) : (s.setWriter w).t = s.t := rfl
@[simp] theorem setWriter_w (s : State) (w : WriterUnit) : (s.setWriter w).w = w := rfl
@[simp] theorem setWriter_r (s : State) (w : WriterUnit) : (s.setWriter w).r = s.r := rfl
@[simp] theorem setWriter_seq (s : State) (w : WriterUnit) : (s.setWriter w).seq = s.seq := rfl
@[simp] theorem setWriter_ibuf (s : State) (w : WriterUnit) : (s.setWriter w).ibuf = s.ibuf := rfl
@[simp] theorem setWriter_obuf (s : State) (w : WriterUnit) : (s.setWriter w).obuf = s.obuf := rfl
@[simp] theorem setWriter_cfg (s : State) (w : WriterUnit) : (s.setWriter w).cfg = s.cfg := rfl
@[simp] theorem setWriter_ibufEpoch (s : State) (w : WriterUnit) : (s.setWriter w).ibufEpoch = s.ibufEpoch := rfl
@[simp] theorem setWriter_obufEpoch (s : State) (w : WriterUnit) : (s.setWriter w).obufEpoch = s.obufEpoch := rfl
@[simp] theorem setWriter_draws (s : State) (w : WriterUnit) : (s.setWriter w).draws = s.draws := rfl
@[simp] theorem setWriter_hostData (s : State) (w : WriterUnit) : (s.setWriter w).hostData = s.hostData := rfl
@[simp] theorem setWriter_pending (s : State) (w : WriterUnit) : (s.setWriter w).pending = s.pending := rfl

/-! ### `setReader` -/

@[simp] theorem setReader_x0 (s : State) (r : ReaderUnit) : (s.setReader r).x0 = s.x0 := rfl
@[simp] theorem setReader_x1 (s : State) (r : ReaderUnit) : (s.setReader r).x1 = s.x1 := rfl
@[simp] theorem setReader_x2 (s : State) (r : ReaderUnit) : (s.setReader r).x2 = s.x2 := rfl
@[simp] theorem setReader_x3 (s : State) (r : ReaderUnit) : (s.setReader r).x3 = s.x3 := rfl
@[simp] theorem setReader_ok (s : State) (r : ReaderUnit) : (s.setReader r).ok = s.ok := rfl
@[simp] theorem setReader_flag (s : State) (r : ReaderUnit) : (s.setReader r).flag = s.flag := rfl
@[simp] theorem setReader_outValid (s : State) (r : ReaderUnit) : (s.setReader r).outValid = s.outValid := rfl
@[simp] theorem setReader_tagValid (s : State) (r : ReaderUnit) : (s.setReader r).tagValid = s.tagValid := rfl
@[simp] theorem setReader_err (s : State) (r : ReaderUnit) : (s.setReader r).err = s.err := rfl
@[simp] theorem setReader_fault (s : State) (r : ReaderUnit) : (s.setReader r).fault = s.fault := rfl
@[simp] theorem setReader_inPresent (s : State) (r : ReaderUnit) : (s.setReader r).inPresent = s.inPresent := rfl
@[simp] theorem setReader_inLen (s : State) (r : ReaderUnit) : (s.setReader r).inLen = s.inLen := rfl
@[simp] theorem setReader_outLen (s : State) (r : ReaderUnit) : (s.setReader r).outLen = s.outLen := rfl
@[simp] theorem setReader_tag (s : State) (r : ReaderUnit) : (s.setReader r).tag = s.tag := rfl
@[simp] theorem setReader_t (s : State) (r : ReaderUnit) : (s.setReader r).t = s.t := rfl
@[simp] theorem setReader_w (s : State) (r : ReaderUnit) : (s.setReader r).w = s.w := rfl
@[simp] theorem setReader_r (s : State) (r : ReaderUnit) : (s.setReader r).r = r := rfl
@[simp] theorem setReader_seq (s : State) (r : ReaderUnit) : (s.setReader r).seq = s.seq := rfl
@[simp] theorem setReader_ibuf (s : State) (r : ReaderUnit) : (s.setReader r).ibuf = s.ibuf := rfl
@[simp] theorem setReader_obuf (s : State) (r : ReaderUnit) : (s.setReader r).obuf = s.obuf := rfl
@[simp] theorem setReader_cfg (s : State) (r : ReaderUnit) : (s.setReader r).cfg = s.cfg := rfl
@[simp] theorem setReader_ibufEpoch (s : State) (r : ReaderUnit) : (s.setReader r).ibufEpoch = s.ibufEpoch := rfl
@[simp] theorem setReader_obufEpoch (s : State) (r : ReaderUnit) : (s.setReader r).obufEpoch = s.obufEpoch := rfl
@[simp] theorem setReader_draws (s : State) (r : ReaderUnit) : (s.setReader r).draws = s.draws := rfl
@[simp] theorem setReader_hostData (s : State) (r : ReaderUnit) : (s.setReader r).hostData = s.hostData := rfl
@[simp] theorem setReader_pending (s : State) (r : ReaderUnit) : (s.setReader r).pending = s.pending := rfl

/-! ### `setSeq` -/

@[simp] theorem setSeq_x0 (s : State) (q : Sequencer) : (s.setSeq q).x0 = s.x0 := rfl
@[simp] theorem setSeq_x1 (s : State) (q : Sequencer) : (s.setSeq q).x1 = s.x1 := rfl
@[simp] theorem setSeq_x2 (s : State) (q : Sequencer) : (s.setSeq q).x2 = s.x2 := rfl
@[simp] theorem setSeq_x3 (s : State) (q : Sequencer) : (s.setSeq q).x3 = s.x3 := rfl
@[simp] theorem setSeq_ok (s : State) (q : Sequencer) : (s.setSeq q).ok = s.ok := rfl
@[simp] theorem setSeq_flag (s : State) (q : Sequencer) : (s.setSeq q).flag = s.flag := rfl
@[simp] theorem setSeq_outValid (s : State) (q : Sequencer) : (s.setSeq q).outValid = s.outValid := rfl
@[simp] theorem setSeq_tagValid (s : State) (q : Sequencer) : (s.setSeq q).tagValid = s.tagValid := rfl
@[simp] theorem setSeq_err (s : State) (q : Sequencer) : (s.setSeq q).err = s.err := rfl
@[simp] theorem setSeq_fault (s : State) (q : Sequencer) : (s.setSeq q).fault = s.fault := rfl
@[simp] theorem setSeq_inPresent (s : State) (q : Sequencer) : (s.setSeq q).inPresent = s.inPresent := rfl
@[simp] theorem setSeq_inLen (s : State) (q : Sequencer) : (s.setSeq q).inLen = s.inLen := rfl
@[simp] theorem setSeq_outLen (s : State) (q : Sequencer) : (s.setSeq q).outLen = s.outLen := rfl
@[simp] theorem setSeq_tag (s : State) (q : Sequencer) : (s.setSeq q).tag = s.tag := rfl
@[simp] theorem setSeq_t (s : State) (q : Sequencer) : (s.setSeq q).t = s.t := rfl
@[simp] theorem setSeq_w (s : State) (q : Sequencer) : (s.setSeq q).w = s.w := rfl
@[simp] theorem setSeq_r (s : State) (q : Sequencer) : (s.setSeq q).r = s.r := rfl
@[simp] theorem setSeq_seq (s : State) (q : Sequencer) : (s.setSeq q).seq = q := rfl
@[simp] theorem setSeq_ibuf (s : State) (q : Sequencer) : (s.setSeq q).ibuf = s.ibuf := rfl
@[simp] theorem setSeq_obuf (s : State) (q : Sequencer) : (s.setSeq q).obuf = s.obuf := rfl
@[simp] theorem setSeq_cfg (s : State) (q : Sequencer) : (s.setSeq q).cfg = s.cfg := rfl
@[simp] theorem setSeq_ibufEpoch (s : State) (q : Sequencer) : (s.setSeq q).ibufEpoch = s.ibufEpoch := rfl
@[simp] theorem setSeq_obufEpoch (s : State) (q : Sequencer) : (s.setSeq q).obufEpoch = s.obufEpoch := rfl
@[simp] theorem setSeq_draws (s : State) (q : Sequencer) : (s.setSeq q).draws = s.draws := rfl
@[simp] theorem setSeq_hostData (s : State) (q : Sequencer) : (s.setSeq q).hostData = s.hostData := rfl
@[simp] theorem setSeq_pending (s : State) (q : Sequencer) : (s.setSeq q).pending = s.pending := rfl

/-! ### `toPhase` -/

@[simp] theorem toPhase_x0 (s : State) (p : Phase) : (s.toPhase p).x0 = s.x0 := rfl
@[simp] theorem toPhase_x1 (s : State) (p : Phase) : (s.toPhase p).x1 = s.x1 := rfl
@[simp] theorem toPhase_x2 (s : State) (p : Phase) : (s.toPhase p).x2 = s.x2 := rfl
@[simp] theorem toPhase_x3 (s : State) (p : Phase) : (s.toPhase p).x3 = s.x3 := rfl
@[simp] theorem toPhase_ok (s : State) (p : Phase) : (s.toPhase p).ok = s.ok := rfl
@[simp] theorem toPhase_flag (s : State) (p : Phase) : (s.toPhase p).flag = s.flag := rfl
@[simp] theorem toPhase_outValid (s : State) (p : Phase) : (s.toPhase p).outValid = s.outValid := rfl
@[simp] theorem toPhase_tagValid (s : State) (p : Phase) : (s.toPhase p).tagValid = s.tagValid := rfl
@[simp] theorem toPhase_err (s : State) (p : Phase) : (s.toPhase p).err = s.err := rfl
@[simp] theorem toPhase_fault (s : State) (p : Phase) : (s.toPhase p).fault = s.fault := rfl
@[simp] theorem toPhase_inPresent (s : State) (p : Phase) : (s.toPhase p).inPresent = s.inPresent := rfl
@[simp] theorem toPhase_inLen (s : State) (p : Phase) : (s.toPhase p).inLen = s.inLen := rfl
@[simp] theorem toPhase_outLen (s : State) (p : Phase) : (s.toPhase p).outLen = s.outLen := rfl
@[simp] theorem toPhase_tag (s : State) (p : Phase) : (s.toPhase p).tag = s.tag := rfl
@[simp] theorem toPhase_t (s : State) (p : Phase) : (s.toPhase p).t = s.t := rfl
@[simp] theorem toPhase_w (s : State) (p : Phase) : (s.toPhase p).w = s.w := rfl
@[simp] theorem toPhase_r (s : State) (p : Phase) : (s.toPhase p).r = s.r := rfl
@[simp] theorem toPhase_seq (s : State) (p : Phase) : (s.toPhase p).seq = { s.seq with phase := p } := rfl
@[simp] theorem toPhase_ibuf (s : State) (p : Phase) : (s.toPhase p).ibuf = s.ibuf := rfl
@[simp] theorem toPhase_obuf (s : State) (p : Phase) : (s.toPhase p).obuf = s.obuf := rfl
@[simp] theorem toPhase_cfg (s : State) (p : Phase) : (s.toPhase p).cfg = s.cfg := rfl
@[simp] theorem toPhase_ibufEpoch (s : State) (p : Phase) : (s.toPhase p).ibufEpoch = s.ibufEpoch := rfl
@[simp] theorem toPhase_obufEpoch (s : State) (p : Phase) : (s.toPhase p).obufEpoch = s.obufEpoch := rfl
@[simp] theorem toPhase_draws (s : State) (p : Phase) : (s.toPhase p).draws = s.draws := rfl
@[simp] theorem toPhase_hostData (s : State) (p : Phase) : (s.toPhase p).hostData = s.hostData := rfl
@[simp] theorem toPhase_pending (s : State) (p : Phase) : (s.toPhase p).pending = s.pending := rfl

/-! ### `setObuf` -/

@[simp] theorem setObuf_x0 (s : State) (m : Memory) : (s.setObuf m).x0 = s.x0 := rfl
@[simp] theorem setObuf_x1 (s : State) (m : Memory) : (s.setObuf m).x1 = s.x1 := rfl
@[simp] theorem setObuf_x2 (s : State) (m : Memory) : (s.setObuf m).x2 = s.x2 := rfl
@[simp] theorem setObuf_x3 (s : State) (m : Memory) : (s.setObuf m).x3 = s.x3 := rfl
@[simp] theorem setObuf_ok (s : State) (m : Memory) : (s.setObuf m).ok = s.ok := rfl
@[simp] theorem setObuf_flag (s : State) (m : Memory) : (s.setObuf m).flag = s.flag := rfl
@[simp] theorem setObuf_outValid (s : State) (m : Memory) : (s.setObuf m).outValid = s.outValid := rfl
@[simp] theorem setObuf_tagValid (s : State) (m : Memory) : (s.setObuf m).tagValid = s.tagValid := rfl
@[simp] theorem setObuf_err (s : State) (m : Memory) : (s.setObuf m).err = s.err := rfl
@[simp] theorem setObuf_fault (s : State) (m : Memory) : (s.setObuf m).fault = s.fault := rfl
@[simp] theorem setObuf_inPresent (s : State) (m : Memory) : (s.setObuf m).inPresent = s.inPresent := rfl
@[simp] theorem setObuf_inLen (s : State) (m : Memory) : (s.setObuf m).inLen = s.inLen := rfl
@[simp] theorem setObuf_outLen (s : State) (m : Memory) : (s.setObuf m).outLen = s.outLen := rfl
@[simp] theorem setObuf_tag (s : State) (m : Memory) : (s.setObuf m).tag = s.tag := rfl
@[simp] theorem setObuf_t (s : State) (m : Memory) : (s.setObuf m).t = s.t := rfl
@[simp] theorem setObuf_w (s : State) (m : Memory) : (s.setObuf m).w = s.w := rfl
@[simp] theorem setObuf_r (s : State) (m : Memory) : (s.setObuf m).r = s.r := rfl
@[simp] theorem setObuf_seq (s : State) (m : Memory) : (s.setObuf m).seq = s.seq := rfl
@[simp] theorem setObuf_ibuf (s : State) (m : Memory) : (s.setObuf m).ibuf = s.ibuf := rfl
@[simp] theorem setObuf_obuf (s : State) (m : Memory) : (s.setObuf m).obuf = m := rfl
@[simp] theorem setObuf_cfg (s : State) (m : Memory) : (s.setObuf m).cfg = s.cfg := rfl
@[simp] theorem setObuf_ibufEpoch (s : State) (m : Memory) : (s.setObuf m).ibufEpoch = s.ibufEpoch := rfl
@[simp] theorem setObuf_obufEpoch (s : State) (m : Memory) : (s.setObuf m).obufEpoch = s.obufEpoch := rfl
@[simp] theorem setObuf_draws (s : State) (m : Memory) : (s.setObuf m).draws = s.draws := rfl
@[simp] theorem setObuf_hostData (s : State) (m : Memory) : (s.setObuf m).hostData = s.hostData := rfl
@[simp] theorem setObuf_pending (s : State) (m : Memory) : (s.setObuf m).pending = s.pending := rfl

/-! ### `setOwner` -/

@[simp] theorem setOwner_x0 (s : State) (v : Bool) (len : Word) : (s.setOwner v len).x0 = s.x0 := rfl
@[simp] theorem setOwner_x1 (s : State) (v : Bool) (len : Word) : (s.setOwner v len).x1 = s.x1 := rfl
@[simp] theorem setOwner_x2 (s : State) (v : Bool) (len : Word) : (s.setOwner v len).x2 = s.x2 := rfl
@[simp] theorem setOwner_x3 (s : State) (v : Bool) (len : Word) : (s.setOwner v len).x3 = s.x3 := rfl
@[simp] theorem setOwner_ok (s : State) (v : Bool) (len : Word) : (s.setOwner v len).ok = s.ok := rfl
@[simp] theorem setOwner_flag (s : State) (v : Bool) (len : Word) : (s.setOwner v len).flag = s.flag := rfl
@[simp] theorem setOwner_outValid (s : State) (v : Bool) (len : Word) : (s.setOwner v len).outValid = v := rfl
@[simp] theorem setOwner_tagValid (s : State) (v : Bool) (len : Word) : (s.setOwner v len).tagValid = s.tagValid := rfl
@[simp] theorem setOwner_err (s : State) (v : Bool) (len : Word) : (s.setOwner v len).err = s.err := rfl
@[simp] theorem setOwner_fault (s : State) (v : Bool) (len : Word) : (s.setOwner v len).fault = s.fault := rfl
@[simp] theorem setOwner_inPresent (s : State) (v : Bool) (len : Word) : (s.setOwner v len).inPresent = s.inPresent := rfl
@[simp] theorem setOwner_inLen (s : State) (v : Bool) (len : Word) : (s.setOwner v len).inLen = s.inLen := rfl
@[simp] theorem setOwner_outLen (s : State) (v : Bool) (len : Word) : (s.setOwner v len).outLen = len := rfl
@[simp] theorem setOwner_tag (s : State) (v : Bool) (len : Word) : (s.setOwner v len).tag = s.tag := rfl
@[simp] theorem setOwner_t (s : State) (v : Bool) (len : Word) : (s.setOwner v len).t = s.t := rfl
@[simp] theorem setOwner_w (s : State) (v : Bool) (len : Word) : (s.setOwner v len).w = s.w := rfl
@[simp] theorem setOwner_r (s : State) (v : Bool) (len : Word) : (s.setOwner v len).r = s.r := rfl
@[simp] theorem setOwner_seq (s : State) (v : Bool) (len : Word) : (s.setOwner v len).seq = s.seq := rfl
@[simp] theorem setOwner_ibuf (s : State) (v : Bool) (len : Word) : (s.setOwner v len).ibuf = s.ibuf := rfl
@[simp] theorem setOwner_obuf (s : State) (v : Bool) (len : Word) : (s.setOwner v len).obuf = s.obuf := rfl
@[simp] theorem setOwner_cfg (s : State) (v : Bool) (len : Word) : (s.setOwner v len).cfg = s.cfg := rfl
@[simp] theorem setOwner_ibufEpoch (s : State) (v : Bool) (len : Word) : (s.setOwner v len).ibufEpoch = s.ibufEpoch := rfl
@[simp] theorem setOwner_obufEpoch (s : State) (v : Bool) (len : Word) : (s.setOwner v len).obufEpoch = s.obufEpoch := rfl
@[simp] theorem setOwner_draws (s : State) (v : Bool) (len : Word) : (s.setOwner v len).draws = s.draws := rfl
@[simp] theorem setOwner_hostData (s : State) (v : Bool) (len : Word) : (s.setOwner v len).hostData = s.hostData := rfl
@[simp] theorem setOwner_pending (s : State) (v : Bool) (len : Word) : (s.setOwner v len).pending = s.pending := rfl

/-! ### `setTag` -/

@[simp] theorem setTag_x0 (s : State) (v : Bool) (b : Byte) : (s.setTag v b).x0 = s.x0 := rfl
@[simp] theorem setTag_x1 (s : State) (v : Bool) (b : Byte) : (s.setTag v b).x1 = s.x1 := rfl
@[simp] theorem setTag_x2 (s : State) (v : Bool) (b : Byte) : (s.setTag v b).x2 = s.x2 := rfl
@[simp] theorem setTag_x3 (s : State) (v : Bool) (b : Byte) : (s.setTag v b).x3 = s.x3 := rfl
@[simp] theorem setTag_ok (s : State) (v : Bool) (b : Byte) : (s.setTag v b).ok = s.ok := rfl
@[simp] theorem setTag_flag (s : State) (v : Bool) (b : Byte) : (s.setTag v b).flag = s.flag := rfl
@[simp] theorem setTag_outValid (s : State) (v : Bool) (b : Byte) : (s.setTag v b).outValid = s.outValid := rfl
@[simp] theorem setTag_tagValid (s : State) (v : Bool) (b : Byte) : (s.setTag v b).tagValid = v := rfl
@[simp] theorem setTag_err (s : State) (v : Bool) (b : Byte) : (s.setTag v b).err = s.err := rfl
@[simp] theorem setTag_fault (s : State) (v : Bool) (b : Byte) : (s.setTag v b).fault = s.fault := rfl
@[simp] theorem setTag_inPresent (s : State) (v : Bool) (b : Byte) : (s.setTag v b).inPresent = s.inPresent := rfl
@[simp] theorem setTag_inLen (s : State) (v : Bool) (b : Byte) : (s.setTag v b).inLen = s.inLen := rfl
@[simp] theorem setTag_outLen (s : State) (v : Bool) (b : Byte) : (s.setTag v b).outLen = s.outLen := rfl
@[simp] theorem setTag_tag (s : State) (v : Bool) (b : Byte) : (s.setTag v b).tag = b := rfl
@[simp] theorem setTag_t (s : State) (v : Bool) (b : Byte) : (s.setTag v b).t = s.t := rfl
@[simp] theorem setTag_w (s : State) (v : Bool) (b : Byte) : (s.setTag v b).w = s.w := rfl
@[simp] theorem setTag_r (s : State) (v : Bool) (b : Byte) : (s.setTag v b).r = s.r := rfl
@[simp] theorem setTag_seq (s : State) (v : Bool) (b : Byte) : (s.setTag v b).seq = s.seq := rfl
@[simp] theorem setTag_ibuf (s : State) (v : Bool) (b : Byte) : (s.setTag v b).ibuf = s.ibuf := rfl
@[simp] theorem setTag_obuf (s : State) (v : Bool) (b : Byte) : (s.setTag v b).obuf = s.obuf := rfl
@[simp] theorem setTag_cfg (s : State) (v : Bool) (b : Byte) : (s.setTag v b).cfg = s.cfg := rfl
@[simp] theorem setTag_ibufEpoch (s : State) (v : Bool) (b : Byte) : (s.setTag v b).ibufEpoch = s.ibufEpoch := rfl
@[simp] theorem setTag_obufEpoch (s : State) (v : Bool) (b : Byte) : (s.setTag v b).obufEpoch = s.obufEpoch := rfl
@[simp] theorem setTag_draws (s : State) (v : Bool) (b : Byte) : (s.setTag v b).draws = s.draws := rfl
@[simp] theorem setTag_hostData (s : State) (v : Bool) (b : Byte) : (s.setTag v b).hostData = s.hostData := rfl
@[simp] theorem setTag_pending (s : State) (v : Bool) (b : Byte) : (s.setTag v b).pending = s.pending := rfl

/-! ### `setErr` -/

@[simp] theorem setErr_x0 (s : State) (k : ErrKind) : (s.setErr k).x0 = s.x0 := rfl
@[simp] theorem setErr_x1 (s : State) (k : ErrKind) : (s.setErr k).x1 = s.x1 := rfl
@[simp] theorem setErr_x2 (s : State) (k : ErrKind) : (s.setErr k).x2 = s.x2 := rfl
@[simp] theorem setErr_x3 (s : State) (k : ErrKind) : (s.setErr k).x3 = s.x3 := rfl
@[simp] theorem setErr_ok (s : State) (k : ErrKind) : (s.setErr k).ok = s.ok := rfl
@[simp] theorem setErr_flag (s : State) (k : ErrKind) : (s.setErr k).flag = s.flag := rfl
@[simp] theorem setErr_outValid (s : State) (k : ErrKind) : (s.setErr k).outValid = s.outValid := rfl
@[simp] theorem setErr_tagValid (s : State) (k : ErrKind) : (s.setErr k).tagValid = s.tagValid := rfl
@[simp] theorem setErr_err (s : State) (k : ErrKind) : (s.setErr k).err = k := rfl
@[simp] theorem setErr_fault (s : State) (k : ErrKind) : (s.setErr k).fault = s.fault := rfl
@[simp] theorem setErr_inPresent (s : State) (k : ErrKind) : (s.setErr k).inPresent = s.inPresent := rfl
@[simp] theorem setErr_inLen (s : State) (k : ErrKind) : (s.setErr k).inLen = s.inLen := rfl
@[simp] theorem setErr_outLen (s : State) (k : ErrKind) : (s.setErr k).outLen = s.outLen := rfl
@[simp] theorem setErr_tag (s : State) (k : ErrKind) : (s.setErr k).tag = s.tag := rfl
@[simp] theorem setErr_t (s : State) (k : ErrKind) : (s.setErr k).t = s.t := rfl
@[simp] theorem setErr_w (s : State) (k : ErrKind) : (s.setErr k).w = s.w := rfl
@[simp] theorem setErr_r (s : State) (k : ErrKind) : (s.setErr k).r = s.r := rfl
@[simp] theorem setErr_seq (s : State) (k : ErrKind) : (s.setErr k).seq = s.seq := rfl
@[simp] theorem setErr_ibuf (s : State) (k : ErrKind) : (s.setErr k).ibuf = s.ibuf := rfl
@[simp] theorem setErr_obuf (s : State) (k : ErrKind) : (s.setErr k).obuf = s.obuf := rfl
@[simp] theorem setErr_cfg (s : State) (k : ErrKind) : (s.setErr k).cfg = s.cfg := rfl
@[simp] theorem setErr_ibufEpoch (s : State) (k : ErrKind) : (s.setErr k).ibufEpoch = s.ibufEpoch := rfl
@[simp] theorem setErr_obufEpoch (s : State) (k : ErrKind) : (s.setErr k).obufEpoch = s.obufEpoch := rfl
@[simp] theorem setErr_draws (s : State) (k : ErrKind) : (s.setErr k).draws = s.draws := rfl
@[simp] theorem setErr_hostData (s : State) (k : ErrKind) : (s.setErr k).hostData = s.hostData := rfl
@[simp] theorem setErr_pending (s : State) (k : ErrKind) : (s.setErr k).pending = s.pending := rfl

/-! ### `takeFault` -/

@[simp] theorem takeFault_x0 (s : State) (f : FaultKind) : (takeFault f s).x0 = s.x0 := rfl
@[simp] theorem takeFault_x1 (s : State) (f : FaultKind) : (takeFault f s).x1 = s.x1 := rfl
@[simp] theorem takeFault_x2 (s : State) (f : FaultKind) : (takeFault f s).x2 = s.x2 := rfl
@[simp] theorem takeFault_x3 (s : State) (f : FaultKind) : (takeFault f s).x3 = s.x3 := rfl
@[simp] theorem takeFault_ok (s : State) (f : FaultKind) : (takeFault f s).ok = s.ok := rfl
@[simp] theorem takeFault_flag (s : State) (f : FaultKind) : (takeFault f s).flag = s.flag := rfl
@[simp] theorem takeFault_outValid (s : State) (f : FaultKind) : (takeFault f s).outValid = s.outValid := rfl
@[simp] theorem takeFault_tagValid (s : State) (f : FaultKind) : (takeFault f s).tagValid = s.tagValid := rfl
@[simp] theorem takeFault_err (s : State) (f : FaultKind) : (takeFault f s).err = s.err := rfl
@[simp] theorem takeFault_fault (s : State) (f : FaultKind) : (takeFault f s).fault = s.fault ||| f.bit := rfl
@[simp] theorem takeFault_inPresent (s : State) (f : FaultKind) : (takeFault f s).inPresent = s.inPresent := rfl
@[simp] theorem takeFault_inLen (s : State) (f : FaultKind) : (takeFault f s).inLen = s.inLen := rfl
@[simp] theorem takeFault_outLen (s : State) (f : FaultKind) : (takeFault f s).outLen = s.outLen := rfl
@[simp] theorem takeFault_tag (s : State) (f : FaultKind) : (takeFault f s).tag = s.tag := rfl
@[simp] theorem takeFault_t (s : State) (f : FaultKind) : (takeFault f s).t = s.t := rfl
@[simp] theorem takeFault_w (s : State) (f : FaultKind) : (takeFault f s).w = s.w := rfl
@[simp] theorem takeFault_r (s : State) (f : FaultKind) : (takeFault f s).r = s.r := rfl
@[simp] theorem takeFault_seq (s : State) (f : FaultKind) : (takeFault f s).seq = s.seq := rfl
@[simp] theorem takeFault_ibuf (s : State) (f : FaultKind) : (takeFault f s).ibuf = s.ibuf := rfl
@[simp] theorem takeFault_obuf (s : State) (f : FaultKind) : (takeFault f s).obuf = s.obuf := rfl
@[simp] theorem takeFault_cfg (s : State) (f : FaultKind) : (takeFault f s).cfg = s.cfg := rfl
@[simp] theorem takeFault_ibufEpoch (s : State) (f : FaultKind) : (takeFault f s).ibufEpoch = s.ibufEpoch := rfl
@[simp] theorem takeFault_obufEpoch (s : State) (f : FaultKind) : (takeFault f s).obufEpoch = s.obufEpoch := rfl
@[simp] theorem takeFault_draws (s : State) (f : FaultKind) : (takeFault f s).draws = s.draws := rfl
@[simp] theorem takeFault_hostData (s : State) (f : FaultKind) : (takeFault f s).hostData = s.hostData := rfl
@[simp] theorem takeFault_pending (s : State) (f : FaultKind) : (takeFault f s).pending = s.pending := rfl

/-! ### `resetUnits` -/

@[simp] theorem resetUnits_x0 (s : State) : (resetUnits s).x0 = s.x0 := rfl
@[simp] theorem resetUnits_x1 (s : State) : (resetUnits s).x1 = s.x1 := rfl
@[simp] theorem resetUnits_x2 (s : State) : (resetUnits s).x2 = s.x2 := rfl
@[simp] theorem resetUnits_x3 (s : State) : (resetUnits s).x3 = s.x3 := rfl
@[simp] theorem resetUnits_ok (s : State) : (resetUnits s).ok = s.ok := rfl
@[simp] theorem resetUnits_flag (s : State) : (resetUnits s).flag = s.flag := rfl
@[simp] theorem resetUnits_outValid (s : State) : (resetUnits s).outValid = s.outValid := rfl
@[simp] theorem resetUnits_tagValid (s : State) : (resetUnits s).tagValid = s.tagValid := rfl
@[simp] theorem resetUnits_err (s : State) : (resetUnits s).err = s.err := rfl
@[simp] theorem resetUnits_fault (s : State) : (resetUnits s).fault = s.fault := rfl
@[simp] theorem resetUnits_inPresent (s : State) : (resetUnits s).inPresent = s.inPresent := rfl
@[simp] theorem resetUnits_inLen (s : State) : (resetUnits s).inLen = s.inLen := rfl
@[simp] theorem resetUnits_outLen (s : State) : (resetUnits s).outLen = s.outLen := rfl
@[simp] theorem resetUnits_tag (s : State) : (resetUnits s).tag = s.tag := rfl
@[simp] theorem resetUnits_w (s : State) : (resetUnits s).w = WriterUnit.reset := rfl
@[simp] theorem resetUnits_seq (s : State) : (resetUnits s).seq = Sequencer.reset := rfl
@[simp] theorem resetUnits_ibuf (s : State) : (resetUnits s).ibuf = s.ibuf := rfl
@[simp] theorem resetUnits_obuf (s : State) : (resetUnits s).obuf = s.obuf := rfl
@[simp] theorem resetUnits_cfg (s : State) : (resetUnits s).cfg = s.cfg := rfl
@[simp] theorem resetUnits_ibufEpoch (s : State) : (resetUnits s).ibufEpoch = s.ibufEpoch := rfl
@[simp] theorem resetUnits_obufEpoch (s : State) : (resetUnits s).obufEpoch = s.obufEpoch := rfl
@[simp] theorem resetUnits_draws (s : State) : (resetUnits s).draws = s.draws + 3 := rfl
@[simp] theorem resetUnits_hostData (s : State) : (resetUnits s).hostData = s.hostData := rfl
@[simp] theorem resetUnits_pending (s : State) : (resetUnits s).pending = s.pending := rfl

/-! ### The parts of T and R the spec gives after a reset (R248) -/

@[simp] theorem resetUnits_t_valid (s : State) : (resetUnits s).t.valid = Vector.replicate 256 false := rfl
@[simp] theorem resetUnits_t_count (s : State) : (resetUnits s).t.count = 0 := rfl
@[simp] theorem resetUnits_r_len (s : State) : (resetUnits s).r.len = 0 := rfl
@[simp] theorem resetUnits_r_ptr (s : State) : (resetUnits s).r.ptr = 0 := rfl
@[simp] theorem resetUnits_r_bi (s : State) : (resetUnits s).r.bi = 0 := rfl

/-- After a reset of the units they are at their reset values (R248). -/
theorem resetUnits_unitsReset (s : State) : (resetUnits s).unitsReset := ⟨rfl, rfl, rfl, rfl, rfl, rfl, rfl⟩

end Sys2Proof.Machine
end

