-- ==== Sys2Proof/Laws/Control.lean ====
section
/-! SUPPORT. How the pieces of a command compose, how a command ends, and what a loop over `S.IDX` does. -/

namespace Sys2Proof.Machine

variable {α β γ : Type}

@[simp] theorem Res.bind_ok (a : α) (s : State) (k : α → State → Res β) : (Res.ok a s).bind k = k a s := rfl
@[simp] theorem Res.bind_fault (f : FaultKind) (k : α → State → Res β) : (Res.fault f : Res α).bind k = .fault f := rfl
@[simp] theorem Res.bind_raise (e : ErrKind) (s : State) (k : α → State → Res β) :
    (Res.raise e s : Res α).bind k = .raise e s := rfl
@[simp] theorem Res.bind_absent (e : Fault) (k : α → State → Res β) : (Res.absent e : Res α).bind k = .absent e := rfl

theorem Res.bind_assoc (r : Res α) (k : α → State → Res β) (l : β → State → Res γ) :
    (r.bind k).bind l = r.bind fun a s => (k a s).bind l := by cases r <;> rfl

/-- A composition goes on exactly when both pieces do. -/
theorem Res.bind_eq_ok {r : Res α} {k : α → State → Res β} {b : β} {t : State} :
    r.bind k = .ok b t ↔ ∃ a s, r = .ok a s ∧ k a s = .ok b t := by cases r <;> simp

/-- A composition faults exactly when its first piece faults, or goes on to a second that does. -/
theorem Res.bind_eq_fault {r : Res α} {k : α → State → Res β} {f : FaultKind} :
    r.bind k = .fault f ↔ r = .fault f ∨ ∃ a s, r = .ok a s ∧ k a s = .fault f := by cases r <;> simp

/-- A composition raises an error exactly when one of its pieces does. -/
theorem Res.bind_eq_raise {r : Res α} {k : α → State → Res β} {e : ErrKind} {t : State} :
    r.bind k = .raise e t ↔ r = .raise e t ∨ ∃ a s, r = .ok a s ∧ k a s = .raise e t := by cases r <;> simp

/-- A composition addresses a missing byte exactly when one of its pieces does. -/
theorem Res.bind_eq_absent {r : Res α} {k : α → State → Res β} {e : Fault} :
    r.bind k = .absent e ↔ r = .absent e ∨ ∃ a s, r = .ok a s ∧ k a s = .absent e := by cases r <;> simp

/-- A faulted block ignores a command (R27). -/
theorem command_of_faulted {s : State} (body : State → Res Unit) (h : s.fault ≠ 0) : command body s = .next s := if_neg h

/-- A block that is not faulted executes it (R272). -/
theorem command_of_ready {s : State} (body : State → Res Unit) (h : s.fault = 0) :
    command body s = (body s).outcome s := if_pos h

/-- What a command can do, if it gives a next state: nothing, in a faulted block; else its body goes on to the end, faults,
or takes the failure exit. -/
theorem command_cases {body : State → Res Unit} {s t : State} (h : command body s = .next t) :
    (s.fault ≠ 0 ∧ t = s) ∨
      s.fault = 0 ∧ (body s = .ok () t ∨ (∃ f, body s = .fault f ∧ t = takeFault f s) ∨
        ∃ k u, body s = .raise k u ∧ t = failureExit k u) := by
  by_cases hf : s.fault = 0
  · rw [command_of_ready _ hf] at h
    refine .inr ⟨hf, ?_⟩
    cases hb : body s with
    | ok a u => rw [hb] at h; cases h; exact .inl rfl
    | fault f => rw [hb] at h; cases h; exact .inr (.inl ⟨f, rfl, rfl⟩)
    | raise k u => rw [hb] at h; cases h; exact .inr (.inr ⟨k, u, rfl, rfl⟩)
    | absent e => rw [hb] at h; cases h
  · rw [command_of_faulted _ hf] at h
    cases h
    exact .inl ⟨hf, rfl⟩

/-- A command stops with a reason of the model exactly when its body addresses a byte that does not exist. -/
theorem command_eq_fault {body : State → Res Unit} {s : State} {e : Fault} :
    command body s = .fault e ↔ s.fault = 0 ∧ body s = .absent e := by
  by_cases hf : s.fault = 0
  · rw [command_of_ready _ hf]; cases hb : body s <;> simp [Res.outcome, hf]
  · rw [command_of_faulted _ hf]
    exact ⟨fun h => (nomatch h), fun h => absurd h.1 hf⟩

/-- No command is refused once it has its body. -/
theorem command_ne_refused {body : State → Res Unit} {s : State} {r : Refusal} : command body s ≠ .refused r := by
  by_cases hf : s.fault = 0
  · rw [command_of_ready _ hf]; cases body s <;> simp [Res.outcome]
  · rw [command_of_faulted _ hf]; simp

/-- Each FAULT bit is a different one, and none is 0. -/
theorem FaultKind.bit_ne_zero (f : FaultKind) : f.bit ≠ 0 := by cases f <;> decide

theorem FaultKind.bit_injective {f g : FaultKind} (h : f.bit = g.bit) : f = g := by
  cases f <;> cases g <;> first | rfl | exact absurd h (by decide)

@[simp] theorem forIdx_zero (body : State → Res Unit) (i : Nat) (s : State) : forIdx body 0 i s = .ok () s := rfl

theorem forIdx_succ (body : State → Res Unit) (n i : Nat) (s : State) :
    forIdx body (n + 1) i s = (body (s.setSeq { s.seq with idx := zext64 i })).bind fun _ s => forIdx body n (i + 1) s := rfl

/-- The loop rule: a property of the position and the state that every iteration carries on holds at the end of a loop that
goes on. -/
theorem forIdx_invariant {body : State → Res Unit} {P : Nat → State → Prop} {todo i : Nat} {s t : State}
    (hs : P i s)
    (hstep : ∀ j u v, i ≤ j → j < i + todo → P j u →
      body (u.setSeq { u.seq with idx := zext64 j }) = .ok () v → P (j + 1) v)
    (h : forIdx body todo i s = .ok () t) : P (i + todo) t := by
  induction todo generalizing i s with
  | zero => cases h; exact hs
  | succ n ih =>
    rw [forIdx_succ, Res.bind_eq_ok] at h
    obtain ⟨_, u, hu, ht⟩ := h
    have := ih (hstep i s u (Nat.le_refl _) (by omega) hs hu)
      (fun j u v hj hj' => hstep j u v (by omega) (by omega)) ht
    rwa [show i + 1 + n = i + (n + 1) by omega] at this

/-- The loop goes to its end, and carries the property there, if every iteration from it goes on and carries it on. -/
theorem forIdx_completes {body : State → Res Unit} {P : Nat → State → Prop} {todo i : Nat} {s : State}
    (hs : P i s)
    (hstep : ∀ j u, i ≤ j → j < i + todo → P j u →
      ∃ v, body (u.setSeq { u.seq with idx := zext64 j }) = .ok () v ∧ P (j + 1) v) :
    ∃ t, forIdx body todo i s = .ok () t ∧ P (i + todo) t := by
  induction todo generalizing i s with
  | zero => exact ⟨s, rfl, hs⟩
  | succ n ih =>
    obtain ⟨u, hu, hP⟩ := hstep i s (Nat.le_refl _) (by omega) hs
    obtain ⟨t, ht, hPt⟩ := ih hP fun j u hj hj' => hstep j u (by omega) (by omega)
    refine ⟨t, ?_, by rwa [show i + 1 + n = i + (n + 1) by omega] at hPt⟩
    rw [forIdx_succ, hu]
    exact ht

/-- A loop ends in a fault or a failure only by an iteration that does: if no iteration from `P` faults, and each carries `P` on,
no loop does. -/
theorem forIdx_not_fault {body : State → Res Unit} {P : State → Prop} {todo i : Nat} {s : State} {f : FaultKind}
    (hs : P s)
    (hbody : ∀ j u, P u → body (u.setSeq { u.seq with idx := zext64 j }) ≠ .fault f)
    (hstep : ∀ j u v, P u → body (u.setSeq { u.seq with idx := zext64 j }) = .ok () v → P v) :
    forIdx body todo i s ≠ .fault f := by
  induction todo generalizing i s with
  | zero => simp
  | succ n ih =>
    rw [forIdx_succ, Ne, Res.bind_eq_fault]
    rintro (h | ⟨_, u, hu, h⟩)
    · exact hbody i s hs h
    · exact ih (hstep i s u hs hu) h

/-- The failure exit, field by field (R268): what is written, and that nothing else changes. -/
theorem failureExit_record (k : ErrKind) (s : State) :
    (failureExit k s).ok = false ∧ (failureExit k s).flag = false ∧ (failureExit k s).outValid = false
      ∧ (failureExit k s).outLen = 0 ∧ (failureExit k s).err = k
      ∧ (failureExit k s).tagValid = (if k = .invalidInput then false else s.tagValid)
      ∧ (failureExit k s).tag = (if k = .invalidInput then 0 else s.tag)
      ∧ (failureExit k s).unitsReset ∧ s.macroFrame (failureExit k s)
      ∧ (failureExit k s).obuf = s.obuf ∧ (failureExit k s).obufEpoch = s.obufEpoch := by
  unfold failureExit
  by_cases hk : k = .invalidInput <;> simp [hk, State.macroFrame, State.unitsReset]

/-- What a fault changes: the FAULT register only (R272). -/
theorem takeFault_frame (f : FaultKind) (s : State) : takeFault f s = { s with fault := s.fault ||| f.bit } := rfl

end Sys2Proof.Machine
end

