-- ==== Sys2Proof/Laws/Encoding.lean ====
section
/-! SUPPORT. The fields of the word the encoder builds (spec 30_encoding.md R90), and what each format accepts (R91). -/

namespace Sys2Proof

@[simp] theorem fieldOp_word (op a b : Byte) : fieldOp (word op a b) = op := by
  ext i hi
  simp only [fieldOp, word, BitVec.getElem_extractLsb', BitVec.getLsbD_append]
  rw [if_pos (by omega), Nat.zero_add, BitVec.getLsbD_eq_getElem hi]

@[simp] theorem fieldA_word (op a b : Byte) : fieldA (word op a b) = a := by
  ext i hi
  simp only [fieldA, word, BitVec.getElem_extractLsb', BitVec.getLsbD_append]
  rw [if_neg (by omega), if_pos (by omega), Nat.add_sub_cancel_left, BitVec.getLsbD_eq_getElem hi]

@[simp] theorem fieldB_word (op a b : Byte) : fieldB (word op a b) = b := by
  ext i hi
  simp only [fieldB, word, BitVec.getElem_extractLsb', BitVec.getLsbD_append]
  rw [if_neg (by omega), if_neg (by omega), if_pos (by omega), show 16 + i - 8 - 8 = i by omega, BitVec.getLsbD_eq_getElem hi]

@[simp] theorem fieldZ_word (op a b : Byte) : fieldZ (word op a b) = 0 := by
  ext i hi
  simp only [fieldZ, word, BitVec.getElem_extractLsb', BitVec.getLsbD_append]
  rw [if_neg (by omega), if_neg (by omega), if_neg (by omega)]
  simp

/-- A word is the word of its fields, when the reserved one is 0. -/
theorem word_fields {w : CmdWord} (h : fieldZ w = 0) : word (fieldOp w) (fieldA w) (fieldB w) = w := by
  apply BitVec.eq_of_getLsbD_eq
  intro i hi
  have hz := congrArg (fun v : BitVec 8 => v.getLsbD (i - 24)) h
  simp only [fieldZ, BitVec.getLsbD_extractLsb'] at hz
  simp only [word, fieldOp, fieldA, fieldB, BitVec.getLsbD_append, BitVec.getLsbD_extractLsb', BitVec.getLsbD_zero]
  by_cases h1 : i < 8
  · simp [h1]
  · by_cases h2 : i < 16
    · simp [h1, show i - 8 < 8 by omega, show 8 + (i - 8) = i by omega]
    · by_cases h3 : i < 24
      · simp [h1, show ¬ i - 8 < 8 by omega, show i - 8 - 8 < 8 by omega, show 16 + (i - 8 - 8) = i by omega]
      · rw [if_neg h1, if_neg (by omega), if_neg (by omega)]
        rw [show 24 + (i - 24) = i by omega] at hz
        have : i - 24 < 8 := by omega
        simpa [this] using hz.symm

/-- The value of a word (R110). -/
theorem word_toNat (op a b : Byte) : (word op a b).toNat = op.toNat + 256 * a.toNat + 65536 * b.toNat := by
  have h1 := op.isLt
  have h2 := a.isLt
  have h3 := b.isLt
  simp only [word, BitVec.toNat_append, BitVec.toNat_zero, Nat.zero_shiftLeft, Nat.zero_or]
  rw [← Nat.shiftLeft_add_eq_or_of_lt h2, ← Nat.shiftLeft_add_eq_or_of_lt h1]
  simp only [Nat.shiftLeft_eq]
  omega

end Sys2Proof
end

