-- ==== Sys2Proof/Laws/Memory.lean ====
section
/-! SUPPORT. The laws of a memory: what a read answers after a write, and that every operation keeps the canonical form. -/

namespace Sys2Proof.Machine

@[simp] theorem Memory.read?_nil (a : Nat) : Memory.read? [] a = none := rfl

theorem Memory.read?_cons (c : Host.Cell) (m : Memory) (a : Nat) :
    Memory.read? (c :: m) a = if c.1 = a then some c.2 else m.read? a := rfl

/-- A read of the address written gives the byte written. -/
@[simp] theorem Memory.read?_write_self (m : Memory) (a : Nat) (b : Byte) : (m.write a b).read? a = some b := by
  induction m with
  | nil => simp [Memory.write, Memory.read?]
  | cons c m ih =>
    unfold Memory.write
    split
    · simp [Memory.read?]
    · split
      · simp [Memory.read?]
      · rename_i h; simp [Memory.read?, ih, Ne.symm h]

/-- A write leaves every other address alone. -/
theorem Memory.read?_write_of_ne (m : Memory) {a a' : Nat} (b : Byte) (h : a' ≠ a) :
    (m.write a b).read? a' = m.read? a' := by
  induction m with
  | nil => simp [Memory.write, Memory.read?, Ne.symm h]
  | cons c m ih =>
    unfold Memory.write
    split
    · simp [Memory.read?, Ne.symm h]
    · split
      · rename_i hac; subst hac; simp [Memory.read?, Ne.symm h]
      · simp [Memory.read?, ih]

theorem Memory.read?_write (m : Memory) (a a' : Nat) (b : Byte) :
    (m.write a b).read? a' = if a' = a then some b else m.read? a' := by
  split
  · rename_i h; subst h; simp
  · rename_i h; exact m.read?_write_of_ne b h

/-- The bytes below `n` become unspecified; the others stay (R141). -/
theorem Memory.read?_forgetBelow (n : Nat) (m : Memory) (a : Nat) :
    (m.forgetBelow n).read? a = if a < n then none else m.read? a := by
  induction m with
  | nil => simp [Memory.forgetBelow, Memory.read?]
  | cons c m ih =>
    unfold Memory.forgetBelow at ih ⊢
    simp only [Memory.read?]
    by_cases hc : n ≤ c.1
    · rw [List.filter_cons_of_pos (by simpa using hc), Memory.read?_cons, ih]
      split_ifs <;> first | rfl | omega
    · rw [List.filter_cons_of_neg (by simpa using hc), ih]
      split_ifs <;> first | rfl | omega

/-- The addresses of a written memory: the old ones and the one written. -/
theorem Memory.mem_write {m : Memory} {a : Nat} {b : Byte} {c : Host.Cell} (h : c ∈ m.write a b) : c ∈ m ∨ c = (a, b) := by
  induction m with
  | nil => simpa [Memory.write] using h
  | cons d m ih =>
    unfold Memory.write at h
    split at h
    · simp only [List.mem_cons] at h ⊢; tauto
    · split at h
      · simp only [List.mem_cons] at h ⊢; tauto
      · simp only [List.mem_cons] at h ⊢
        rcases h with h | h
        · tauto
        · rcases ih h with h | h <;> tauto

/-- A write keeps the canonical form. -/
theorem Memory.wf_write {m : Memory} (h : m.wf) (a : Nat) (b : Byte) : (m.write a b).wf := by
  induction m with
  | nil => simp [Memory.write, Memory.wf]
  | cons d m ih =>
    have hd := List.pairwise_cons.mp h
    unfold Memory.write
    split
    · rename_i had
      refine List.pairwise_cons.mpr ⟨fun c hc => ?_, h⟩
      rcases List.mem_cons.mp hc with rfl | hc
      · exact had
      · exact Nat.lt_trans had (hd.1 c hc)
    · split
      · rename_i had
        exact List.pairwise_cons.mpr ⟨fun c hc => by have := hd.1 c hc; simpa [had] using this, hd.2⟩
      · refine List.pairwise_cons.mpr ⟨fun c hc => ?_, ih hd.2⟩
        rcases Memory.mem_write hc with hc | rfl
        · exact hd.1 c hc
        · show d.1 < a; omega

/-- Forgetting bytes keeps the canonical form. -/
theorem Memory.wf_forgetBelow {m : Memory} (h : m.wf) (n : Nat) : (m.forgetBelow n).wf := List.Pairwise.filter _ h

theorem Memory.within_write {m : Memory} {cap : Nat} (h : m.within cap) {a : Nat} (ha : a < cap) (b : Byte) :
    (m.write a b).within cap :=
  ⟨Memory.wf_write h.1 a b, fun c hc => (Memory.mem_write hc).elim (h.2 c) (by rintro rfl; exact ha)⟩

theorem Memory.within_forgetBelow {m : Memory} {cap : Nat} (h : m.within cap) (n : Nat) : (m.forgetBelow n).within cap :=
  ⟨Memory.wf_forgetBelow h.1 n, fun c hc => h.2 c (List.mem_filter.mp hc).1⟩

theorem Memory.within_nil (cap : Nat) : Memory.within cap [] := by simp [Memory.within, Memory.wf]

/-- No address at or above the capacity is listed. -/
theorem Memory.read?_of_within {m : Memory} {cap a : Nat} (h : m.within cap) (ha : cap ≤ a) : m.read? a = none := by
  have hm := h.2
  clear h
  induction m with
  | nil => rfl
  | cons c m ih =>
    have hc := hm c (by simp)
    simp only [Memory.read?]
    rw [if_neg (by omega)]
    exact ih fun d hd => hm d (by simp [hd])

/-- A listed address lies among the cells. -/
theorem Memory.mem_of_read? {m : Memory} {a : Nat} {b : Byte} (h : m.read? a = some b) : (a, b) ∈ m := by
  induction m with
  | nil => simp at h
  | cons c m ih =>
    simp only [Memory.read?] at h
    split at h
    · rename_i hc; subst hc; cases h; simp
    · exact List.mem_cons_of_mem _ (ih h)

/-- In canonical form a memory is determined by its reads: memories that read alike are the same data. -/
theorem Memory.ext_of_wf {m m' : Memory} (h : m.wf) (h' : m'.wf) (e : ∀ a, m.read? a = m'.read? a) : m = m' := by
  induction m generalizing m' with
  | nil =>
    cases m' with
    | nil => rfl
    | cons c _ => have := e c.1; simp [Memory.read?] at this
  | cons c m ih =>
    cases m' with
    | nil => have := e c.1; simp [Memory.read?] at this
    | cons d n =>
      have hc := List.pairwise_cons.mp h
      have hd := List.pairwise_cons.mp h'
      have ec := e c.1
      have ed := e d.1
      simp only [Memory.read?] at ec ed
      simp only [if_true] at ec ed
      have hcd : c.1 = d.1 := by
        by_contra hne
        rw [if_neg (Ne.symm hne)] at ec
        rw [if_neg hne] at ed
        have h1 := hd.1 _ (Memory.mem_of_read? ec.symm)
        have h2 := hc.1 _ (Memory.mem_of_read? ed)
        simp only at h1 h2
        omega
      rw [if_pos hcd.symm] at ec
      have heq : c = d := Prod.ext hcd (by simpa using ec)
      subst heq
      rw [ih hc.2 hd.2 fun a => ?_]
      by_cases ha : c.1 = a
      · have none_of : ∀ k : Memory, (∀ x ∈ k, c.1 < x.1) → k.read? a = none := by
          intro k hk
          cases hr : k.read? a with
          | none => rfl
          | some b => have := hk _ (Memory.mem_of_read? hr); simp only at this; omega
        rw [none_of m hc.1, none_of n hd.1]
      · have := e a
        simpa [Memory.read?, ha] using this

end Sys2Proof.Machine
end

