-- ==== Sys2Proof/Laws/Writer.lean ====
section
/-! SUPPORT. What each operation of W can do, and that it keeps the invariants of W and of OBUF (spec 10_state.md R31). -/

namespace Sys2Proof.Machine

/-- The memory after a sequence of bytes is written from an address on. -/
def Memory.writeAll (m : Memory) : (a : Nat) → List Byte → Memory
  | _, [] => m
  | a, b :: rest => Memory.writeAll (m.write a b) (a + 1) rest

/-- A read after a sequence is written: the byte written, inside it; else what was there. -/
theorem Memory.read?_writeAll (m : Memory) (a : Nat) (bs : List Byte) (k : Nat) :
    (m.writeAll a bs).read? k = if a ≤ k ∧ k < a + bs.length then bs[k - a]? else m.read? k := by
  induction bs generalizing m a with
  | nil => simp only [Memory.writeAll, List.length_nil]; rw [if_neg (by omega)]
  | cons b bs ih =>
    simp only [Memory.writeAll, ih, Memory.read?_write, List.length_cons]
    by_cases h1 : a + 1 ≤ k ∧ k < a + 1 + bs.length
    · rw [if_pos h1, if_pos (by omega), show k - a = (k - (a + 1)) + 1 by omega]; rfl
    · rw [if_neg h1]
      by_cases h2 : k = a
      · subst h2; rw [if_pos rfl, if_pos (by omega)]; simp
      · rw [if_neg h2, if_neg (by omega)]

theorem Memory.within_writeAll {m : Memory} {cap : Nat} (h : m.within cap) {a : Nat} {bs : List Byte}
    (ha : bs = [] ∨ a + bs.length ≤ cap) : (m.writeAll a bs).within cap := by
  induction bs generalizing m a with
  | nil => exact h
  | cons b bs ih =>
    simp only [reduceCtorEq, List.length_cons, false_or] at ha
    exact ih (Memory.within_write h (by omega) b) (.inr (by omega))

theorem obufStore_of_lt {a : Nat} {s : State} (h : a < s.cfg.outCap) (b : Byte) :
    obufStore a b s = .ok () (s.setObuf (s.obuf.write a b)) := if_pos h

/-- Everything a store of one byte can do: write it inside OBUF, or stop outside. -/
theorem obufStore_cases (a : Nat) (b : Byte) (s : State) :
    (a < s.cfg.outCap ∧ obufStore a b s = .ok () (s.setObuf (s.obuf.write a b))) ∨
      (s.cfg.outCap ≤ a ∧ obufStore a b s = .absent (.noSuchByte .obuf a)) := by
  unfold obufStore; split <;> simp_all

/-- A sequence that lies inside OBUF is written whole, and nothing else changes (R63). -/
theorem obufStoreAll_of_le {a : Nat} {bs : List Byte} {s : State} (h : bs = [] ∨ a + bs.length ≤ s.cfg.outCap) :
    obufStoreAll a bs s = .ok () (s.setObuf (s.obuf.writeAll a bs)) := by
  induction bs generalizing a s with
  | nil => rfl
  | cons b bs ih =>
    simp only [reduceCtorEq, List.length_cons, false_or] at h
    rw [obufStoreAll, obufStore_of_lt (by omega)]
    exact ih (.inr (by simp only [setObuf_cfg]; omega))

/-- Everything a store of a sequence can do. -/
theorem obufStoreAll_cases (a : Nat) (bs : List Byte) (s : State) :
    ((bs = [] ∨ a + bs.length ≤ s.cfg.outCap) ∧ obufStoreAll a bs s = .ok () (s.setObuf (s.obuf.writeAll a bs))) ∨
      ((bs ≠ [] ∧ s.cfg.outCap < a + bs.length) ∧ ∃ e, obufStoreAll a bs s = .absent e) := by
  by_cases h : bs = [] ∨ a + bs.length ≤ s.cfg.outCap
  · exact .inl ⟨h, obufStoreAll_of_le h⟩
  · refine .inr ⟨by push Not at h; exact h, ?_⟩
    induction bs generalizing a s with
    | nil => simp at h
    | cons b bs ih =>
      rw [obufStoreAll]
      rcases obufStore_cases a b s with ⟨ha, hs⟩ | ⟨ha, hs⟩
      · rw [hs]
        refine ih (a + 1) _ ?_
        simp only [reduceCtorEq, List.length_cons, false_or, setObuf_cfg] at h ⊢
        rintro (rfl | h')
        · simp at h; omega
        · omega
      · exact ⟨_, by rw [hs]; rfl⟩

/-- Everything a byte-level write can do (R142): fault with nothing written, write every byte and advance the cursor, or stop
outside OBUF. -/
theorem writeBytes_cases (bs : List Byte) (s : State) :
    (s.w.bi ≠ 0 ∧ writeBytes bs s = .fault .wMisaligned) ∨
      (s.w.bi = 0 ∧ s.w.len.toNat < s.w.ptr.toNat + bs.length ∧ writeBytes bs s = .fault .wOverrun) ∨
      (s.w.bi = 0 ∧ s.w.ptr.toNat + bs.length ≤ s.w.len.toNat ∧ (bs = [] ∨ s.w.ptr.toNat + bs.length ≤ s.cfg.outCap) ∧
        writeBytes bs s = .ok ()
          { s with obuf := s.obuf.writeAll s.w.ptr.toNat bs, w := { s.w with ptr := s.w.ptr + zext64 bs.length } }) ∨
      (s.cfg.outCap < s.w.ptr.toNat + bs.length ∧ s.w.ptr.toNat + bs.length ≤ s.w.len.toNat ∧
        ∃ e, writeBytes bs s = .absent e) := by
  unfold writeBytes
  by_cases hbi : s.w.bi = 0
  · by_cases hov : s.w.len.toNat < s.w.ptr.toNat + bs.length
    · exact .inr (.inl ⟨hbi, hov, by rw [if_neg (not_not.mpr hbi), if_pos hov]⟩)
    · rw [if_neg (not_not.mpr hbi), if_neg hov]
      rcases obufStoreAll_cases s.w.ptr.toNat bs s with ⟨h, hs⟩ | ⟨h, e, hs⟩
      · exact .inr (.inr (.inl ⟨hbi, by omega, h, by rw [hs]; rfl⟩))
      · exact .inr (.inr (.inr ⟨h.2, by omega, e, by rw [hs]; rfl⟩))
  · exact .inl ⟨hbi, by rw [if_pos hbi]⟩

/-- A byte-level write that fits its buffer completes (R142). -/
theorem writeBytes_of_fits {bs : List Byte} {s : State} (hbi : s.w.bi = 0)
    (hfit : s.w.ptr.toNat + bs.length ≤ s.w.len.toNat) (hcap : s.w.len.toNat ≤ s.cfg.outCap) :
    writeBytes bs s = .ok ()
      { s with obuf := s.obuf.writeAll s.w.ptr.toNat bs, w := { s.w with ptr := s.w.ptr + zext64 bs.length } } := by
  rcases writeBytes_cases bs s with ⟨h, _⟩ | ⟨_, h, _⟩ | ⟨_, _, _, h⟩ | ⟨h, _⟩
  · exact absurd hbi h
  · omega
  · exact h
  · omega

/-- Everything a bit write can do (R143): fault, fill the accumulator further, emit a byte, or stop outside OBUF. -/
theorem writeBit_cases (bit : Bool) (s : State) :
    (s.w.len.toNat ≤ s.w.ptr.toNat ∧ writeBit bit s = .fault .wOverrun) ∨
      (s.w.ptr.toNat < s.w.len.toNat ∧ s.w.bi ≠ 7 ∧
        writeBit bit s = .ok () (s.setWriter { s.w with acc := setBit s.w.acc s.w.bi.toNat bit, bi := s.w.bi + 1 })) ∨
      (s.w.ptr.toNat < s.w.len.toNat ∧ s.w.bi = 7 ∧ s.w.ptr.toNat < s.cfg.outCap ∧
        writeBit bit s = .ok ()
          { s with
            obuf := s.obuf.write s.w.ptr.toNat (setBit s.w.acc s.w.bi.toNat bit)
            w := { s.w with ptr := s.w.ptr + 1, acc := 0, bi := 0 } }) ∨
      (s.w.ptr.toNat < s.w.len.toNat ∧ s.cfg.outCap ≤ s.w.ptr.toNat ∧ ∃ e, writeBit bit s = .absent e) := by
  unfold writeBit
  by_cases hov : s.w.len.toNat ≤ s.w.ptr.toNat
  · exact .inl ⟨hov, if_pos hov⟩
  · rw [if_neg hov]
    by_cases hbi : s.w.bi = 7
    · simp only [hbi, if_true]
      rcases obufStore_cases s.w.ptr.toNat (setBit s.w.acc (7 : BitVec 3).toNat bit) s with ⟨ha, hs⟩ | ⟨ha, hs⟩
      · exact .inr (.inr (.inl ⟨by omega, trivial, ha, by rw [hs]; rfl⟩))
      · exact .inr (.inr (.inr ⟨by omega, ha, _, by rw [hs]; rfl⟩))
    · simp only [hbi, if_false]
      exact .inr (.inl ⟨by omega, hbi, trivial⟩)

/-- Everything WFLUSH's effect can do (R145). -/
theorem flushBits_cases (s : State) :
    (s.w.bi = 0 ∧ flushBits s = .ok () s) ∨
      (s.w.bi ≠ 0 ∧ s.w.ptr.toNat < s.cfg.outCap ∧
        flushBits s = .ok ()
          { s with
            obuf := s.obuf.write s.w.ptr.toNat s.w.acc
            w := { s.w with ptr := s.w.ptr + 1, acc := 0, bi := 0 } }) ∨
      (s.w.bi ≠ 0 ∧ s.cfg.outCap ≤ s.w.ptr.toNat ∧ ∃ e, flushBits s = .absent e) := by
  unfold flushBits
  by_cases hbi : s.w.bi = 0
  · exact .inl ⟨hbi, if_neg (not_not.mpr hbi)⟩
  · rw [if_pos hbi]
    rcases obufStore_cases s.w.ptr.toNat s.w.acc s with ⟨ha, hs⟩ | ⟨ha, hs⟩
    · exact .inr (.inl ⟨hbi, ha, by rw [hs]; rfl⟩)
    · exact .inr (.inr ⟨hbi, ha, _, by rw [hs]; rfl⟩)

/-- Everything an allocation can do (R141). -/
theorem allocate_cases (size : Nat) (s : State) :
    (s.outValid = true ∧ allocate size s = .fault .ownership) ∨
      (s.outValid = false ∧ s.cfg.outCap < size ∧ allocate size s = .ok false (s.setWriter WriterUnit.reset)) ∨
      (s.outValid = false ∧ size ≤ s.cfg.outCap ∧
        allocate size s = .ok true
          { s with
            w := { len := zext64 size, ptr := 0, bi := 0, acc := 0 }
            obuf := s.obuf.forgetBelow size
            obufEpoch := s.obufEpoch + 1 }) := by
  unfold allocate
  cases h : s.outValid
  · by_cases hs : s.cfg.outCap < size
    · simp [hs]
    · simp [hs]; omega
  · simp

/-- Everything a hand-over can do (R148). -/
theorem giveBuffer_cases (s : State) :
    (s.outValid = true ∧ giveBuffer s = .fault .ownership) ∨
      (s.outValid = false ∧ s.w.bi ≠ 0 ∧ giveBuffer s = .fault .wMisaligned) ∨
      (s.outValid = false ∧ s.w.bi = 0 ∧
        giveBuffer s = .ok () { s with outValid := true, outLen := s.w.len, w := WriterUnit.reset }) := by
  unfold giveBuffer
  cases h : s.outValid
  · by_cases hbi : s.w.bi = 0
    · exact .inr (.inr ⟨rfl, hbi, by rw [if_neg (by simp), if_neg (not_not.mpr hbi)]; rfl⟩)
    · exact .inr (.inl ⟨rfl, hbi, by rw [if_neg (by simp), if_pos hbi]⟩)
  · exact .inl ⟨rfl, if_pos rfl⟩

/-! ## What the operations of W leave alone -/

/-- `t` differs from `s` in W and OBUF only. -/
def SameButWriter (s t : State) : Prop := t = { s with w := t.w, obuf := t.obuf }

theorem SameButWriter.refl (s : State) : SameButWriter s s := rfl

theorem SameButWriter.trans {s t u : State} (h : SameButWriter s t) (k : SameButWriter t u) : SameButWriter s u := by
  unfold SameButWriter at *; rw [k, h]

theorem writeBytes_frame {bs : List Byte} {s t : State} (h : writeBytes bs s = .ok () t) : SameButWriter s t := by
  rcases writeBytes_cases bs s with ⟨_, e⟩ | ⟨_, _, e⟩ | ⟨_, _, _, e⟩ | ⟨_, _, _, e⟩ <;> rw [e] at h <;> cases h
  rfl

theorem writeBit_frame {bit : Bool} {s t : State} (h : writeBit bit s = .ok () t) : SameButWriter s t := by
  rcases writeBit_cases bit s with ⟨_, e⟩ | ⟨_, _, e⟩ | ⟨_, _, _, e⟩ | ⟨_, _, _, e⟩ <;> rw [e] at h <;> cases h <;> rfl

theorem writeBits_frame {bits : List Bool} {s t : State} (h : writeBits bits s = .ok () t) : SameButWriter s t := by
  induction bits generalizing s with
  | nil => cases h; rfl
  | cons b bs ih =>
    obtain ⟨_, u, hu, ht⟩ := Res.bind_eq_ok.mp h
    exact (writeBit_frame hu).trans (ih ht)

theorem flushBits_frame {s t : State} (h : flushBits s = .ok () t) : SameButWriter s t := by
  rcases flushBits_cases s with ⟨_, e⟩ | ⟨_, _, e⟩ | ⟨_, _, _, e⟩ <;> rw [e] at h <;> cases h <;> rfl

/-! ## The invariants of W -/

/-- W at its reset values meets its invariants (R31). -/
theorem WriterUnit.wf_reset (c : Config) : WriterUnit.reset.wf c := by simp [WriterUnit.wf, WriterUnit.reset]

/-- A bit written above the bits the accumulator holds leaves a value that the bits so far and the new one make. -/
theorem setBit_toNat {v : Byte} {i : Nat} (hi : i < 8) (hv : v.toNat < 2 ^ i) (bit : Bool) :
    (setBit v i bit).toNat = v.toNat + bit.toNat * 2 ^ i := by
  have key : ∀ i < 8, ∀ n < 2 ^ i, ∀ bit : Bool, (setBit (BitVec.ofNat 8 n) i bit).toNat = n + bit.toNat * 2 ^ i := by decide
  have := key i hi v.toNat hv bit
  rwa [BitVec.ofNat_toNat, BitVec.setWidth_eq] at this

theorem zext64_toNat {n : Nat} (h : n < 2 ^ 64) : (zext64 n).toNat = n := by
  simp only [zext64, BitVec.toNat_ofNat]; exact Nat.mod_eq_of_lt h

/-- A byte-level write keeps the invariants of W. -/
theorem writeBytes_wf {bs : List Byte} {s t : State} (hw : s.w.wf s.cfg) (h : writeBytes bs s = .ok () t) :
    t.w.wf t.cfg := by
  rcases writeBytes_cases bs s with ⟨_, e⟩ | ⟨_, _, e⟩ | ⟨hbi, hfit, _, e⟩ | ⟨_, _, _, e⟩ <;> rw [e] at h <;> cases h
  have hlt := s.w.len.isLt
  have hn : (s.w.ptr + zext64 bs.length).toNat = s.w.ptr.toNat + bs.length := by
    rw [BitVec.toNat_add, zext64_toNat (by omega)]; exact Nat.mod_eq_of_lt (by omega)
  obtain ⟨_, h2, _, h4⟩ := hw
  exact ⟨by simp only [hn]; exact hfit, h2, fun hne => absurd hbi hne, h4⟩

/-- A bit write keeps the invariants of W. -/
theorem writeBit_wf {bit : Bool} {s t : State} (hw : s.w.wf s.cfg) (h : writeBit bit s = .ok () t) : t.w.wf t.cfg := by
  obtain ⟨h1, h2, h3, h4⟩ := hw
  have hlt := s.w.len.isLt
  rcases writeBit_cases bit s with ⟨_, e⟩ | ⟨hp, hbi, e⟩ | ⟨hp, hbi, _, e⟩ | ⟨_, _, _, e⟩ <;> rw [e] at h <;> cases h
  · have hlt7 : s.w.bi.toNat < 7 := by
      have := s.w.bi.isLt
      have hne : s.w.bi.toNat ≠ 7 := fun e => hbi (BitVec.eq_of_toNat_eq (by simpa using e))
      omega
    have hb : (s.w.bi + 1).toNat = s.w.bi.toNat + 1 := by
      show (s.w.bi + 1#3).toNat = _
      rw [BitVec.toNat_add, BitVec.toNat_ofNat]; omega
    refine ⟨h1, h2, fun _ => hp, ?_⟩
    show (setBit s.w.acc s.w.bi.toNat bit).toNat < 2 ^ (s.w.bi + 1).toNat
    rw [setBit_toNat (by omega) h4, hb, Nat.pow_succ]
    have : bit.toNat ≤ 1 := Bool.toNat_le bit
    nlinarith
  · have hn : (s.w.ptr + 1).toNat = s.w.ptr.toNat + 1 := by
      show (s.w.ptr + 1#64).toNat = _
      rw [BitVec.toNat_add, BitVec.toNat_ofNat]; omega
    exact ⟨by simp only [hn]; omega, h2, fun hne => absurd rfl hne, by simp⟩

theorem writeBits_wf {bits : List Bool} {s t : State} (hw : s.w.wf s.cfg) (h : writeBits bits s = .ok () t) :
    t.w.wf t.cfg := by
  induction bits generalizing s with
  | nil => cases h; exact hw
  | cons b bs ih =>
    obtain ⟨_, u, hu, ht⟩ := Res.bind_eq_ok.mp h
    exact ih (writeBit_wf hw hu) ht

/-- WFLUSH keeps the invariants of W. -/
theorem flushBits_wf {s t : State} (hw : s.w.wf s.cfg) (h : flushBits s = .ok () t) : t.w.wf t.cfg := by
  obtain ⟨h1, h2, h3, _⟩ := hw
  have hlt := s.w.len.isLt
  rcases flushBits_cases s with ⟨_, e⟩ | ⟨hbi, _, e⟩ | ⟨_, _, _, e⟩ <;> rw [e] at h <;> cases h
  · exact ⟨h1, h2, h3, by assumption⟩
  · have hp := h3 hbi
    have hn : (s.w.ptr + 1).toNat = s.w.ptr.toNat + 1 := by
      show (s.w.ptr + 1#64).toNat = _
      rw [BitVec.toNat_add, BitVec.toNat_ofNat]; omega
    exact ⟨by simp only [hn]; omega, h2, fun hne => absurd rfl hne, by simp⟩

/-- An allocation, bound or not, leaves W within its invariants. -/
theorem allocate_wf {size : Nat} {s t : State} {bound : Bool} (hc : s.cfg.outCap < 2 ^ 64)
    (h : allocate size s = .ok bound t) : t.w.wf t.cfg := by
  rcases allocate_cases size s with ⟨_, e⟩ | ⟨_, _, e⟩ | ⟨_, hs, e⟩ <;> rw [e] at h <;> cases h
  · exact WriterUnit.wf_reset _
  · refine ⟨by simp, ?_, by simp, by simp⟩
    show (zext64 size).toNat ≤ _
    rw [zext64_toNat (by omega)]; exact hs

/-! ## The canonical form of OBUF -/

/-- A byte-level write keeps OBUF in its canonical form and within its capacity. -/
theorem writeBytes_obuf {bs : List Byte} {s t : State} (ho : s.obuf.within s.cfg.outCap) (h : writeBytes bs s = .ok () t) :
    t.obuf.within t.cfg.outCap := by
  rcases writeBytes_cases bs s with ⟨_, e⟩ | ⟨_, _, e⟩ | ⟨_, _, hcap, e⟩ | ⟨_, _, _, e⟩ <;> rw [e] at h <;> cases h
  exact Memory.within_writeAll ho hcap

theorem writeBit_obuf {bit : Bool} {s t : State} (ho : s.obuf.within s.cfg.outCap) (h : writeBit bit s = .ok () t) :
    t.obuf.within t.cfg.outCap := by
  rcases writeBit_cases bit s with ⟨_, e⟩ | ⟨_, _, e⟩ | ⟨_, _, hcap, e⟩ | ⟨_, _, _, e⟩ <;> rw [e] at h <;> cases h
  · exact ho
  · exact Memory.within_write ho hcap _

theorem writeBits_obuf {bits : List Bool} {s t : State} (ho : s.obuf.within s.cfg.outCap) (h : writeBits bits s = .ok () t) :
    t.obuf.within t.cfg.outCap := by
  induction bits generalizing s with
  | nil => cases h; exact ho
  | cons b bs ih =>
    obtain ⟨_, u, hu, ht⟩ := Res.bind_eq_ok.mp h
    exact ih (writeBit_obuf ho hu) ht

theorem flushBits_obuf {s t : State} (ho : s.obuf.within s.cfg.outCap) (h : flushBits s = .ok () t) :
    t.obuf.within t.cfg.outCap := by
  rcases flushBits_cases s with ⟨_, e⟩ | ⟨_, hcap, e⟩ | ⟨_, _, _, e⟩ <;> rw [e] at h <;> cases h
  · exact ho
  · exact Memory.within_write ho hcap _

theorem allocate_obuf {size : Nat} {s t : State} {bound : Bool} (ho : s.obuf.within s.cfg.outCap)
    (h : allocate size s = .ok bound t) : t.obuf.within t.cfg.outCap := by
  rcases allocate_cases size s with ⟨_, e⟩ | ⟨_, _, e⟩ | ⟨_, _, e⟩ <;> rw [e] at h <;> cases h
  · exact ho
  · exact Memory.within_forgetBelow ho size

end Sys2Proof.Machine
end

