-- ==== Sys2Proof/Laws/Reader.lean ====
section
/-! SUPPORT. What each operation of R can do, and that it keeps the invariants of R (spec 10_state.md R32). -/

namespace Sys2Proof.Machine

theorem ibufByte_of_lt {a : Nat} {s : State} (h : a < s.cfg.inCap) : ibufByte a s = .ok (s.ibufAt a) s := if_pos h

/-- Everything a read of one byte of IBUF can do. -/
theorem ibufByte_cases (a : Nat) (s : State) :
    (a < s.cfg.inCap ∧ ibufByte a s = .ok (s.ibufAt a) s) ∨
      (s.cfg.inCap ≤ a ∧ ibufByte a s = .absent (.noSuchByte .ibuf a)) := by
  unfold ibufByte; split <;> simp_all

/-- A read of several bytes inside IBUF gives them in order and changes nothing (R62). -/
theorem ibufBytes_of_le {n a : Nat} {s : State} (h : n = 0 ∨ a + n ≤ s.cfg.inCap) :
    ibufBytes n a s = .ok ((List.range n).map fun k => s.ibufAt (a + k)) s := by
  induction n generalizing a with
  | zero => rfl
  | succ n ih =>
    rw [ibufBytes, ibufByte_of_lt (by omega), Res.bind_ok, ih (by omega), Res.bind_ok, List.range_succ_eq_map]
    simp [Nat.add_assoc, Nat.add_comm 1]

/-- Everything a read of several bytes of IBUF can do. -/
theorem ibufBytes_cases (n a : Nat) (s : State) :
    ((n = 0 ∨ a + n ≤ s.cfg.inCap) ∧ ibufBytes n a s = .ok ((List.range n).map fun k => s.ibufAt (a + k)) s) ∨
      ((n ≠ 0 ∧ s.cfg.inCap < a + n) ∧ ∃ e, ibufBytes n a s = .absent e) := by
  by_cases h : n = 0 ∨ a + n ≤ s.cfg.inCap
  · exact .inl ⟨h, ibufBytes_of_le h⟩
  · refine .inr ⟨by push Not at h; exact h, ?_⟩
    induction n generalizing a with
    | zero => simp at h
    | succ n ih =>
      rw [ibufBytes]
      rcases ibufByte_cases a s with ⟨ha, hs⟩ | ⟨ha, hs⟩
      · rw [hs, Res.bind_ok]
        obtain ⟨e, he⟩ := ih (a + 1) (by omega)
        exact ⟨e, by rw [he]; rfl⟩
      · exact ⟨_, by rw [hs]; rfl⟩

/-- Everything a refill can do (R162): copy the byte at the cursor, or nothing at the end of the buffer. -/
theorem refill_cases (s : State) :
    (s.r.ptr.toNat < s.r.len.toNat ∧ s.r.ptr.toNat < s.cfg.inCap ∧
        refill s = .ok () (s.setReader { s.r with la := s.ibufAt s.r.ptr.toNat })) ∨
      (s.r.len.toNat ≤ s.r.ptr.toNat ∧ refill s = .ok () s) ∨
      (s.cfg.inCap ≤ s.r.ptr.toNat ∧ s.r.ptr.toNat < s.r.len.toNat ∧ ∃ e, refill s = .absent e) := by
  unfold refill
  by_cases h : s.r.ptr.toNat < s.r.len.toNat
  · rw [if_pos h]
    rcases ibufByte_cases s.r.ptr.toNat s with ⟨ha, hs⟩ | ⟨ha, hs⟩
    · exact .inl ⟨h, ha, by rw [hs]; rfl⟩
    · exact .inr (.inr ⟨ha, h, _, by rw [hs]; rfl⟩)
  · exact .inr (.inl ⟨by omega, if_neg h⟩)

/-- A refill of a reader within IBUF completes, and changes no more than the lookahead. -/
theorem refill_of_le {s : State} (h : s.r.len.toNat ≤ s.cfg.inCap) :
    refill s = .ok () (s.setReader
      { s.r with la := if s.r.ptr.toNat < s.r.len.toNat then s.ibufAt s.r.ptr.toNat else s.r.la }) := by
  rcases refill_cases s with ⟨h1, _, e⟩ | ⟨h1, e⟩ | ⟨h1, h2, _⟩
  · rw [e, if_pos h1]
  · rw [e, if_neg (by omega)]; rfl
  · omega

/-- Everything RINIT's effect can do (R161). -/
theorem bindReader_cases (s : State) :
    (s.inPresent = true ∧ s.inLen.toNat ≤ s.cfg.inCap ∧
        bindReader s = .ok true (s.setReader
          { len := s.inLen, ptr := 0, bi := 0, la := if 0 < s.inLen.toNat then s.ibufAt 0 else s.r.la })) ∨
      (¬ (s.inPresent = true ∧ s.inLen.toNat ≤ s.cfg.inCap) ∧
        bindReader s = .ok false (s.setReader { s.r with len := 0, ptr := 0, bi := 0 })) := by
  unfold bindReader
  by_cases h : s.inPresent = true ∧ s.inLen.toNat ≤ s.cfg.inCap
  · rw [if_pos h, refill_of_le (by simpa using h.2)]
    exact .inl ⟨h.1, h.2, rfl⟩
  · exact .inr ⟨h, if_neg h⟩

/-- Everything a byte-level read can do (R162 to R164): fault with nothing consumed, give the bytes at the cursor and advance
it, or stop outside IBUF. -/
theorem readBytes_cases (n : Nat) (s : State) :
    (s.r.bi ≠ 0 ∧ readBytes n s = .fault .rMisaligned) ∨
      (s.r.bi = 0 ∧ s.remaining < n ∧ readBytes n s = .fault .rOverrun) ∨
      (s.r.bi = 0 ∧ n ≤ s.remaining ∧ ∃ la,
        readBytes n s = .ok ((List.range n).map fun k => s.ibufAt (s.r.ptr.toNat + k))
          (s.setReader { s.r with ptr := s.r.ptr + zext64 n, la := la })) ∨
      (s.cfg.inCap < s.r.len.toNat ∧ ∃ e, readBytes n s = .absent e) := by
  unfold readBytes
  by_cases hbi : s.r.bi = 0
  · rw [if_neg (not_not.mpr hbi)]
    by_cases hov : s.remaining < n
    · exact .inr (.inl ⟨hbi, hov, if_pos hov⟩)
    · rw [if_neg hov]
      have hrem : s.remaining = s.r.len.toNat - s.r.ptr.toNat := rfl
      rcases ibufBytes_cases n s.r.ptr.toNat s with ⟨_, hs⟩ | ⟨hc, e, hs⟩
      · rw [hs, Res.bind_ok]
        rcases refill_cases (s.setReader { s.r with ptr := s.r.ptr + zext64 n }) with
          ⟨_, _, e⟩ | ⟨_, e⟩ | ⟨h1, h2, e, he⟩
        · exact .inr (.inr (.inl ⟨hbi, by omega, _, by rw [e]; rfl⟩))
        · exact .inr (.inr (.inl ⟨hbi, by omega, s.r.la, by rw [e]; rfl⟩))
        · simp only [setReader_cfg, setReader_r] at h1 h2
          exact .inr (.inr (.inr ⟨by omega, e, by rw [he]; rfl⟩))
      · exact .inr (.inr (.inr ⟨by omega, e, by rw [hs]; rfl⟩))
  · exact .inl ⟨hbi, if_pos hbi⟩

/-- A byte-level read that its buffer can serve completes, with the lookahead refilled from the new cursor (R162 to R164). -/
theorem readBytes_of_fits {n : Nat} {s : State} (hbi : s.r.bi = 0) (hfit : s.r.ptr.toNat + n ≤ s.r.len.toNat)
    (hcap : s.r.len.toNat ≤ s.cfg.inCap) :
    readBytes n s = .ok ((List.range n).map fun k => s.ibufAt (s.r.ptr.toNat + k))
      (s.setReader
        { s.r with
          ptr := s.r.ptr + zext64 n
          la := if s.r.ptr.toNat + n < s.r.len.toNat then s.ibufAt (s.r.ptr.toNat + n) else s.r.la }) := by
  have hrem : s.remaining = s.r.len.toNat - s.r.ptr.toNat := rfl
  have hlt := s.r.len.isLt
  have hn : (s.r.ptr + zext64 n).toNat = s.r.ptr.toNat + n := by
    rw [BitVec.toNat_add, zext64_toNat (by omega)]; exact Nat.mod_eq_of_lt (by omega)
  unfold readBytes
  rw [if_neg (not_not.mpr hbi), if_neg (by omega), ibufBytes_of_le (by omega), Res.bind_ok,
    refill_of_le (by simpa using hcap)]
  simp only [setReader_r, hn]
  rfl

/-- Everything a bit read can do (R166). -/
theorem readBit_cases (s : State) :
    (s.r.len.toNat ≤ s.r.ptr.toNat ∧ readBit s = .fault .rOverrun) ∨
      (s.r.ptr.toNat < s.r.len.toNat ∧ s.r.bi ≠ 7 ∧
        readBit s = .ok (s.r.la.getLsbD s.r.bi.toNat) (s.setReader { s.r with bi := s.r.bi + 1 })) ∨
      (s.r.ptr.toNat < s.r.len.toNat ∧ s.r.bi = 7 ∧ ∃ la,
        readBit s = .ok (s.r.la.getLsbD s.r.bi.toNat) (s.setReader { s.r with bi := 0, ptr := s.r.ptr + 1, la := la })) ∨
      (s.cfg.inCap < s.r.len.toNat ∧ ∃ e, readBit s = .absent e) := by
  unfold readBit
  by_cases hov : s.r.len.toNat ≤ s.r.ptr.toNat
  · exact .inl ⟨hov, if_pos hov⟩
  · rw [if_neg hov]
    by_cases hbi : s.r.bi = 7
    · simp only [hbi, if_true]
      rcases refill_cases (s.setReader { s.r with bi := 0, ptr := s.r.ptr + 1 }) with
        ⟨_, _, e⟩ | ⟨_, e⟩ | ⟨h1, h2, e, he⟩
      · exact .inr (.inr (.inl ⟨by omega, trivial, _, by rw [e]; rfl⟩))
      · exact .inr (.inr (.inl ⟨by omega, trivial, s.r.la, by rw [e]; rfl⟩))
      · simp only [setReader_cfg, setReader_r] at h1 h2
        exact .inr (.inr (.inr ⟨by omega, e, by rw [he]; rfl⟩))
    · simp only [hbi, if_false]
      exact .inr (.inl ⟨by omega, hbi, trivial⟩)

/-! ## What the operations of R leave alone -/

/-- `t` differs from `s` in R only. -/
def SameButReader (s t : State) : Prop := t = { s with r := t.r }

theorem SameButReader.refl (s : State) : SameButReader s s := rfl

theorem SameButReader.trans {s t u : State} (h : SameButReader s t) (k : SameButReader t u) : SameButReader s u := by
  unfold SameButReader at *; rw [k, h]

theorem bindReader_frame {s t : State} {bound : Bool} (h : bindReader s = .ok bound t) : SameButReader s t := by
  rcases bindReader_cases s with ⟨_, _, e⟩ | ⟨_, e⟩ <;> rw [e] at h <;> cases h <;> rfl

theorem readBytes_frame {n : Nat} {bs : List Byte} {s t : State} (h : readBytes n s = .ok bs t) : SameButReader s t := by
  rcases readBytes_cases n s with ⟨_, e⟩ | ⟨_, _, e⟩ | ⟨_, _, _, e⟩ | ⟨_, _, e⟩ <;> rw [e] at h <;> cases h
  rfl

theorem readBit_frame {bit : Bool} {s t : State} (h : readBit s = .ok bit t) : SameButReader s t := by
  rcases readBit_cases s with ⟨_, e⟩ | ⟨_, _, e⟩ | ⟨_, _, _, e⟩ | ⟨_, _, e⟩ <;> rw [e] at h <;> cases h <;> rfl

theorem readBits_frame {n : Nat} {bits : List Bool} {s t : State} (h : readBits n s = .ok bits t) : SameButReader s t := by
  induction n generalizing s bits with
  | zero => cases h; rfl
  | succ n ih =>
    obtain ⟨_, u, hu, h⟩ := Res.bind_eq_ok.mp h
    obtain ⟨_, v, hv, h⟩ := Res.bind_eq_ok.mp h
    cases h
    exact (readBit_frame hu).trans (ih hv)

/-! ## The invariants of R -/

/-- An unbound reader meets the invariants of R (R32). -/
theorem ReaderUnit.wf_unbound (c : Config) (la : Byte) : ReaderUnit.wf c { len := 0, ptr := 0, bi := 0, la := la } := by
  simp [ReaderUnit.wf]

theorem bindReader_wf {s t : State} {bound : Bool} (h : bindReader s = .ok bound t) : t.r.wf t.cfg := by
  rcases bindReader_cases s with ⟨_, hc, e⟩ | ⟨_, e⟩ <;> rw [e] at h <;> cases h
  · exact ⟨by simp, hc, by simp⟩
  · exact ReaderUnit.wf_unbound _ _

/-- A byte-level read keeps the invariants of R. -/
theorem readBytes_wf {n : Nat} {bs : List Byte} {s t : State} (hr : s.r.wf s.cfg) (h : readBytes n s = .ok bs t) :
    t.r.wf t.cfg := by
  obtain ⟨h1, h2, _⟩ := hr
  have hlt := s.r.len.isLt
  have hrem : s.remaining = s.r.len.toNat - s.r.ptr.toNat := rfl
  rcases readBytes_cases n s with ⟨_, e⟩ | ⟨_, _, e⟩ | ⟨hbi, hfit, _, e⟩ | ⟨_, _, e⟩ <;> rw [e] at h <;> cases h
  have hn : (s.r.ptr + zext64 n).toNat = s.r.ptr.toNat + n := by
    rw [BitVec.toNat_add, zext64_toNat (by omega)]; exact Nat.mod_eq_of_lt (by omega)
  exact ⟨by simp only [setReader_r, hn]; omega, h2, fun hne => absurd hbi hne⟩

/-- A bit read keeps the invariants of R. -/
theorem readBit_wf {bit : Bool} {s t : State} (hr : s.r.wf s.cfg) (h : readBit s = .ok bit t) : t.r.wf t.cfg := by
  obtain ⟨h1, h2, _⟩ := hr
  have hlt := s.r.len.isLt
  rcases readBit_cases s with ⟨_, e⟩ | ⟨hp, _, e⟩ | ⟨hp, _, _, e⟩ | ⟨_, _, e⟩ <;> rw [e] at h <;> cases h
  · exact ⟨h1, h2, fun _ => hp⟩
  · have hn : (s.r.ptr + 1).toNat = s.r.ptr.toNat + 1 := by
      show (s.r.ptr + 1#64).toNat = _
      rw [BitVec.toNat_add, BitVec.toNat_ofNat]; omega
    exact ⟨by simp only [setReader_r, hn]; omega, h2, fun hne => absurd rfl hne⟩

theorem readBits_wf {n : Nat} {bits : List Bool} {s t : State} (hr : s.r.wf s.cfg) (h : readBits n s = .ok bits t) :
    t.r.wf t.cfg := by
  induction n generalizing s bits with
  | zero => cases h; exact hr
  | succ n ih =>
    obtain ⟨_, u, hu, h⟩ := Res.bind_eq_ok.mp h
    obtain ⟨_, v, hv, h⟩ := Res.bind_eq_ok.mp h
    cases h
    exact ih (readBit_wf hr hu) hv

end Sys2Proof.Machine
end

