-- ==== Sys2Proof/Laws/Packing.lean ====
section
/-! SUPPORT. What PACK and UNPACK can do (spec 43_pack_unpack.md), and that they keep the invariants. -/

namespace Sys2Proof.Machine

@[simp] theorem writeBits_nil (s : State) : writeBits [] s = .ok () s := rfl

theorem writeBits_cons (bit : Bool) (bits : List Bool) (s : State) :
    writeBits (bit :: bits) s = (writeBit bit s).bind fun _ s => writeBits bits s := rfl

theorem writeBits_append (xs ys : List Bool) (s : State) :
    writeBits (xs ++ ys) s = (writeBits xs s).bind fun _ s => writeBits ys s := by
  induction xs generalizing s with
  | nil => rfl
  | cons x xs ih => simp only [List.cons_append, writeBits_cons, Res.bind_assoc, ih]

@[simp] theorem readBits_zero (s : State) : readBits 0 s = .ok [] s := rfl

theorem readBits_succ (n : Nat) (s : State) :
    readBits (n + 1) s = (readBit s).bind fun bit s => (readBits n s).bind fun rest s => .ok (bit :: rest) s := rfl

@[simp] theorem codeBits_length (width : Nat) (code : Byte) : (codeBits width code).length = width := by simp [codeBits]

theorem bitsValue_lt (bits : List Bool) : bitsValue bits < 2 ^ bits.length := by
  induction bits with
  | nil => simp [bitsValue]
  | cons b rest ih =>
    have := Bool.toNat_le b
    simp only [bitsValue, List.length_cons, Nat.pow_succ]
    omega

/-- Everything PACK's effect can do (R181): fault at the bound check, or write its bits one by one. -/
theorem packCode_cases (width : Nat) (code : Byte) (s : State) :
    ((0 < width ∧ s.w.len.toNat < s.w.ptr.toNat + ceilDiv (s.w.bi.toNat + width) 8) ∧
        packCode width code s = .fault .wOverrun) ∨
      (¬ (0 < width ∧ s.w.len.toNat < s.w.ptr.toNat + ceilDiv (s.w.bi.toNat + width) 8) ∧
        packCode width code s = writeBits (codeBits width code) s) := by
  unfold packCode
  by_cases h : 0 < width ∧ s.w.len.toNat < s.w.ptr.toNat + ceilDiv (s.w.bi.toNat + width) 8
  · exact .inl ⟨h, if_pos h⟩
  · exact .inr ⟨h, if_neg h⟩

/-- Everything UNPACK's effect can do (R183): fault at the bound check, or read its bits one by one. -/
theorem unpackCode_cases (width : Nat) (s : State) :
    ((0 < width ∧ s.r.len.toNat < s.r.ptr.toNat + ceilDiv (s.r.bi.toNat + width) 8) ∧
        unpackCode width s = .fault .rOverrun) ∨
      (¬ (0 < width ∧ s.r.len.toNat < s.r.ptr.toNat + ceilDiv (s.r.bi.toNat + width) 8) ∧
        unpackCode width s = (readBits width s).bind fun bits s => .ok (bitsValue bits) s) := by
  unfold unpackCode
  by_cases h : 0 < width ∧ s.r.len.toNat < s.r.ptr.toNat + ceilDiv (s.r.bi.toNat + width) 8
  · exact .inl ⟨h, if_pos h⟩
  · exact .inr ⟨h, if_neg h⟩

theorem packCode_eq_ok {width : Nat} {code : Byte} {s t : State} (h : packCode width code s = .ok () t) :
    writeBits (codeBits width code) s = .ok () t := by
  rcases packCode_cases width code s with ⟨_, e⟩ | ⟨_, e⟩ <;> rw [e] at h
  · cases h
  · exact h

theorem unpackCode_eq_ok {width c : Nat} {s t : State} (h : unpackCode width s = .ok c t) :
    ∃ bits, readBits width s = .ok bits t ∧ c = bitsValue bits := by
  rcases unpackCode_cases width s with ⟨_, e⟩ | ⟨_, e⟩ <;> rw [e] at h
  · cases h
  · obtain ⟨bits, u, hu, h⟩ := Res.bind_eq_ok.mp h
    cases h
    exact ⟨bits, hu, rfl⟩

theorem readBits_length {n : Nat} {bits : List Bool} {s t : State} (h : readBits n s = .ok bits t) : bits.length = n := by
  induction n generalizing s bits with
  | zero => cases h; rfl
  | succ n ih =>
    obtain ⟨_, u, _, h⟩ := Res.bind_eq_ok.mp h
    obtain ⟨_, v, hv, h⟩ := Res.bind_eq_ok.mp h
    cases h
    simp [ih hv]

theorem packCode_frame {width : Nat} {code : Byte} {s t : State} (h : packCode width code s = .ok () t) :
    SameButWriter s t := writeBits_frame (packCode_eq_ok h)

theorem packCode_wf {width : Nat} {code : Byte} {s t : State} (hw : s.w.wf s.cfg) (h : packCode width code s = .ok () t) :
    t.w.wf t.cfg := writeBits_wf hw (packCode_eq_ok h)

theorem packCode_obuf {width : Nat} {code : Byte} {s t : State} (ho : s.obuf.within s.cfg.outCap)
    (h : packCode width code s = .ok () t) : t.obuf.within t.cfg.outCap := writeBits_obuf ho (packCode_eq_ok h)

theorem unpackCode_frame {width c : Nat} {s t : State} (h : unpackCode width s = .ok c t) : SameButReader s t := by
  obtain ⟨bits, hb, _⟩ := unpackCode_eq_ok h; exact readBits_frame hb

theorem unpackCode_wf {width c : Nat} {s t : State} (hr : s.r.wf s.cfg) (h : unpackCode width s = .ok c t) :
    t.r.wf t.cfg := by
  obtain ⟨bits, hb, _⟩ := unpackCode_eq_ok h; exact readBits_wf hr hb

/-- A code read is below `2^width` (R183). -/
theorem unpackCode_lt {width c : Nat} {s t : State} (h : unpackCode width s = .ok c t) : c < 2 ^ width := by
  obtain ⟨bits, hb, rfl⟩ := unpackCode_eq_ok h
  have := bitsValue_lt bits
  rwa [readBits_length hb] at this

end Sys2Proof.Machine
end

