-- ==== Sys2Proof/Laws/Table.lean ====
section
/-! SUPPORT. What TCLR and TINS do to T, and that they keep its invariants (spec 10_state.md R30). -/

namespace Sys2Proof.Machine

@[simp] theorem TableUnit.has_clear (t : TableUnit) (key : Byte) : t.clear.has key = false := by
  simp [TableUnit.has, TableUnit.clear]

@[simp] theorem TableUnit.count_clear (t : TableUnit) : t.clear.count = 0 := rfl

/-- An insertion of a key that is present changes nothing (R122). -/
theorem TableUnit.insert_of_has {t : TableUnit} {key : Byte} (h : t.has key = true) (value : Byte) :
    t.insert key value = t := if_pos h

/-- What an insertion of an absent key does (R122). -/
theorem TableUnit.insert_of_not_has {t : TableUnit} {key : Byte} (h : t.has key = false) (value : Byte) :
    t.insert key value =
      { valid := t.valid.set key.toNat true key.isLt
        val := t.val.set key.toNat value key.isLt
        ord := t.ord.setIfInBounds t.count.toNat key
        count := t.count + 1 } := if_neg (by simp [h])

/-- After an insertion the key is present, and the others are as before. -/
theorem TableUnit.has_insert (t : TableUnit) (key value k : Byte) :
    (t.insert key value).has k = (decide (k = key) || t.has k) := by
  cases h : t.has key
  · rw [TableUnit.insert_of_not_has h]
    by_cases hk : k = key
    · subst hk; simp [TableUnit.has]
    · have : key.toNat ≠ k.toNat := fun e => hk (BitVec.eq_of_toNat_eq e.symm)
      simp [TableUnit.has, this, hk]
  · rw [TableUnit.insert_of_has h]
    by_cases hk : k = key
    · subst hk; simp [h]
    · simp [hk]

/-- After an insertion an absent key has the new value, and every other key the value it had. -/
theorem TableUnit.valueOf_insert {t : TableUnit} {key : Byte} (h : t.has key = false) (value k : Byte) :
    (t.insert key value).valueOf k = if k = key then value else t.valueOf k := by
  rw [TableUnit.insert_of_not_has h]
  by_cases hk : k = key
  · subst hk; simp [TableUnit.valueOf]
  · have : key.toNat ≠ k.toNat := fun e => hk (BitVec.eq_of_toNat_eq e.symm)
    simp [TableUnit.valueOf, this, hk]

/-- The keys of a table with no entries. -/
theorem TableUnit.keys_of_count_zero {t : TableUnit} (h : t.count = 0) : t.keys = [] := by simp [TableUnit.keys, h]

/-- A table with no valid key and no entry meets the invariants of T (R30). -/
theorem TableUnit.wf_of_empty {t : TableUnit} (hv : t.valid = Vector.replicate 256 false) (hc : t.count = 0) : t.wf := by
  have hk := TableUnit.keys_of_count_zero hc
  refine ⟨?_, ?_, ?_, ?_⟩
  · rw [hv, hc, Vector.toList_replicate, List.count_replicate]; rfl
  · rw [hk]; exact List.nodup_nil
  · intro key; rw [hk]; simp [TableUnit.has, hv]
  · rw [hc]; decide

/-- TCLR leaves a table that meets the invariants, whatever it was (R30). -/
theorem TableUnit.wf_clear (t : TableUnit) : t.clear.wf := TableUnit.wf_of_empty rfl rfl

/-- A table that meets the invariants and lacks a key is not full (R122, corner case (b)). -/
theorem TableUnit.count_lt_of_not_has {t : TableUnit} (ht : t.wf) {key : Byte} (h : t.has key = false) :
    t.count.toNat < 256 := by
  obtain ⟨hc, _, _, hle⟩ := ht
  refine Nat.lt_of_le_of_ne hle fun he => ?_
  have hall : t.valid.toList.count true = t.valid.toList.length := by rw [← hc, he]; simp
  have hmem : t.has key ∈ t.valid.toList := by
    unfold TableUnit.has
    rw [← Vector.getElem_toList (by simpa using key.isLt)]
    exact List.getElem_mem _
  have := List.count_eq_length.mp hall _ hmem
  simp [h] at this

/-- The entry count after the insertion of an absent key. -/
theorem TableUnit.count_insert {t : TableUnit} (ht : t.wf) {key : Byte} (h : t.has key = false) (value : Byte) :
    (t.insert key value).count.toNat = t.count.toNat + 1 := by
  have hlt := TableUnit.count_lt_of_not_has ht h
  rw [TableUnit.insert_of_not_has h]
  show (t.count + 1#9).toNat = _
  rw [BitVec.toNat_add, BitVec.toNat_ofNat]
  omega

/-- The keys after the insertion of an absent key: the new one comes last. -/
theorem TableUnit.keys_insert {t : TableUnit} (ht : t.wf) {key : Byte} (h : t.has key = false) (value : Byte) :
    (t.insert key value).keys = t.keys ++ [key] := by
  have hlt := TableUnit.count_lt_of_not_has ht h
  have hcount := TableUnit.count_insert ht h value
  unfold TableUnit.keys
  rw [hcount, TableUnit.insert_of_not_has h]
  simp only [Vector.toList_setIfInBounds]
  rw [List.take_add_one, List.take_set_of_le (Nat.le_refl _)]
  simp [hlt]

/-- TINS keeps the invariants of T (R30). -/
theorem TableUnit.wf_insert {t : TableUnit} (ht : t.wf) (key value : Byte) : (t.insert key value).wf := by
  cases h : t.has key
  · have hlt := TableUnit.count_lt_of_not_has ht h
    have hcount := TableUnit.count_insert ht h value
    have hkeys := TableUnit.keys_insert ht h value
    have hnot : key ∉ t.keys := fun hm => by have := (ht.2.2.1 key).mpr hm; simp [h] at this
    refine ⟨?_, ?_, ?_, ?_⟩
    · rw [hcount, TableUnit.insert_of_not_has h]
      simp only [Vector.toList_set]
      have hget : t.valid.toList[key.toNat]'(by simpa using key.isLt) = false := by
        rw [Vector.getElem_toList]; exact h
      rw [List.count_set (by simpa using key.isLt), hget, ht.1]
      simp
    · rw [hkeys]
      refine List.nodup_append.mpr ⟨ht.2.1, List.nodup_singleton _, fun a ha b hb => ?_⟩
      rw [List.mem_singleton.mp hb]
      exact fun e => hnot (e ▸ ha)
    · intro k
      rw [hkeys, TableUnit.has_insert]
      simp only [Bool.or_eq_true, decide_eq_true_eq, List.mem_append, List.mem_singleton, ht.2.2.1 k]
      tauto
    · omega
  · rwa [TableUnit.insert_of_has h]

/-- A lookup hits exactly the keys that are present (R123). -/
theorem TableUnit.lookup?_eq_some {t : TableUnit} {key v : Byte} :
    t.lookup? key = some v ↔ t.has key = true ∧ t.valueOf key = v := by
  unfold TableUnit.lookup?; split <;> simp_all

theorem TableUnit.lookup?_eq_none {t : TableUnit} {key : Byte} : t.lookup? key = none ↔ t.has key = false := by
  unfold TableUnit.lookup?; split <;> simp_all

end Sys2Proof.Machine
end

