-- ==== Sys2Proof/Laws/Macro.lean ====
section
/-! SUPPORT. What the shared pieces of the macro operations can do (spec 46_dispatch_system.md R247, R248). -/

namespace Sys2Proof.Machine

/-- Everything the prologue can do (R247): fault for ownership with nothing changed, or clear the record and the units. -/
theorem prologue_cases (s : State) :
    (s.outValid = true ∧ prologue s = .fault .ownership) ∨
      (s.outValid = false ∧ prologue s = .ok () (resetUnits ((s.setErr .noError).setTag false 0))) := by
  unfold prologue; cases s.outValid <;> simp

/-- Everything the end of a macro operation can do (R198, R222). -/
theorem finishMacro_cases (s : State) :
    (s.outValid = true ∧ finishMacro s = .fault .ownership) ∨
      (s.outValid = false ∧ s.w.bi ≠ 0 ∧ finishMacro s = .fault .wMisaligned) ∨
      (s.outValid = false ∧ s.w.bi = 0 ∧
        finishMacro s = .ok ()
          (resetUnits
            { s with outValid := true, outLen := s.w.len, w := WriterUnit.reset, err := .noError, ok := true, flag := false })) := by
  unfold finishMacro
  rcases giveBuffer_cases s with ⟨h, e⟩ | ⟨h, hb, e⟩ | ⟨h, hb, e⟩ <;> rw [e]
  · exact .inl ⟨h, rfl⟩
  · exact .inr (.inl ⟨h, hb, rfl⟩)
  · exact .inr (.inr ⟨h, hb, rfl⟩)

theorem resetUnits_macroFrame (s : State) : s.macroFrame (resetUnits s) := by simp [State.macroFrame]

theorem State.macroFrame_refl (s : State) : s.macroFrame s := by simp [State.macroFrame]

theorem State.macroFrame_trans {s t u : State} (h : s.macroFrame t) (k : t.macroFrame u) : s.macroFrame u := by
  obtain ⟨a1, a2, a3, a4, a5, a6, a7, a8, a9, a10, a11, a12⟩ := h
  obtain ⟨b1, b2, b3, b4, b5, b6, b7, b8, b9, b10, b11, b12⟩ := k
  exact ⟨b1.trans a1, b2.trans a2, b3.trans a3, b4.trans a4, b5.trans a5, b6.trans a6, b7.trans a7, b8.trans a8,
    b9.trans a9, b10.trans a10, b11.trans a11, b12.trans a12⟩

theorem SameButWriter.macroFrame {s t : State} (h : SameButWriter s t) : s.macroFrame t := by
  unfold SameButWriter at h; rw [h]; simp [State.macroFrame]

theorem SameButReader.macroFrame {s t : State} (h : SameButReader s t) : s.macroFrame t := by
  unfold SameButReader at h; rw [h]; simp [State.macroFrame]

@[simp] theorem encBytes_length (order : ByteOrder) (n v : Nat) : (encBytes order n v).length = n := by
  cases order <;> simp [encBytes, bytesLittle]

/-- W8, W16 and W64 are WBYTES of 1, 2 and 8 bytes (R144). -/
theorem put8_eq (v : Byte) (s : State) : put8 v s = writeBytes [v] s := rfl
theorem put16_eq (v : Nat) (s : State) : put16 v s = writeBytes (encBytes s.cfg.byteOrder 2 v) s := rfl
theorem put64_eq (v : Nat) (s : State) : put64 v s = writeBytes (encBytes s.cfg.byteOrder 8 v) s := rfl

/-- Acceptability spelled out (R28). -/
theorem State.acceptable_iff (s : State) :
    s.acceptable = true ↔ s.inPresent = true ∧ 1 ≤ s.inLen.toNat ∧ s.inLen.toNat ≤ s.cfg.inCap := by
  simp [State.acceptable, and_assoc]

/-- Everything an iteration of the encoder's scan can do (R193). -/
theorem scanStep_cases (s : State) :
    (s.seq.idx.toNat < s.cfg.inCap ∧ s.t.has (s.ibufAt s.seq.idx.toNat) = true ∧ scanStep s = .ok () s) ∨
      (s.seq.idx.toNat < s.cfg.inCap ∧ s.t.has (s.ibufAt s.seq.idx.toNat) = false ∧
        scanStep s = .ok ()
          (s.setTable (s.t.insert (s.ibufAt s.seq.idx.toNat) (BitVec.ofNat 8 s.t.count.toNat)))) ∨
      (s.cfg.inCap ≤ s.seq.idx.toNat ∧ ∃ e, scanStep s = .absent e) := by
  unfold scanStep
  rcases ibufByte_cases s.seq.idx.toNat s with ⟨h, e⟩ | ⟨h, e⟩ <;> rw [e]
  · rw [Res.bind_ok]
    cases hb : s.t.has (s.ibufAt s.seq.idx.toNat)
    · exact .inr (.inl ⟨h, rfl, by simp⟩)
    · exact .inl ⟨h, rfl, by simp⟩
  · exact .inr (.inr ⟨h, _, rfl⟩)

/-- Everything an iteration of the decoder's D_UNPACK can do (R221), once the code is read. -/
theorem unpackStep_of_code {s u : State} {c : Nat} (h : unpackCode s.seq.b.toNat s = .ok c u) :
    (u.t.has (BitVec.ofNat 8 c) = true ∧ unpackStep s = put8 (u.t.valueOf (BitVec.ofNat 8 c)) u) ∨
      (u.t.has (BitVec.ofNat 8 c) = false ∧ unpackStep s = .raise .invalidCode u) := by
  unfold unpackStep
  rw [h, Res.bind_ok]
  cases hb : u.t.has (BitVec.ofNat 8 c)
  · exact .inr ⟨rfl, by simp [TableUnit.lookup?, hb]⟩
  · exact .inl ⟨rfl, by simp [TableUnit.lookup?, hb]⟩

end Sys2Proof.Machine
end

