-- ==== Sys2Proof/Laws/PerInstr.lean ====
section
/-! SUPPORT. Facts about every command as syntax, one lemma for each. -/

/-- The word of a command holds its opcode, its operands in the fields of spec 30_encoding.md R92, and 0 in the reserved
field (R91). -/
def Sys2Proof.Laws.EncodedFields.Statement (i : Sys2Proof.Instr) : Prop :=
  Sys2Proof.fieldOp (Sys2Proof.encode i) = Sys2Proof.opcode i ∧ Sys2Proof.fieldA (Sys2Proof.encode i) = Sys2Proof.operandA i ∧
    Sys2Proof.fieldB (Sys2Proof.encode i) = Sys2Proof.operandB i ∧ Sys2Proof.fieldZ (Sys2Proof.encode i) = 0

theorem Sys2Proof.Laws.EncodedFields.of_word (i : Sys2Proof.Instr) : Sys2Proof.Laws.EncodedFields.Statement i := by
  simp [Sys2Proof.Laws.EncodedFields.Statement, Sys2Proof.encode]

theorem Sys2Proof.Laws.EncodedFields.sreset : Sys2Proof.Laws.EncodedFields.Statement .sreset := Sys2Proof.Laws.EncodedFields.of_word _
theorem Sys2Proof.Laws.EncodedFields.release : Sys2Proof.Laws.EncodedFields.Statement .release := Sys2Proof.Laws.EncodedFields.of_word _
theorem Sys2Proof.Laws.EncodedFields.tclr : Sys2Proof.Laws.EncodedFields.Statement .tclr := Sys2Proof.Laws.EncodedFields.of_word _
theorem Sys2Proof.Laws.EncodedFields.tins (key value : Byte) : Sys2Proof.Laws.EncodedFields.Statement (.tins key value) := Sys2Proof.Laws.EncodedFields.of_word _
theorem Sys2Proof.Laws.EncodedFields.tlook (key : Byte) : Sys2Proof.Laws.EncodedFields.Statement (.tlook key) := Sys2Proof.Laws.EncodedFields.of_word _
theorem Sys2Proof.Laws.EncodedFields.tbits : Sys2Proof.Laws.EncodedFields.Statement .tbits := Sys2Proof.Laws.EncodedFields.of_word _
theorem Sys2Proof.Laws.EncodedFields.traw : Sys2Proof.Laws.EncodedFields.Statement .traw := Sys2Proof.Laws.EncodedFields.of_word _
theorem Sys2Proof.Laws.EncodedFields.tsize : Sys2Proof.Laws.EncodedFields.Statement .tsize := Sys2Proof.Laws.EncodedFields.of_word _
theorem Sys2Proof.Laws.EncodedFields.titer (index : Byte) : Sys2Proof.Laws.EncodedFields.Statement (.titer index) := Sys2Proof.Laws.EncodedFields.of_word _
theorem Sys2Proof.Laws.EncodedFields.winit : Sys2Proof.Laws.EncodedFields.Statement .winit := Sys2Proof.Laws.EncodedFields.of_word _
theorem Sys2Proof.Laws.EncodedFields.wbytes (count : Nat) : Sys2Proof.Laws.EncodedFields.Statement (.wbytes count) := Sys2Proof.Laws.EncodedFields.of_word _
theorem Sys2Proof.Laws.EncodedFields.wbit (bit : Bool) : Sys2Proof.Laws.EncodedFields.Statement (.wbit bit) := Sys2Proof.Laws.EncodedFields.of_word _
theorem Sys2Proof.Laws.EncodedFields.wflush : Sys2Proof.Laws.EncodedFields.Statement .wflush := Sys2Proof.Laws.EncodedFields.of_word _
theorem Sys2Proof.Laws.EncodedFields.wgive : Sys2Proof.Laws.EncodedFields.Statement .wgive := Sys2Proof.Laws.EncodedFields.of_word _
theorem Sys2Proof.Laws.EncodedFields.rinit : Sys2Proof.Laws.EncodedFields.Statement .rinit := Sys2Proof.Laws.EncodedFields.of_word _
theorem Sys2Proof.Laws.EncodedFields.rd8 : Sys2Proof.Laws.EncodedFields.Statement .rd8 := Sys2Proof.Laws.EncodedFields.of_word _
theorem Sys2Proof.Laws.EncodedFields.rd16 : Sys2Proof.Laws.EncodedFields.Statement .rd16 := Sys2Proof.Laws.EncodedFields.of_word _
theorem Sys2Proof.Laws.EncodedFields.rd64 : Sys2Proof.Laws.EncodedFields.Statement .rd64 := Sys2Proof.Laws.EncodedFields.of_word _
theorem Sys2Proof.Laws.EncodedFields.rbit : Sys2Proof.Laws.EncodedFields.Statement .rbit := Sys2Proof.Laws.EncodedFields.of_word _
theorem Sys2Proof.Laws.EncodedFields.rrem : Sys2Proof.Laws.EncodedFields.Statement .rrem := Sys2Proof.Laws.EncodedFields.of_word _
theorem Sys2Proof.Laws.EncodedFields.pack (width : Nat) (code : Byte) : Sys2Proof.Laws.EncodedFields.Statement (.pack width code) := Sys2Proof.Laws.EncodedFields.of_word _
theorem Sys2Proof.Laws.EncodedFields.unpack (width : Nat) : Sys2Proof.Laws.EncodedFields.Statement (.unpack width) := Sys2Proof.Laws.EncodedFields.of_word _
theorem Sys2Proof.Laws.EncodedFields.encode : Sys2Proof.Laws.EncodedFields.Statement .encode := Sys2Proof.Laws.EncodedFields.of_word _
theorem Sys2Proof.Laws.EncodedFields.decode : Sys2Proof.Laws.EncodedFields.Statement .decode := Sys2Proof.Laws.EncodedFields.of_word _
theorem Sys2Proof.Laws.EncodedFields.compress (method : Byte) : Sys2Proof.Laws.EncodedFields.Statement (.compress method) := Sys2Proof.Laws.EncodedFields.of_word _
theorem Sys2Proof.Laws.EncodedFields.decompress : Sys2Proof.Laws.EncodedFields.Statement .decompress := Sys2Proof.Laws.EncodedFields.of_word _
end

