-- ==== Sys2Proof/Laws/Step.lean ====
section
/-! SUPPORT. What a step does, by the host action that waits (spec 10_state.md R20). -/

namespace Sys2Proof.Machine

/-- With no host action waiting, a step changes nothing (R292). -/
theorem step_of_no_action {s : State} (h : s.pending = []) : step s = .next s := by simp [step, hostStep, h]

/-- With one waiting, a step is that action. -/
theorem step_of_action {s : State} {act : HostAction} {rest : List HostAction} (h : s.pending = act :: rest) :
    step s = hostAct act { s with pending := rest } := by simp [step, hostStep, h]

/-- Everything a write of CMD can do: run the command of a legal word, fault on an illegal one, or be ignored (R272). -/
theorem issue_cases (w : CmdWord) (s : State) :
    (∃ i, decode w = .ok i ∧ issue w s = exec i s) ∨
      (∃ e, decode w = .error e ∧ s.fault = 0 ∧ issue w s = .next (takeFault .illegalCmd s)) ∨
      (∃ e, decode w = .error e ∧ s.fault ≠ 0 ∧ issue w s = .next s) := by
  unfold issue
  cases h : decode w with
  | ok i => exact .inl ⟨i, rfl, rfl⟩
  | error e =>
    by_cases hf : s.fault = 0
    · exact .inr (.inl ⟨e, rfl, hf, if_pos hf⟩)
    · exact .inr (.inr ⟨e, rfl, hf, if_neg hf⟩)

/-- Everything a host write of a register can do (R26). -/
theorem hostWriteReg_cases (no : Nat) (v : Word) (s : State) :
    (no = 4 ∧ hostWriteReg no v s = issue (v.setWidth 32) s) ∨
      (no ≠ 4 ∧ hostWriteReg no v s = .next
        { s with
          x0 := if no = 0 then v else s.x0
          x1 := if no = 1 then v else s.x1
          inPresent := if no = 8 then v.getLsbD 0 else s.inPresent
          inLen := if no = 9 then v else s.inLen }) := by
  unfold hostWriteReg
  split
  case h_3 => exact .inl ⟨rfl, rfl⟩
  all_goals refine .inr ⟨by first | decide | assumption, ?_⟩
  all_goals first | rfl | simp_all

/-- A host write of IBUF keeps its canonical form and its capacity (R64). -/
theorem hostWriteIbuf_within {s : State} (h : s.ibuf.within s.cfg.inCap) (a : Nat) (b : Byte) :
    (hostWriteIbuf a b s).ibuf.within (hostWriteIbuf a b s).cfg.inCap := by
  unfold hostWriteIbuf
  split
  · exact Memory.within_write h (by assumption) b
  · exact h

/-- What a host write of IBUF changes (R64). -/
theorem hostWriteIbuf_frame (a : Nat) (b : Byte) (s : State) :
    hostWriteIbuf a b s = { s with ibuf := (hostWriteIbuf a b s).ibuf } := by
  unfold hostWriteIbuf; split <;> rfl

/-- What a host read of a byte changes: what the host sees, and the count of free values. -/
theorem hostReadByte_frame (b : Option Byte) (s : State) :
    hostReadByte b s = { s with hostData := (hostReadByte b s).hostData, draws := (hostReadByte b s).draws } := by
  cases b <;> rfl

end Sys2Proof.Machine
end

