-- ==== Sys2Proof/Laws/Wire.lean ====
section
/-! SUPPORT. Facts about bit sequences, byte sequences and the distinct bytes of an input (spec 20_memory.md R67,
40_symbol_table.md R129, 30_encoding.md R105). -/

namespace Sys2Proof.Machine

theorem ceilDiv_eight (n : Nat) : ceilDiv n 8 = (n + 7) / 8 := rfl

/-- A position lies in the bytes that a number of bits needs exactly when its byte begins below that number. -/
theorem lt_ceilDiv_eight {q n : Nat} : q < ceilDiv n 8 ↔ 8 * q < n := by rw [ceilDiv_eight]; omega

/-- Bit `i` of the number that bits form is the `i`-th of them. -/
theorem bitsValue_testBit (bits : List Bool) (i : Nat) : (bitsValue bits).testBit i = bits.getD i false := by
  induction bits generalizing i with
  | nil => simp [bitsValue]
  | cons b rest ih =>
    cases i with
    | zero => cases b <;> simp [bitsValue, Nat.testBit_zero, Nat.add_mod]
    | succ i =>
      rw [Nat.testBit_succ, List.getD_cons_succ, ← ih]
      congr 1
      have := Bool.toNat_lt b
      simp only [bitsValue]
      omega

@[simp] theorem bytesLittle_length (n v : Nat) : (bytesLittle n v).length = n := by simp [bytesLittle]

end Sys2Proof.Machine

namespace Sys2Proof.Wire

open Sys2Proof.Machine

/-- Bit `r` of a byte made of bits is the `r`-th of them, and 0 where they are missing. -/
theorem byteOfBits_getLsbD (bits : List Bool) {r : Nat} (h : r < 8) : (byteOfBits bits).getLsbD r = bits.getD r false := by
  rw [byteOfBits, BitVec.getLsbD_ofNat, bitsValue_testBit]
  simp only [h, decide_true, Bool.true_and]
  simp [List.getD_eq_getElem?_getD, h]

@[simp] theorem bytesOfBits_length (bits : List Bool) : (bytesOfBits bits).length = ceilDiv bits.length 8 := by
  simp [bytesOfBits]

/-- Byte `q` of a bit sequence as bytes. -/
theorem bytesOfBits_getD (bits : List Bool) {q : Nat} (h : q < ceilDiv bits.length 8) :
    (bytesOfBits bits).getD q 0 = byteOfBits (bits.drop (8 * q)) := by
  simp [bytesOfBits, List.getD_eq_getElem?_getD, h]

/-- Stream bit `k` of a bit sequence as bytes is its `k`-th bit, and the padding is 0 (R67, R105). -/
theorem streamBit_bytesOfBits (bits : List Bool) (k : Nat) : streamBit (bytesOfBits bits) k = bits.getD k false := by
  unfold streamBit
  by_cases h : k / 8 < ceilDiv bits.length 8
  · rw [bytesOfBits_getD bits h, byteOfBits_getLsbD _ (Nat.mod_lt _ (by omega))]
    simp [List.getD_eq_getElem?_getD, List.getElem?_drop, show 8 * (k / 8) + k % 8 = k by omega]
  · have hk : bits.length ≤ k := by rw [lt_ceilDiv_eight] at h; omega
    have hb : (bytesOfBits bits).length ≤ k / 8 := by simpa using h
    rw [List.getD_eq_default _ _ hb, List.getD_eq_default _ _ hk]
    simp

/-- The distinct bytes of an input are its bytes. -/
theorem mem_distinct {x : List Byte} {b : Byte} : b ∈ distinct x ↔ b ∈ x := by
  induction x with
  | nil => simp [distinct]
  | cons a x ih => by_cases h : b = a <;> simp [distinct, h, ih]

/-- Each stands once. -/
theorem nodup_distinct (x : List Byte) : (distinct x).Nodup := by
  induction x with
  | nil => simp [distinct]
  | cons a x ih => exact List.nodup_cons.mpr ⟨by simp, ih.filter _⟩

/-- There are at most 256 of them. -/
theorem distinct_length_le (x : List Byte) : (distinct x).length ≤ 256 := by
  have hm : ((distinct x).map BitVec.toFin).Nodup := (nodup_distinct x).map fun a b h => BitVec.eq_of_toFin_eq h
  simpa using hm.length_le_card

theorem distinct_ne_nil {x : List Byte} (h : x ≠ []) : distinct x ≠ [] := by
  cases x with
  | nil => exact absurd rfl h
  | cons a x => simp [distinct]

/-- One more byte of input adds itself if it is new (R129). -/
theorem distinct_concat (x : List Byte) (b : Byte) :
    distinct (x ++ [b]) = if b ∈ x then distinct x else distinct x ++ [b] := by
  induction x with
  | nil => simp [distinct]
  | cons a x ih =>
    simp only [List.cons_append, distinct, ih, List.mem_cons]
    by_cases hb : b = a
    · subst hb
      by_cases hx : b ∈ x <;> simp [hx, List.filter_append]
    · by_cases hx : b ∈ x <;> simp [hx, hb, List.filter_append]

theorem entries_length (d : List Byte) : (entries d).length = 2 * d.length := by
  have h : ∀ (l : List (Byte × Nat)), (l.flatMap fun e => [BitVec.ofNat 8 e.2, e.1]).length = 2 * l.length := by
    intro l
    induction l with
    | nil => rfl
    | cons a l ih => simp only [List.flatMap_cons, List.length_append, ih, List.length_cons, List.length_nil]; omega
  simp [entries, h]

end Sys2Proof.Wire
end

