-- ==== Sys2Proof/Tests/Slice0.lean ====
section
/-! SUPPORT. The model's own tests, with expected results from spec 95_test_vectors.md (V1 to V104) or from the encoding
tables of 30_encoding.md, and a witness for the hypotheses of every obligation that has some. -/

namespace Sys2Proof.Tests

open Sys2Proof.Machine

/-! ## Ill-formed commands are refused by `Instr.wf` -/

theorem test_wf_wbytes : (Instr.wbytes 8).wf = true ∧ (Instr.wbytes 9).wf = false := by decide
theorem test_wf_pack : (Instr.pack 8 0xFF).wf = true ∧ (Instr.pack 9 0).wf = false := by decide
theorem test_wf_unpack : (Instr.unpack 8).wf = true ∧ (Instr.unpack 9).wf = false := by decide

/-! ## Every command, from a word written out by the rows of R92 (field `z`, `b`, `a`, `op`) -/

theorem test_decode_sreset : decode (0x00#8 ++ 0x00#8 ++ 0x00#8 ++ 0x01#8) = .ok .sreset := by decide
theorem test_decode_release : decode (0x00#8 ++ 0x00#8 ++ 0x00#8 ++ 0x02#8) = .ok .release := by decide
theorem test_decode_tclr : decode (0x00#8 ++ 0x00#8 ++ 0x00#8 ++ 0x10#8) = .ok .tclr := by decide
theorem test_decode_tins : decode (0x00#8 ++ 0x05#8 ++ 0x41#8 ++ 0x11#8) = .ok (.tins 0x41 0x05) := by decide
theorem test_decode_tlook : decode (0x00#8 ++ 0x00#8 ++ 0x42#8 ++ 0x12#8) = .ok (.tlook 0x42) := by decide
theorem test_decode_tbits : decode (0x00#8 ++ 0x00#8 ++ 0x00#8 ++ 0x13#8) = .ok .tbits := by decide
theorem test_decode_traw : decode (0x00#8 ++ 0x00#8 ++ 0x00#8 ++ 0x14#8) = .ok .traw := by decide
theorem test_decode_tsize : decode (0x00#8 ++ 0x00#8 ++ 0x00#8 ++ 0x15#8) = .ok .tsize := by decide
theorem test_decode_titer : decode (0x00#8 ++ 0x00#8 ++ 0xFF#8 ++ 0x16#8) = .ok (.titer 0xFF) := by decide
theorem test_decode_winit : decode (0x00#8 ++ 0x00#8 ++ 0x00#8 ++ 0x20#8) = .ok .winit := by decide
theorem test_decode_wbytes : decode (0x00#8 ++ 0x00#8 ++ 0x03#8 ++ 0x21#8) = .ok (.wbytes 3) := by decide
theorem test_decode_wbit : decode (0x00#8 ++ 0x00#8 ++ 0x01#8 ++ 0x22#8) = .ok (.wbit true) := by decide
theorem test_decode_wflush : decode (0x00#8 ++ 0x00#8 ++ 0x00#8 ++ 0x23#8) = .ok .wflush := by decide
theorem test_decode_wgive : decode (0x00#8 ++ 0x00#8 ++ 0x00#8 ++ 0x24#8) = .ok .wgive := by decide
theorem test_decode_rinit : decode (0x00#8 ++ 0x00#8 ++ 0x00#8 ++ 0x30#8) = .ok .rinit := by decide
theorem test_decode_rd8 : decode (0x00#8 ++ 0x00#8 ++ 0x00#8 ++ 0x31#8) = .ok .rd8 := by decide
theorem test_decode_rd16 : decode (0x00#8 ++ 0x00#8 ++ 0x00#8 ++ 0x32#8) = .ok .rd16 := by decide
theorem test_decode_rd64 : decode (0x00#8 ++ 0x00#8 ++ 0x00#8 ++ 0x33#8) = .ok .rd64 := by decide
theorem test_decode_rbit : decode (0x00#8 ++ 0x00#8 ++ 0x00#8 ++ 0x34#8) = .ok .rbit := by decide
theorem test_decode_rrem : decode (0x00#8 ++ 0x00#8 ++ 0x00#8 ++ 0x35#8) = .ok .rrem := by decide
theorem test_decode_pack : decode (0x00#8 ++ 0xA5#8 ++ 0x07#8 ++ 0x40#8) = .ok (.pack 7 0xA5) := by decide
theorem test_decode_unpack : decode (0x00#8 ++ 0x00#8 ++ 0x08#8 ++ 0x41#8) = .ok (.unpack 8) := by decide
theorem test_decode_encode : decode (0x00#8 ++ 0x00#8 ++ 0x00#8 ++ 0x50#8) = .ok .encode := by decide
theorem test_decode_decode : decode (0x00#8 ++ 0x00#8 ++ 0x00#8 ++ 0x51#8) = .ok .decode := by decide
theorem test_decode_compress : decode (0x00#8 ++ 0x00#8 ++ 0xA7#8 ++ 0x60#8) = .ok (.compress 0xA7) := by decide
theorem test_decode_decompress : decode (0x00#8 ++ 0x00#8 ++ 0x00#8 ++ 0x61#8) = .ok .decompress := by decide

/-- V97 to V104: illegal words. -/
theorem test_illegal_words :
    decode 0x00000000 = .error .unknownOpcode ∧ decode 0x00000017 = .error .unknownOpcode ∧
    decode 0x01000010 = .error .reservedField ∧ decode 0x00010110 = .error .reservedField ∧
    decode 0x00000101 = .error .reservedField ∧ decode 0x00010012 = .error .reservedField ∧
    decode 0x00001021 = .error .operandRange ∧ decode 0x00000222 = .error .operandRange ∧
    decode 0x00000940 = .error .operandRange ∧ decode 0x00000941 = .error .operandRange := by decide

/-- The word as the opcode table numbers its bits. -/
theorem test_decodeTableWord :
    decodeTableWord 32 0x00054111 = some (.tins 0x41 5) ∧ decodeTableWord 32 0x00000000 = none := by decide

/-! ## One step of each command -/

/-- The outcome is a next state, and it has the property. -/
def ends (o : Host.Outcome State Fault Refusal) (p : State → Bool) : Bool :=
  match o with
  | .next t => p t
  | .fault _ => false
  | .refused _ => false

/-- A block after reset with bytes in IBUF and an input descriptor for them. -/
def withInput (bytes : List Byte) : State :=
  { State.reset with
    ibuf := bytes.zipIdx.map fun e => (e.2, e.1)
    inLen := zext64 bytes.length
    inPresent := true }

/-- A block after reset with the writer at a given place. -/
def withWriter (len ptr : Word) (bi : BitVec 3) (acc : Byte) : State :=
  { State.reset with w := { len := len, ptr := ptr, bi := bi, acc := acc } }

/-- A block with bytes in IBUF and the reader bound to them, at a given place, its lookahead current. -/
def withReader (bytes : List Byte) (ptr : Nat) (bi : BitVec 3) : State :=
  { withInput bytes with r := { len := zext64 bytes.length, ptr := zext64 ptr, bi := bi, la := bytes.getD ptr 0 } }

/-- A block whose table holds the pairs of V2 and V6. -/
def withTable : State :=
  { State.reset with t := ((TableUnit.reset.insert 0x41 0).insert 0x42 0).insert 0x43 7 }

/-- A block whose output buffer of two bytes the host owns (V61). -/
def withBuffer : State :=
  { State.reset with outValid := true, outLen := 2, obuf := [(0, 0x61), (1, 0x62)], tagValid := true, tag := 1, ok := true }

/-- A faulted block (V91). -/
def withFault : State := { State.reset with fault := 0x20 }

/-- The encoded buffer of "ab" (S9, V39). -/
def encodedAb : List Byte := [1, 2, 0, 0, 0x61, 1, 0x62, 2, 0, 0, 0, 0, 0, 0, 0, 2]

/-- V96. -/
theorem test_sreset : ends (exec .sreset withBuffer) (fun t => t.statusWord == 0 && t.outLen == 0 && t.obuf == withBuffer.obuf) = true := by
  decide
/-- V95. -/
theorem test_sreset_faulted : ends (exec .sreset withFault) (fun t => t.fault == 0 && t.statusWord == 0) = true := by decide
/-- V92. -/
theorem test_release : ends (exec .release withBuffer) (fun t => t.statusWord == 0x09 && t.outLen == 0 && t.tag == 1) = true := by decide
/-- V91. -/
theorem test_release_unowned : ends (exec .release State.reset) (fun t => t.fault == 0x20 && t.statusWord == 0x10) = true := by decide
/-- V7. -/
theorem test_tclr : ends (exec .tclr withTable) (fun t => t.t.count == 0 && !t.t.has 0x41 && t.statusWord == 0x01) = true := by decide
/-- V2. -/
theorem test_tins : ends (exec (.tins 0x41 0) State.reset) (fun t => t.t.count == 1 && t.t.has 0x41 && t.statusWord == 0x03) = true := by
  decide
/-- V3. -/
theorem test_tins_present : ends (exec (.tins 0x41 5) withTable) (fun t => t.t.count == 3 && t.t.valueOf 0x41 == 0 && t.statusWord == 0x01) = true := by
  decide
/-- V3. -/
theorem test_tlook : ends (exec (.tlook 0x41) withTable) (fun t => t.x2 == 0 && t.statusWord == 0x03) = true := by decide
/-- V4. -/
theorem test_tlook_miss : ends (exec (.tlook 0x44) withTable) (fun t => t.x2 == 0 && t.statusWord == 0x01) = true := by decide
/-- V6. -/
theorem test_tbits : ends (exec .tbits withTable) (fun t => t.x2 == 2 && t.statusWord == 0x01) = true := by decide
/-- V6. -/
theorem test_traw : ends (exec .traw withTable) (fun t => t.x2 == 6) = true := by decide
/-- V6. -/
theorem test_tsize : ends (exec .tsize withTable) (fun t => t.x2 == 3) = true := by decide
/-- V6. -/
theorem test_titer : ends (exec (.titer 2) withTable) (fun t => t.x2 == 0x43 && t.x3 == 7 && t.statusWord == 0x03) = true := by decide +kernel
/-- V5. -/
theorem test_titer_at_count : ends (exec (.titer 3) withTable) (fun t => t.x2 == 0 && t.x3 == 0 && t.statusWord == 0x01) = true := by
  decide
/-- V8: the boundaries of TBITS. -/
theorem test_bitsPerEntry :
    [1, 2, 3, 4, 5, 8, 9, 16, 17, 32, 33, 64, 65, 128, 129, 255, 256].map bitsPerEntry
      = [0, 1, 2, 2, 3, 3, 4, 4, 5, 5, 6, 6, 7, 7, 8, 8, 8] := by decide
/-- V17. -/
theorem test_winit : ends (exec .winit { State.reset with x0 := 65536 }) (fun t => t.w.len == 65536 && t.statusWord == 0x01) = true := by
  decide
/-- V17. -/
theorem test_winit_too_long :
    ends (exec .winit { State.reset with x0 := 65537 }) (fun t => t.w.len == 0 && t.statusWord == 0 && t.err == .noError && t.fault == 0) = true := by
  decide
/-- V11. -/
theorem test_wbytes :
    ends (exec (.wbytes 3) { withWriter 3 0 0 0 with x1 := 0xAABBCCDD })
      (fun t => t.obuf == [(0, 0xDD), (1, 0xCC), (2, 0xBB)] && t.w.ptr == 3) = true := by decide
/-- V14. -/
theorem test_wbytes_overrun :
    ends (exec (.wbytes 2) { withWriter 1 0 0 0 with ok := true }) (fun t => t.fault == 0x02 && t.obuf == [] && t.statusWord == 0x11) = true := by
  decide
/-- V13: the eighth bit emits `8D`. -/
theorem test_wbit : ends (exec (.wbit true) (withWriter 4 0 7 0x0D)) (fun t => t.obuf == [(0, 0x8D)] && t.w.ptr == 1 && t.w.bi == 0 && t.w.acc == 0) = true := by
  decide
/-- V13: the third bit. -/
theorem test_wbit_held : ends (exec (.wbit true) (withWriter 4 0 2 0x01)) (fun t => t.w.acc == 0x05 && t.w.bi == 3 && t.obuf == []) = true := by
  decide
/-- V13: one bit is left in the accumulator. -/
theorem test_wflush : ends (exec .wflush (withWriter 4 1 1 0x01)) (fun t => t.obuf == [(1, 0x01)] && t.w.ptr == 2 && t.w.bi == 0) = true := by
  decide
/-- V19: the length handed over is the allocated one. -/
theorem test_wgive : ends (exec .wgive (withWriter 2 1 0 0)) (fun t => t.outLen == 2 && t.statusWord == 0x05 && t.w.len == 0) = true := by
  decide
/-- V20. -/
theorem test_wgive_misaligned : ends (exec .wgive { withWriter 1 0 1 1 with ok := true }) (fun t => t.fault == 0x08 && t.statusWord == 0x11) = true := by
  decide
/-- V22. -/
theorem test_rinit : ends (exec .rinit (withInput [0x34, 0x12])) (fun t => t.r.len == 2 && t.r.la == 0x34 && t.statusWord == 0x01) = true := by
  decide
/-- V26. -/
theorem test_rinit_absent : ends (exec .rinit { State.reset with inLen := 4 }) (fun t => t.r.len == 0 && t.statusWord == 0) = true := by decide
/-- P2, line 5. -/
theorem test_rd8 : ends (exec .rd8 (withReader [1, 2] 0 0)) (fun t => t.x2 == 1 && t.r.ptr == 1 && t.r.la == 2) = true := by decide
/-- V25. -/
theorem test_rd8_misaligned : ends (exec .rd8 { withReader [1, 2] 0 1 with ok := true }) (fun t => t.fault == 0x10 && t.statusWord == 0x11) = true := by
  decide
/-- V22. -/
theorem test_rd16 : ends (exec .rd16 (withReader [0x34, 0x12, 0xEF] 0 0)) (fun t => t.x2 == 0x1234 && t.r.ptr == 2 && t.r.la == 0xEF) = true := by
  decide
/-- V24. -/
theorem test_rd16_overrun : ends (exec .rd16 (withReader [1] 0 0)) (fun t => t.fault == 0x04 && t.r.ptr == 0) = true := by decide
/-- V23: the bytes under the other order. -/
theorem test_rd64_big :
    ends (exec .rd64 { withReader [0xEF, 0xCD, 0xAB, 0x89, 0x67, 0x45, 0x23, 0x01] 0 0 with cfg := { Config.reference with byteOrder := .big } })
      (fun t => t.x2 == 0xEFCDAB8967452301 && t.r.ptr == 8) = true := by decide
/-- V27 (a): the bit comes from the lookahead, not from IBUF. -/
theorem test_rbit : ends (exec .rbit { withReader [0xFF, 0] 0 0 with ibuf := [(0, 0), (1, 0)] }) (fun t => t.x2 == 1 && t.r.bi == 1) = true := by
  decide
/-- P2, line 23: inside the last byte. -/
theorem test_rrem : ends (exec .rrem (withReader encodedAb 15 2)) (fun t => t.x2 == 1 && t.statusWord == 0x01) = true := by decide
/-- V29: `PACK 7, 0x55` after five one bits. -/
theorem test_pack : ends (exec (.pack 7 0x55) (withWriter 4 1 5 0x1F)) (fun t => t.obuf == [(1, 0xBF)] && t.w.acc == 0x0A && t.w.bi == 4) = true := by
  decide
/-- V30: all or nothing. -/
theorem test_pack_overrun : ends (exec (.pack 5 0x1F) (withWriter 1 0 5 0x1F)) (fun t => t.fault == 0x02 && t.w.acc == 0x1F && t.w.bi == 5) = true := by
  decide
/-- V32: the third code crosses a byte. -/
theorem test_unpack : ends (exec (.unpack 3) (withReader [0x88, 0x46, 0x4E] 0 6)) (fun t => t.x2 == 2 && t.r.ptr == 1 && t.r.bi == 1) = true := by
  decide
/-- V32: the exhausted reader. -/
theorem test_unpack_overrun : ends (exec (.unpack 1) (withReader [0x88] 1 0)) (fun t => t.fault == 0x04 && t.r.ptr == 1) = true := by decide
/-- V39. -/
theorem test_encode :
    ends (exec .encode (withInput [0x61, 0x62]))
      (fun t => t.statusWord == 0x0D && t.outLen == 16 && t.obuf == encodedAb.zipIdx.map fun e => (e.2, e.1)) = true := by decide +kernel
/-- V55. -/
theorem test_encode_no_input : ends (exec .encode State.reset) (fun t => t.err == .invalidInput && t.statusWord == 0) = true := by
  decide +kernel
/-- V61. -/
theorem test_decode : ends (exec .decode (withInput encodedAb)) (fun t => t.statusWord == 0x0D && t.obuf == [(0, 0x61), (1, 0x62)]) = true := by
  decide +kernel
/-- V71: a code that is no key. -/
theorem test_decode_invalid_code :
    ends (exec .decode (withInput [1, 1, 0, 7, 0x61, 2, 0, 0, 0, 0, 0, 0, 0])) (fun t => t.err == .invalidCode && t.statusWord == 0x08 && t.tag == 1) = true := by
  decide +kernel
/-- V84. -/
theorem test_compress_unknown : ends (exec (.compress 2) (withInput [0x61, 0x62])) (fun t => t.err == .unknownMethod && t.tag == 2 && t.statusWord == 0x08) = true := by
  decide +kernel
/-- V83. -/
theorem test_compress : ends (exec (.compress 1) (withInput [0x61, 0x62])) (fun t => t.statusWord == 0x0D && t.outLen == 16) = true := by
  decide +kernel
/-- V88. -/
theorem test_decompress : ends (exec .decompress (withInput encodedAb)) (fun t => t.statusWord == 0x0D && t.obuf == [(0, 0x61), (1, 0x62)]) = true := by
  decide +kernel
/-- V89. -/
theorem test_decompress_unknown : ends (exec .decompress (withInput [0x09])) (fun t => t.err == .unknownMethod && t.tag == 9) = true := by
  decide +kernel
/-- V94: a faulted block ignores a command, and an illegal word. -/
theorem test_faulted : exec .tsize withFault = .next withFault ∧ issue 0 withFault = .next withFault := ⟨rfl, rfl⟩
/-- V97, by a step. -/
theorem test_step_illegal : ends (step (State.reset.withFetchWord 32 0)) (fun t => t.fault == 0x01 && t.statusWord == 0x10) = true := by decide
/-- V2, by a step. -/
theorem test_step : ends (step (State.reset.withFetchWord 32 0x00004111)) (fun t => t.t.count == 1 && t.pending == []) = true := by decide

/-! ## Witnesses: concrete states and operands that meet all the hypotheses of an obligation, or of one clause of it -/

theorem witness_DecodeOfEncodeIsTheCommand : (Instr.pack 8 0xFF).wf = true ∧ (Instr.wbytes 0).wf = true := by decide
theorem witness_EncodeOfDecodeIsTheWord : decode 0x00FF0840 = .ok (.pack 8 0xFF) := by decide
theorem witness_IllegalWordsAreThoseMatchingNoRow :
    State.reset.fault = 0 ∧ (∀ r ∈ commandRows, ¬ r.holds 0x00000921) ∧ (∃ r ∈ commandRows, r.holds 0x00000821) := by
  refine ⟨rfl, ?_, ⟨"WBYTES", 0x21, 0xFFFFF0FF, 8⟩, by decide, ?_⟩ <;> simp [commandRows, CommandRow.holds]
theorem witness_StepRunsTheCommandWritten :
    { State.reset with pending := [.writeReg 4 0x13] }.pending = .writeReg 4 0x13 :: [] ∧
    decode ((0x13 : Word).setWidth 32) = .ok .tbits ∧ 0x00FF0840 < 2 ^ 32 ∧
    decode (BitVec.ofNat 32 0x00FF0840) = .ok (.pack 8 0xFF) := ⟨rfl, by decide, by decide, by decide⟩
theorem witness_FaultedBlockAcceptsOnlySreset : withFault.fault ≠ 0 ∧ Instr.tclr ≠ .sreset ∧ (0 : CmdWord) ≠ 0x00000001 := by decide
/-- Both ways the conclusion can hold: WBIT faults on the unbound writer, and completes on a bound one. -/
theorem witness_FaultsChangeOnlyTheFaultRegister :
    Instr.wbit true ≠ .sreset ∧ (∃ t, exec (.wbit true) State.reset = .next t) ∧
    ∃ t, exec (.wbit true) (withWriter 1 0 0 0) = .next t := ⟨by decide, ⟨_, rfl⟩, ⟨_, rfl⟩⟩
theorem witness_ready : State.reset.fault = 0 := rfl
theorem witness_TinsInsertsAbsentKeysOnly :
    withTable.fault = 0 ∧ withTable.t.valid[(0x41 : Byte).toNat]'(0x41 : Byte).isLt = true ∧
    withTable.t.valid[(0x44 : Byte).toNat]'(0x44 : Byte).isLt = false ∧ withTable.t.count.toNat < 256 ∧
    { TableUnit.reset with count := 255 }.valid[(0xFF : Byte).toNat]'(0xFF : Byte).isLt = false ∧
    { TableUnit.reset with count := 255 }.count.toNat < 256 := by decide
theorem witness_TinsInsertsAbsentKeysOnly_count : withTable.t.wf :=
  TableUnit.wf_insert (TableUnit.wf_insert (TableUnit.wf_insert (TableUnit.wf_of_empty rfl rfl) _ _) _ _) _ _
theorem witness_TiterReadsInInsertionOrder :
    withTable.fault = 0 ∧ (2 : Byte).toNat < withTable.t.count.toNat ∧ withTable.t.ord[(2 : Byte).toNat]'(2 : Byte).isLt = 0x43 ∧
    withTable.t.count.toNat ≤ (3 : Byte).toNat := by decide +kernel
theorem witness_ScanBuildsADenseTable :
    withTable.t.clear.count = 0 ∧ withTable.t.clear.valid = Vector.replicate 256 false ∧ [(0x61 : Byte)] ≠ [] ∧
    { State.reset with seq := { Sequencer.reset with l := 65536 } }.seq.l.toNat ≤ State.reset.cfg.inCap :=
  ⟨rfl, rfl, by decide, by decide⟩
theorem witness_WinitBindsOrFails :
    State.reset.outValid = false ∧ State.reset.cfg.outCap < (65537 : Word).toNat ∧ (65536 : Word).toNat ≤ State.reset.cfg.outCap ∧
    withBuffer.fault = 0 ∧ withBuffer.outValid = true := by decide
theorem witness_WbytesStoresTheSourceBytes :
    (8 : Nat) ≤ 8 ∧ (withWriter 8 0 0 0).fault = 0 ∧ (withWriter 8 0 0 0).w.len.toNat ≤ (withWriter 8 0 0 0).cfg.outCap ∧
    (withWriter 8 0 0 0).w.bi = 0 ∧ (withWriter 8 0 0 0).w.ptr.toNat + 8 ≤ (withWriter 8 0 0 0).w.len.toNat ∧
    (withWriter 7 0 0 0).w.len.toNat < (withWriter 7 0 0 0).w.ptr.toNat + 8 ∧ (withWriter 8 0 1 1).w.bi ≠ 0 := by decide
theorem witness_WbitFillsTheAccumulator :
    (withWriter 1 1 0 0).fault = 0 ∧ (withWriter 1 1 0 0).w.len.toNat ≤ (withWriter 1 1 0 0).cfg.outCap ∧
    (withWriter 1 1 0 0).w.len.toNat ≤ (withWriter 1 1 0 0).w.ptr.toNat ∧
    (withWriter 1 0 7 0x7F).w.ptr.toNat < (withWriter 1 0 7 0x7F).w.len.toNat ∧ (withWriter 1 0 7 0x7F).w.bi = 7 ∧
    (withWriter 1 0 6 0x3F).w.bi ≠ 7 := by decide
theorem witness_WflushEmitsThePartialByte :
    (withWriter 1 0 7 0x7F).fault = 0 ∧ (withWriter 1 0 7 0x7F).w.wf (withWriter 1 0 7 0x7F).cfg ∧ (withWriter 1 0 7 0x7F).w.bi ≠ 0 ∧
    (withWriter 1 1 0 0).w.wf (withWriter 1 1 0 0).cfg ∧ (withWriter 1 1 0 0).w.bi = 0 := by decide
theorem witness_WgiveHandsTheBufferOver :
    (withWriter 2 1 0 0).fault = 0 ∧ (withWriter 2 1 0 0).outValid = false ∧ (withWriter 2 1 0 0).w.bi = 0 ∧
    (withWriter 2 1 1 1).w.bi ≠ 0 ∧ withBuffer.outValid = true := by decide
theorem witness_BitWritingPassClosedForm :
    (withWriter 3 1 0 0).fault = 0 ∧ (withWriter 3 1 0 0).w.wf (withWriter 3 1 0 0).cfg ∧ (withWriter 3 1 0 0).w.bi = 0 ∧
    (withWriter 3 1 0 0).w.ptr.toNat + ceilDiv (List.replicate 9 true).length 8 ≤ (withWriter 3 1 0 0).w.len.toNat := by decide
theorem witness_RinitBindsTheInput :
    (withInput [7]).fault = 0 ∧ (withInput [7]).inPresent = true ∧ (withInput [7]).inLen.toNat ≤ (withInput [7]).cfg.inCap ∧
    State.reset.inPresent = false ∧ State.reset.cfg.inCap < (65537 : Word).toNat := by decide
theorem witness_ByteReadsTakeTheBytesAtTheCursor :
    (Instr.rd64, 8) ∈ [(Instr.rd8, 1), (Instr.rd16, 2), (Instr.rd64, 8)] ∧ (withReader encodedAb 8 0).fault = 0 ∧
    (withReader encodedAb 8 0).r.len.toNat ≤ (withReader encodedAb 8 0).cfg.inCap ∧ (withReader encodedAb 8 0).r.bi = 0 ∧
    (withReader encodedAb 8 0).r.ptr.toNat + 8 ≤ (withReader encodedAb 8 0).r.len.toNat ∧
    (withReader encodedAb 9 0).r.len.toNat < (withReader encodedAb 9 0).r.ptr.toNat + 8 ∧
    (withReader encodedAb 8 1).r.bi ≠ 0 := by decide
theorem witness_RremReportsTheRemainder :
    (withReader [7] 1 0).fault = 0 ∧ (withReader [7] 1 0).r.ptr.toNat ≤ (withReader [7] 1 0).r.len.toNat := by decide
theorem witness_RbitTakesTheLookaheadBit :
    (withReader [7] 0 7).fault = 0 ∧ (withReader [7] 0 7).r.len.toNat ≤ (withReader [7] 0 7).cfg.inCap ∧
    (withReader [7] 0 7).r.ptr.toNat < (withReader [7] 0 7).r.len.toNat ∧ (withReader [7] 0 7).r.bi = 7 ∧
    (withReader [7] 0 6).r.bi ≠ 7 ∧ (withReader [7] 1 0).r.len.toNat ≤ (withReader [7] 1 0).r.ptr.toNat := by decide
theorem witness_BitReadingPassClosedForm :
    (withReader [7, 8] 1 0).fault = 0 ∧ (withReader [7, 8] 1 0).r.wf (withReader [7, 8] 1 0).cfg ∧ (withReader [7, 8] 1 0).r.bi = 0 ∧
    (withReader [7, 8] 1 0).r.la = (withReader [7, 8] 1 0).ibufAt (withReader [7, 8] 1 0).r.ptr.toNat ∧
    (withReader [7, 8] 1 0).r.ptr.toNat + ceilDiv 8 8 ≤ (withReader [7, 8] 1 0).r.len.toNat := by decide
/-- PACK at the last bit that fits, and one bit beyond. -/
theorem witness_PackIsASeriesOfWbits :
    (3 : Nat) ≤ 8 ∧ (withWriter 1 0 5 0x1F).fault = 0 ∧ (withWriter 1 0 5 0x1F).w.wf (withWriter 1 0 5 0x1F).cfg ∧
    ¬ (0 < 3 ∧ (withWriter 1 0 5 0x1F).w.len.toNat < (withWriter 1 0 5 0x1F).w.ptr.toNat + ceilDiv ((withWriter 1 0 5 0x1F).w.bi.toNat + 3) 8) ∧
    (withWriter 1 0 5 0x1F).w.len.toNat < (withWriter 1 0 5 0x1F).w.ptr.toNat + ceilDiv ((withWriter 1 0 5 0x1F).w.bi.toNat + 4) 8 := by
  decide
theorem witness_PackIsABarrelShift :
    (withWriter 1 0 5 0x1F).fault = 0 ∧ (withWriter 1 0 5 0x1F).w.wf (withWriter 1 0 5 0x1F).cfg ∧
    (withWriter 1 0 5 0x1F).w.ptr.toNat + ceilDiv ((withWriter 1 0 5 0x1F).w.bi.toNat + 3) 8 ≤ (withWriter 1 0 5 0x1F).w.len.toNat ∧
    8 ≤ (withWriter 1 0 5 0x1F).w.bi.toNat + 3 ∧ (withWriter 1 0 5 0x1F).w.bi.toNat + 2 < 8 := by decide
theorem witness_UnpackIsASeriesOfRbits :
    (3 : Nat) ≤ 8 ∧ (withReader [7] 0 5).fault = 0 ∧ (withReader [7] 0 5).r.wf (withReader [7] 0 5).cfg ∧
    ¬ (0 < 3 ∧ (withReader [7] 0 5).r.len.toNat < (withReader [7] 0 5).r.ptr.toNat + ceilDiv ((withReader [7] 0 5).r.bi.toNat + 3) 8) ∧
    (withReader [7] 0 5).r.len.toNat < (withReader [7] 0 5).r.ptr.toNat + ceilDiv ((withReader [7] 0 5).r.bi.toNat + 4) 8 := by decide
theorem witness_UnpackIsABarrelShift :
    (withReader [7, 8] 0 5).fault = 0 ∧ (withReader [7, 8] 0 5).r.wf (withReader [7, 8] 0 5).cfg ∧
    (withReader [7, 8] 0 5).r.la = (withReader [7, 8] 0 5).ibufAt (withReader [7, 8] 0 5).r.ptr.toNat ∧
    (withReader [7, 8] 0 5).r.ptr.toNat + ceilDiv ((withReader [7, 8] 0 5).r.bi.toNat + 8) 8 ≤ (withReader [7, 8] 0 5).r.len.toNat := by
  decide
theorem witness_PackedCodesFormTheStream :
    (withWriter 3 0 0 0).fault = 0 ∧ (withWriter 3 0 0 0).w.wf (withWriter 3 0 0 0).cfg ∧ (withWriter 3 0 0 0).w.bi = 0 ∧
    (withWriter 3 0 0 0).w.ptr.toNat + ceilDiv (3 * [0, 1, 2, 3, 4, 4, 3, 2].length) 8 ≤ (withWriter 3 0 0 0).w.len.toNat := by decide
/-- The hypotheses of every statement about a macro operation on an acceptable input, and both outcomes of ENCODE. -/
theorem witness_acceptable :
    (withInput [0x61, 0x62]).cfg.wf ∧ (withInput [0x61, 0x62]).fault = 0 ∧ (withInput [0x61, 0x62]).outValid = false ∧
    (withInput [0x61, 0x62]).inPresent = true ∧ 1 ≤ (withInput [0x61, 0x62]).inLen.toNat ∧
    (withInput [0x61, 0x62]).inLen.toNat ≤ (withInput [0x61, 0x62]).cfg.inCap ∧
    (Wire.enc Config.reference [0x61, 0x62]).length ≤ Config.reference.outCap ∧
    (15 : Nat) < (Wire.enc Config.reference [0x61, 0x62]).length ∧ (2 : Byte) ≠ (withInput [0x61, 0x62]).cfg.methodTag := by decide
/-- ENCODE's other outcome: an OBUF one byte short of the encoded buffer. -/
theorem witness_EncodeWritesTheEncodedBuffer_tooLong :
    let s := { withInput [0x61, 0x62] with cfg := { Config.reference with outCap := 15 } }
    s.cfg.wf ∧ s.fault = 0 ∧ s.outValid = false ∧ s.inPresent = true ∧ 1 ≤ s.inLen.toNat ∧ s.inLen.toNat ≤ s.cfg.inCap ∧
    s.cfg.outCap < (Wire.enc s.cfg s.input).length := by decide +kernel
/-- The outcomes of DECODE: a buffer that decodes, and one with an unknown tag. -/
theorem witness_DecodeFollowsTheVerdict :
    Wire.verdict Config.reference (withInput encodedAb).input = .ok [0x61, 0x62] ∧
    Wire.verdict Config.reference (withInput [0x09]).input = .error .unknownMethod := ⟨rfl, rfl⟩
/-- An input that encodes, and a block of the same instance that holds the encoded buffer. -/
theorem witness_RoundTripRestoresTheInput :
    ∃ t, exec .encode (withInput [0x61, 0x62]) = .next t ∧ t.ok = true ∧ t.outLen.toNat ≤ (withInput [0x61, 0x62]).cfg.inCap ∧
      (withInput encodedAb).cfg = (withInput [0x61, 0x62]).cfg ∧ (withInput encodedAb).fault = 0 ∧
      (withInput encodedAb).outValid = false ∧ (withInput encodedAb).inPresent = true ∧ (withInput encodedAb).inLen = t.outLen ∧
      ∀ a, a < t.outLen.toNat → (withInput encodedAb).ibufAt a = t.obufAt a :=
  ⟨_, rfl, rfl, by decide +kernel, rfl, rfl, rfl, rfl, rfl, by decide +kernel⟩
theorem witness_EncodedBuffersDecode :
    (withInput encodedAb).cfg.wf ∧ (withInput encodedAb).fault = 0 ∧ (withInput encodedAb).outValid = false ∧
    1 ≤ [0x61, (0x62 : Byte)].length ∧ [0x61, (0x62 : Byte)].length ≤ (withInput encodedAb).cfg.inCap ∧
    [0x61, (0x62 : Byte)].length ≤ (withInput encodedAb).cfg.outCap ∧
    (Wire.enc (withInput encodedAb).cfg [0x61, 0x62]).length ≤ (withInput encodedAb).cfg.inCap ∧
    (Wire.enc (withInput encodedAb).cfg [0x61, 0x62]).length ≤ (withInput encodedAb).cfg.outCap ∧
    (withInput encodedAb).inPresent = true ∧ (withInput encodedAb).input = Wire.enc (withInput encodedAb).cfg [0x61, 0x62] := by
  decide +kernel
/-- One buffer for each of the four clauses, the prefixes at the end of the header, and a block that holds it. -/
theorem witness_TruncatedAndExtendedBuffersAreRejected :
    [0x61, 0x62] ≠ ([] : List Byte) ∧ [0x61, (0x62 : Byte)].length < 2 ^ 64 ∧ (0x7F : Byte) ≠ Config.reference.methodTag ∧
    (1 ≤ 14 ∧ 14 < 11 + 2 * (Wire.distinct [0x61, 0x62]).length) ∧
    (11 + 2 * (Wire.distinct [0x61, 0x62]).length ≤ 15 ∧ 15 < (Wire.enc Config.reference [0x61, 0x62]).length) ∧
    [0] ≠ ([] : List Byte) ∧
    ∀ e ∈ [0x7F :: (Wire.enc Config.reference [0x61, 0x62]).drop 1, (Wire.enc Config.reference [0x61, 0x62]).take 14,
        (Wire.enc Config.reference [0x61, 0x62]).take 15, Wire.enc Config.reference [0x61, 0x62] ++ [0]],
      (withInput e).cfg = Config.reference ∧ (withInput e).fault = 0 ∧ (withInput e).outValid = false ∧
      (withInput e).inPresent = true ∧ (withInput e).inLen.toNat ≤ (withInput e).cfg.inCap ∧ (withInput e).input = e := by
  decide +kernel
theorem witness_MacrosRejectUnacceptableInput :
    isMacro .decompress = true ∧ State.reset.fault = 0 ∧ State.reset.outValid = false ∧
    ¬ (State.reset.inPresent = true ∧ 1 ≤ State.reset.inLen.toNat ∧ State.reset.inLen.toNat ≤ State.reset.cfg.inCap) := by decide
/-- Both clauses: a buffer the host owns, and none. -/
theorem witness_MacrosFaultOnlyForOwnership :
    isMacro .encode = true ∧ withBuffer.cfg.wf ∧ withBuffer.fault = 0 ∧ withBuffer.outValid = true ∧
    (∃ t, exec .encode withBuffer = .next t) ∧ State.reset.cfg.wf ∧ State.reset.outValid = false ∧
    ∃ t, exec .encode State.reset = .next t := ⟨rfl, by decide, rfl, rfl, ⟨_, rfl⟩, by decide, rfl, ⟨_, rfl⟩⟩
theorem witness_MacrosLeaveTheUnitsAtReset :
    isMacro .decode = true ∧ (withInput encodedAb).cfg.wf ∧ (withInput encodedAb).fault = 0 ∧
    (withInput encodedAb).outValid = false ∧ ∃ t, exec .decode (withInput encodedAb) = .next t :=
  ⟨rfl, by decide, rfl, rfl, ⟨_, rfl⟩⟩
theorem witness_ReleaseReturnsTheBuffer : withBuffer.fault = 0 ∧ withBuffer.outValid = true ∧ State.reset.outValid = false := by decide
theorem witness_hostActions :
    { State.reset with pending := [.hardReset] }.pending = .hardReset :: [] ∧
    { State.reset with pending := [.readReg 14] }.pending = .readReg 14 :: [] ∧
    ({ State.reset with pending := [.writeReg 9 5] }.pending = .writeReg 9 5 :: [] ∧ 9 ≠ 4) ∧ 14 < 15 ∧
    ({ State.reset with pending := [.writeIbuf 65535 5] }.pending = .writeIbuf 65535 5 :: [] ∧ 65535 < State.reset.cfg.inCap) ∧
    State.reset.cfg.inCap ≤ 65536 ∧ { State.reset with pending := [.readIbuf 65536] }.pending = .readIbuf 65536 :: [] ∧
    { State.reset with pending := [.readIbuf 65535] }.pending = .readIbuf 65535 :: [] := by decide
theorem witness_SresetRestoresTheResetState : fieldOp 0x00000101 = 0x01 ∧ (0x00000101 : CmdWord) ≠ 0x00000001 := by decide
theorem witness_HostReadsOfObuf :
    { withBuffer with pending := [.readObuf 1] }.pending = .readObuf 1 :: [] ∧ withBuffer.outValid = true ∧
    1 < withBuffer.outLen.toNat ∧ withBuffer.outLen.toNat ≤ 2 ∧ State.reset.outValid = false := by decide
theorem witness_CommandsNeverWriteTheInput : Instr.titer 0 ≠ .sreset ∧ ∃ t, exec (.titer 0) withTable = .next t := ⟨by decide, ⟨_, rfl⟩⟩
theorem witness_OnlyMacrosWriteTheRecord :
    isMacro .release = false ∧ Instr.release ≠ .sreset ∧ ∃ t, exec .release withBuffer = .next t := ⟨rfl, by decide, ⟨_, rfl⟩⟩

/-- `withBuffer`, with a command waiting, meets the invariant: a state of a run (V61) in which the host owns a buffer. -/
theorem witness_invariant (act : HostAction) : Inv { withBuffer with pending := [act] } where
  cfg := by show Config.reference.wf; decide
  ibuf := by show Memory.within 65536 []; decide
  obuf := by show Memory.within 65536 [(0, 0x61), (1, 0x62)]; decide
  table := TableUnit.wf_of_empty rfl rfl
  writer := by show WriterUnit.reset.wf Config.reference; decide
  reader := by show ReaderUnit.reset.wf Config.reference; decide
  sequencer := rfl
  oneFault := .inl rfl
  noBuffer := fun h => absurd h (show ¬ true = false by decide)
  owned := fun _ => ⟨show (2 : Word).toNat ≤ 65536 by decide, rfl⟩
  noTag := fun h => absurd h (show ¬ true = false by decide)
theorem witness_OwnedBufferIsNotMutated :
    Inv { withBuffer with pending := [.readObuf 0] } ∧ { withBuffer with pending := [.readObuf 0] }.outValid = true ∧
    Instr.tclr ≠ .release ∧ Instr.tclr ≠ .sreset ∧ ∃ t, exec .tclr { withBuffer with pending := [.readObuf 0] } = .next t :=
  ⟨witness_invariant _, rfl, by decide, by decide, ⟨_, rfl⟩⟩
theorem witness_EveryStepKeepsTheInvariant :
    Inv { withBuffer with pending := [.writeReg 4 2] } ∧ ∃ t, step { withBuffer with pending := [.writeReg 4 2] } = .next t :=
  ⟨witness_invariant _, ⟨_, rfl⟩⟩
theorem witness_ByteOrdersFollowTheFormulas : [1, 2, 3, 4, 5, 6, 7, (8 : Byte)].length = 8 ∧ 65535 < 256 ^ 2 := by decide

end Sys2Proof.Tests
end

section
/-! SUPPORT. Pieces of a command that never address a missing byte (log 10): the predicate, and how it composes. -/

namespace Sys2Proof.Machine

variable {α β : Type} {P Q R : State → Prop}

/-- A piece of a command addresses no missing byte, and leaves a state with the property `Q` if it goes on. Its faults and
failures are free: they end the command in a next state (R268, R272). -/
structure Res.Safe (r : Res α) (Q : State → Prop) : Prop where
  not_absent : ∀ e, r ≠ .absent e
  post : ∀ a t, r = .ok a t → Q t

theorem Res.safe_ok {a : α} {s : State} (h : Q s) : (Res.ok a s).Safe Q :=
  ⟨fun _ => nofun, fun _ _ e => by cases e; exact h⟩

theorem Res.safe_fault (f : FaultKind) : (Res.fault f : Res α).Safe Q := ⟨fun _ => nofun, fun _ _ => nofun⟩

theorem Res.safe_raise (k : ErrKind) (s : State) : (Res.raise k s : Res α).Safe Q := ⟨fun _ => nofun, fun _ _ => nofun⟩

theorem Res.Safe.mono {r : Res α} (h : r.Safe P) (hPQ : ∀ t, P t → Q t) : r.Safe Q :=
  ⟨h.not_absent, fun a t e => hPQ t (h.post a t e)⟩

/-- Safe pieces compose when the second is safe from every state the first can leave. -/
theorem Res.Safe.bind {r : Res α} {k : α → State → Res β} (hr : r.Safe Q) (hk : ∀ a s, Q s → (k a s).Safe R) :
    (r.bind k).Safe R where
  not_absent e h := by
    rcases Res.bind_eq_absent.mp h with h | ⟨a, s, hs, h⟩
    · exact hr.not_absent e h
    · exact (hk a s (hr.post a s hs)).not_absent e h
  post b t h := by
    obtain ⟨a, s, hs, h⟩ := Res.bind_eq_ok.mp h
    exact (hk a s (hr.post a s hs)).post b t h

/-- A safe piece followed by register writes alone, as every unit-level command ends. -/
theorem Res.Safe.finish {r : Res α} (hr : r.Safe Q) (f : α → State → State) :
    (r.bind fun a s => .ok () (f a s)).Safe fun _ => True :=
  hr.bind fun _ _ _ => Res.safe_ok trivial

/-- The loop rule for safety: a loop is safe when each iteration, from the property that the loop keeps, is. -/
theorem forIdx_safe {body : State → Res Unit} {todo i : Nat} {s : State} (hs : P s)
    (hbody : ∀ j u, j < i + todo → P u → (body (u.setSeq { u.seq with idx := zext64 j })).Safe P) :
    (forIdx body todo i s).Safe P := by
  induction todo generalizing i s with
  | zero => exact Res.safe_ok hs
  | succ n ih =>
    rw [forIdx_succ]
    exact (hbody i s (by omega) hs).bind fun _ u hu => ih hu fun j v hj => hbody j v (by omega)

/-- A command with a safe body gives a next state: its end, its fault (R272) or its failure exit (R268). -/
theorem command_gives_next {body : State → Res Unit} {s : State} (h : (body s).Safe fun _ => True) :
    ∃ t, command body s = .next t := by
  cases hc : command body s with
  | next t => exact ⟨t, rfl⟩
  | fault e => exact absurd (command_eq_fault.mp hc).2 (h.not_absent e)
  | refused _ => exact absurd hc command_ne_refused

end Sys2Proof.Machine
end

section
/-! SUPPORT. The operations of W and R are safe while their buffers lie inside OBUF and IBUF (spec 10_state.md R31, R32). -/

namespace Sys2Proof.Machine

/-! ## The writer -/

theorem writeBytes_ne_absent {s : State} (hw : s.w.wf s.cfg) (bs : List Byte) (e : Fault) : writeBytes bs s ≠ .absent e := by
  obtain ⟨-, hlen, -, -⟩ := hw
  rcases writeBytes_cases bs s with ⟨-, h⟩ | ⟨-, -, h⟩ | ⟨-, -, -, h⟩ | ⟨hcap, hfit, -⟩
  · simp [h]
  · simp [h]
  · simp [h]
  · omega

theorem writeBit_ne_absent {s : State} (hw : s.w.wf s.cfg) (bit : Bool) (e : Fault) : writeBit bit s ≠ .absent e := by
  obtain ⟨-, hlen, -, -⟩ := hw
  rcases writeBit_cases bit s with ⟨-, h⟩ | ⟨-, -, h⟩ | ⟨-, -, -, h⟩ | ⟨hfit, hcap, -⟩
  · simp [h]
  · simp [h]
  · simp [h]
  · omega

theorem writeBits_ne_absent {bits : List Bool} {s : State} (hw : s.w.wf s.cfg) (e : Fault) :
    writeBits bits s ≠ .absent e := by
  induction bits generalizing s with
  | nil => simp
  | cons bit bits ih =>
    rw [writeBits_cons, Ne, Res.bind_eq_absent]
    rintro (h | ⟨_, u, hu, h⟩)
    · exact writeBit_ne_absent hw bit e h
    · exact ih (writeBit_wf hw hu) h

theorem packCode_ne_absent {s : State} (hw : s.w.wf s.cfg) (width : Nat) (code : Byte) (e : Fault) :
    packCode width code s ≠ .absent e := by
  rcases packCode_cases width code s with ⟨-, h⟩ | ⟨-, h⟩ <;> rw [h]
  · simp
  · exact writeBits_ne_absent hw e

/-- A partial byte waits only below `W.len` (R31 (b)), so WFLUSH has a byte to write it to. -/
theorem flushBits_ne_absent {s : State} (hw : s.w.wf s.cfg) (e : Fault) : flushBits s ≠ .absent e := by
  obtain ⟨-, hlen, hpartial, -⟩ := hw
  rcases flushBits_cases s with ⟨-, h⟩ | ⟨-, -, h⟩ | ⟨hbi, hcap, -⟩
  · simp [h]
  · simp [h]
  · have := hpartial hbi
    omega

/-- What a piece that works on W keeps: the parameters, R and the latches, with W within its invariants (R31). -/
structure WriterMoved (s t : State) : Prop where
  cfg : t.cfg = s.cfg
  reader : t.r = s.r
  seq : t.seq = s.seq
  writer : t.w.wf t.cfg

theorem SameButWriter.writerMoved {s t : State} (h : SameButWriter s t) (hw : t.w.wf t.cfg) : WriterMoved s t := by
  unfold SameButWriter at h
  exact ⟨by rw [h], by rw [h], by rw [h], hw⟩

theorem WriterMoved.trans {s t u : State} (h : WriterMoved s t) (k : WriterMoved t u) : WriterMoved s u :=
  ⟨k.cfg.trans h.cfg, k.reader.trans h.reader, k.seq.trans h.seq, k.writer⟩

theorem writeBytes_safe {s : State} (hw : s.w.wf s.cfg) (bs : List Byte) : (writeBytes bs s).Safe (WriterMoved s) :=
  ⟨writeBytes_ne_absent hw bs, fun _ _ h => (writeBytes_frame h).writerMoved (writeBytes_wf hw h)⟩

theorem writeBit_safe {s : State} (hw : s.w.wf s.cfg) (bit : Bool) : (writeBit bit s).Safe (WriterMoved s) :=
  ⟨writeBit_ne_absent hw bit, fun _ _ h => (writeBit_frame h).writerMoved (writeBit_wf hw h)⟩

theorem packCode_safe {s : State} (hw : s.w.wf s.cfg) (width : Nat) (code : Byte) :
    (packCode width code s).Safe (WriterMoved s) :=
  ⟨packCode_ne_absent hw width code, fun _ _ h => (packCode_frame h).writerMoved (packCode_wf hw h)⟩

theorem flushBits_safe {s : State} (hw : s.w.wf s.cfg) : (flushBits s).Safe (WriterMoved s) :=
  ⟨flushBits_ne_absent hw, fun _ _ h => (flushBits_frame h).writerMoved (flushBits_wf hw h)⟩

theorem allocate_safe {s : State} (hc : s.cfg.wf) (size : Nat) : (allocate size s).Safe (WriterMoved s) := by
  obtain ⟨-, -, -, hout⟩ := hc
  have hwf : ∀ bound t, allocate size s = .ok bound t → t.w.wf t.cfg := fun _ _ => allocate_wf hout
  rcases allocate_cases size s with ⟨-, h⟩ | ⟨-, -, h⟩ | ⟨-, -, h⟩ <;> rw [h]
  · exact Res.safe_fault _
  · exact Res.safe_ok ⟨rfl, rfl, rfl, hwf _ _ h⟩
  · exact Res.safe_ok ⟨rfl, rfl, rfl, hwf _ _ h⟩

/-- A hand-over addresses no byte (R148). -/
theorem giveBuffer_safe (s : State) : (giveBuffer s).Safe fun _ => True := by
  rcases giveBuffer_cases s with ⟨-, h⟩ | ⟨-, -, h⟩ | ⟨-, -, h⟩ <;> rw [h]
  · exact Res.safe_fault _
  · exact Res.safe_fault _
  · exact Res.safe_ok trivial

/-! ## The reader -/

theorem readBytes_ne_absent {s : State} (hr : s.r.wf s.cfg) (n : Nat) (e : Fault) : readBytes n s ≠ .absent e := by
  obtain ⟨-, hlen, -⟩ := hr
  rcases readBytes_cases n s with ⟨-, h⟩ | ⟨-, -, h⟩ | ⟨-, -, _, h⟩ | ⟨hcap, -⟩
  · simp [h]
  · simp [h]
  · simp [h]
  · omega

theorem readBit_ne_absent {s : State} (hr : s.r.wf s.cfg) (e : Fault) : readBit s ≠ .absent e := by
  obtain ⟨-, hlen, -⟩ := hr
  rcases readBit_cases s with ⟨-, h⟩ | ⟨-, -, h⟩ | ⟨-, -, _, h⟩ | ⟨hcap, -⟩
  · simp [h]
  · simp [h]
  · simp [h]
  · omega

theorem readBits_ne_absent {n : Nat} {s : State} (hr : s.r.wf s.cfg) (e : Fault) : readBits n s ≠ .absent e := by
  induction n generalizing s with
  | zero => simp
  | succ n ih =>
    rw [readBits_succ, Ne, Res.bind_eq_absent]
    rintro (h | ⟨bit, u, hu, h⟩)
    · exact readBit_ne_absent hr e h
    · rcases Res.bind_eq_absent.mp h with h | ⟨_, _, _, h⟩
      · exact ih (readBit_wf hr hu) h
      · exact nomatch h

theorem unpackCode_ne_absent {s : State} (hr : s.r.wf s.cfg) (width : Nat) (e : Fault) : unpackCode width s ≠ .absent e := by
  rcases unpackCode_cases width s with ⟨-, h⟩ | ⟨-, h⟩ <;> rw [h]
  · simp
  · rw [Ne, Res.bind_eq_absent]
    rintro (h | ⟨_, _, _, h⟩)
    · exact readBits_ne_absent hr e h
    · exact nomatch h

/-- A binding reads inside IBUF whatever R was bound to, since RINIT tests the length against `IN_CAP` first (R161). -/
theorem bindReader_ne_absent (s : State) (e : Fault) : bindReader s ≠ .absent e := by
  rcases bindReader_cases s with ⟨-, -, h⟩ | ⟨-, h⟩ <;> simp [h]

/-! ## Both cursors -/

/-- The part of `Inv` that keeps every access inside its memory, and that holds between the phases of ENCODE and DECODE too:
the parameters in range (R10), W inside OBUF (R31) and R inside IBUF (R32). -/
structure InBounds (s : State) : Prop where
  cfg : s.cfg.wf
  writer : s.w.wf s.cfg
  reader : s.r.wf s.cfg

theorem Inv.inBounds {s : State} (h : Inv s) : InBounds s := ⟨h.cfg, h.writer, h.reader⟩

/-- The bounds speak of the parameters, W and R only. -/
theorem InBounds.congr {s t : State} (h : InBounds s) (hc : t.cfg = s.cfg) (hw : t.w = s.w) (hr : t.r = s.r) : InBounds t :=
  ⟨hc ▸ h.cfg, hc ▸ hw ▸ h.writer, hc ▸ hr ▸ h.reader⟩

theorem InBounds.of_writerMoved {s t : State} (h : InBounds s) (m : WriterMoved s t) : InBounds t :=
  ⟨m.cfg ▸ h.cfg, m.writer, m.cfg ▸ m.reader ▸ h.reader⟩

theorem InBounds.of_sameButReader {s t : State} (h : InBounds s) (m : SameButReader s t) (hr : t.r.wf t.cfg) : InBounds t := by
  unfold SameButReader at m
  have hc : t.cfg = s.cfg := by rw [m]
  have hw : t.w = s.w := by rw [m]
  exact ⟨hc ▸ h.cfg, hc ▸ hw ▸ h.writer, hr⟩

theorem InBounds.resetUnits {s : State} (h : s.cfg.wf) : InBounds (resetUnits s) :=
  ⟨h, WriterUnit.wf_reset _, ReaderUnit.wf_unbound _ _⟩

section
variable {s : State} (h : InBounds s)
include h

theorem readBytes_safe (n : Nat) : (readBytes n s).Safe InBounds :=
  ⟨readBytes_ne_absent h.reader n, fun _ _ e => h.of_sameButReader (readBytes_frame e) (readBytes_wf h.reader e)⟩

theorem readBit_safe : (readBit s).Safe InBounds :=
  ⟨readBit_ne_absent h.reader, fun _ _ e => h.of_sameButReader (readBit_frame e) (readBit_wf h.reader e)⟩

theorem unpackCode_safe (width : Nat) : (unpackCode width s).Safe InBounds :=
  ⟨unpackCode_ne_absent h.reader width,
    fun _ _ e => h.of_sameButReader (unpackCode_frame e) (unpackCode_wf h.reader e)⟩

theorem bindReader_safe : (bindReader s).Safe InBounds :=
  ⟨bindReader_ne_absent s, fun _ _ e => h.of_sameButReader (bindReader_frame e) (bindReader_wf e)⟩

/-- The prologue leaves both cursors unbound (R247). -/
theorem prologue_safe : (prologue s).Safe InBounds := by
  rcases prologue_cases s with ⟨-, e⟩ | ⟨-, e⟩ <;> rw [e]
  · exact Res.safe_fault _
  · exact Res.safe_ok (.resetUnits h.cfg)

end

theorem finishMacro_safe (s : State) : (finishMacro s).Safe fun _ => True :=
  (giveBuffer_safe s).finish _

end Sys2Proof.Machine
end

section
/-! SUPPORT. The phases of ENCODE are safe (spec 44_encoder.md R191): beside both cursors, its scans of the input stay below
the latched length, which E_CHECK compared with `IN_CAP`. -/

namespace Sys2Proof.Machine

/-- The state between two phases of ENCODE after E_CHECK: the latched length `l` is that of an input inside IBUF (R192). -/
structure InputLatched (l : Word) (s : State) : Prop where
  bounds : InBounds s
  latch : s.seq.l = l
  fits : l.toNat ≤ s.cfg.inCap

section
variable {l : Word} {s : State}

theorem InputLatched.congr {t : State} (h : InputLatched l s) (hc : t.cfg = s.cfg) (hw : t.w = s.w) (hr : t.r = s.r)
    (hl : t.seq.l = s.seq.l) : InputLatched l t :=
  ⟨h.bounds.congr hc hw hr, hl.trans h.latch, hc ▸ h.fits⟩

theorem InputLatched.of_writerMoved {t : State} (h : InputLatched l s) (m : WriterMoved s t) : InputLatched l t :=
  ⟨h.bounds.of_writerMoved m, (congrArg Sequencer.l m.seq).trans h.latch, m.cfg ▸ h.fits⟩

/-- The position of an iteration over the input is the address of a byte of IBUF. -/
theorem InputLatched.idx_lt (h : InputLatched l s) {j : Nat} (hj : j < l.toNat) : (zext64 j).toNat < s.cfg.inCap := by
  rw [zext64_toNat (Nat.lt_trans hj l.isLt)]
  exact Nat.lt_of_lt_of_le hj h.fits

theorem eCheck_safe (h : InBounds s) : (eCheck s).Safe (InputLatched s.inLen) := by
  unfold eCheck
  split
  next ha =>
    obtain ⟨-, -, hfits⟩ := s.acceptable_iff.mp ha
    exact Res.safe_ok ⟨h.congr rfl rfl rfl, rfl, hfits⟩
  next => exact Res.safe_raise _ _

theorem scanStep_safe (h : InputLatched l s) (hidx : s.seq.idx.toNat < s.cfg.inCap) : (scanStep s).Safe (InputLatched l) := by
  rcases scanStep_cases s with ⟨-, -, e⟩ | ⟨-, -, e⟩ | ⟨hcap, -⟩
  · rw [e]; exact Res.safe_ok h
  · rw [e]; exact Res.safe_ok (h.congr rfl rfl rfl rfl)
  · omega

theorem eScan_safe (h : InputLatched l s) : (eScan s).Safe (InputLatched l) := by
  have hloop : (forIdx scanStep s.seq.l.toNat 0 (s.setTable s.t.clear)).Safe (InputLatched l) := by
    refine forIdx_safe (h.congr rfl rfl rfl rfl) fun j u hj hu => ?_
    rw [h.latch, Nat.zero_add] at hj
    exact scanStep_safe (hu.congr rfl rfl rfl rfl) (hu.idx_lt hj)
  exact hloop.bind fun _ u hu => Res.safe_ok (hu.congr rfl rfl rfl rfl)

theorem eSize_safe (h : InputLatched l s) : (eSize s).Safe (InputLatched l) := Res.safe_ok (h.congr rfl rfl rfl rfl)

theorem eAlloc_safe (h : InputLatched l s) : (eAlloc s).Safe (InputLatched l) := by
  refine (allocate_safe h.bounds.cfg _).bind fun bound u hu => ?_
  cases bound
  · exact Res.safe_raise _ _
  · exact Res.safe_ok ((h.of_writerMoved hu).congr rfl rfl rfl rfl)

/-- A byte-level write of the encoder (R144) keeps the latched input. -/
theorem writeBytes_keeps_inputLatched (h : InputLatched l s) (bs : List Byte) : (writeBytes bs s).Safe (InputLatched l) :=
  (writeBytes_safe h.bounds.writer bs).mono fun _ => h.of_writerMoved

theorem entryStep_safe (h : InputLatched l s) : (entryStep s).Safe (InputLatched l) :=
  (writeBytes_keeps_inputLatched h _).bind fun _ _ hu => writeBytes_keeps_inputLatched hu _

theorem eHdr_safe (h : InputLatched l s) : (eHdr s).Safe (InputLatched l) := by
  refine (writeBytes_keeps_inputLatched h _).bind fun _ s h => ?_
  refine (writeBytes_keeps_inputLatched h _).bind fun _ s h => ?_
  refine (forIdx_safe h fun j u _ hu => entryStep_safe (hu.congr rfl rfl rfl rfl)).bind fun _ s h => ?_
  refine (writeBytes_keeps_inputLatched h _).bind fun _ s h => ?_
  exact Res.safe_ok (h.congr rfl rfl rfl rfl)

theorem packStep_safe (h : InputLatched l s) (hidx : s.seq.idx.toNat < s.cfg.inCap) : (packStep s).Safe (InputLatched l) := by
  unfold packStep
  rw [ibufByte_of_lt hidx, Res.bind_ok]
  exact (packCode_safe h.bounds.writer _ _).mono fun _ => h.of_writerMoved

theorem ePack_safe (h : InputLatched l s) : (ePack s).Safe (InputLatched l) := by
  have hloop : (forIdx packStep s.seq.l.toNat 0 s).Safe (InputLatched l) := by
    refine forIdx_safe h fun j u hj hu => ?_
    rw [h.latch, Nat.zero_add] at hj
    exact packStep_safe (hu.congr rfl rfl rfl rfl) (hu.idx_lt hj)
  refine hloop.bind fun _ u hu => ?_
  refine (flushBits_safe hu.bounds.writer).bind fun _ v hv => ?_
  exact Res.safe_ok ((hu.of_writerMoved hv).congr rfl rfl rfl rfl)

theorem encodeFromCheck_safe (h : InBounds s) : (encodeFromCheck s).Safe fun _ => True :=
  (eCheck_safe (s := s.toPhase .eCheck) (h.congr rfl rfl rfl)).bind fun _ _ h =>
  (eScan_safe h).bind fun _ _ h =>
  (eSize_safe h).bind fun _ _ h =>
  (eAlloc_safe h).bind fun _ _ h =>
  (eHdr_safe h).bind fun _ _ h =>
  (ePack_safe h).bind fun _ s _ => finishMacro_safe s

end

end Sys2Proof.Machine
end

section
/-! SUPPORT. The phases of DECODE are safe (spec 45_decoder.md R211): it reads through R and writes through W only. -/

namespace Sys2Proof.Machine

variable {s : State}

theorem dCheck_safe (h : InBounds s) : (dCheck s).Safe InBounds := by
  unfold dCheck
  split
  · exact (bindReader_safe h).bind fun _ _ h => Res.safe_ok (h.congr rfl rfl rfl)
  · exact Res.safe_raise _ _

theorem dTag_safe (h : InBounds s) : (dTag s).Safe InBounds := by
  refine (readBytes_safe h _).bind fun bs u hu => ?_
  dsimp only
  split
  · exact Res.safe_raise _ _
  · exact Res.safe_ok (hu.congr rfl rfl rfl)

theorem dCount_safe (h : InBounds s) : (dCount s).Safe InBounds := by
  unfold dCount
  split
  · exact Res.safe_raise _ _
  · refine (readBytes_safe h _).bind fun bs u hu => ?_
    dsimp only
    split
    · exact Res.safe_raise _ _
    · split
      · exact Res.safe_raise _ _
      · exact Res.safe_ok (hu.congr rfl rfl rfl)

theorem dTabChk_safe (h : InBounds s) : (dTabChk s).Safe InBounds := by
  unfold dTabChk
  split
  · exact Res.safe_raise _ _
  · exact Res.safe_ok (h.congr rfl rfl rfl)

theorem tableStep_safe (h : InBounds s) : (tableStep s).Safe InBounds :=
  (readBytes_safe h 1).bind fun _ _ h =>
  (readBytes_safe h 1).bind fun _ _ h => Res.safe_ok (h.congr rfl rfl rfl)

theorem dTable_safe (h : InBounds s) : (dTable s).Safe InBounds := by
  refine (forIdx_safe h fun j u _ hu => tableStep_safe (hu.congr rfl rfl rfl)).bind fun _ u hu => ?_
  split
  · exact Res.safe_raise _ _
  · exact Res.safe_ok (hu.congr rfl rfl rfl)

theorem dLen_safe (h : InBounds s) : (dLen s).Safe InBounds := by
  unfold dLen
  split
  · exact Res.safe_raise _ _
  · exact (readBytes_safe h _).bind fun _ _ h => Res.safe_ok (h.congr rfl rfl rfl)

theorem dBodyChk_safe (h : InBounds s) : (dBodyChk s).Safe InBounds := by
  unfold dBodyChk
  dsimp only
  split
  · exact Res.safe_raise _ _
  · exact Res.safe_ok (h.congr rfl rfl rfl)

theorem dAlloc_safe (h : InBounds s) : (dAlloc s).Safe InBounds := by
  refine (allocate_safe h.cfg _).bind fun bound u hu => ?_
  cases bound
  · exact Res.safe_raise _ _
  · exact Res.safe_ok ((h.of_writerMoved hu).congr rfl rfl rfl)

theorem unpackStep_safe (h : InBounds s) : (unpackStep s).Safe InBounds := by
  refine (unpackCode_safe h _).bind fun c u hu => ?_
  split
  next => exact (writeBytes_safe hu.writer _).mono fun _ => hu.of_writerMoved
  next => exact Res.safe_raise _ _

theorem dUnpack_safe (h : InBounds s) : (dUnpack s).Safe InBounds :=
  (forIdx_safe h fun _ _ _ hu => unpackStep_safe (hu.congr rfl rfl rfl)).bind fun _ _ h =>
    Res.safe_ok (h.congr rfl rfl rfl)

theorem decodeFromCheck_safe (h : InBounds s) : (decodeFromCheck s).Safe fun _ => True :=
  (dCheck_safe (s := s.toPhase .dCheck) (h.congr rfl rfl rfl)).bind fun _ _ h =>
  (dTag_safe h).bind fun _ _ h =>
  (dCount_safe h).bind fun _ _ h =>
  (dTabChk_safe h).bind fun _ _ h =>
  (dTable_safe h).bind fun _ _ h =>
  (dLen_safe h).bind fun _ _ h =>
  (dBodyChk_safe h).bind fun _ _ h =>
  (dAlloc_safe h).bind fun _ _ h =>
  (dUnpack_safe h).bind fun _ s _ => finishMacro_safe s

end Sys2Proof.Machine
end

section
/-! PROOF of NoStepStopsUnderTheInvariant: every command and every host action gives a next state (spec 10_state.md R17, R20). -/

namespace Sys2Proof.Machine

/-- COMPRESS validates the input and the method, and then is ENCODE (R241). -/
theorem execCompress_gives_next {s : State} (h : InBounds s) (method : Byte) : ∃ t, execCompress method s = .next t := by
  refine command_gives_next ((prologue_safe h).bind fun _ u hu => ?_)
  split
  · dsimp only
    split
    · exact Res.safe_raise _ _
    · exact encodeFromCheck_safe (hu.congr rfl rfl rfl)
  · exact Res.safe_raise _ _

/-- DECOMPRESS inspects byte 0 of IBUF, which lies inside every IBUF (R10, R242), and then is DECODE. -/
theorem execDecompress_gives_next {s : State} (h : InBounds s) : ∃ t, execDecompress s = .next t := by
  refine command_gives_next ((prologue_safe h).bind fun _ u hu => ?_)
  split
  · obtain ⟨hin, -, -, -⟩ := hu.cfg
    rw [ibufByte_of_lt hin, Res.bind_ok]
    dsimp only
    split
    · exact Res.safe_raise _ _
    · exact decodeFromCheck_safe (hu.congr rfl rfl rfl)
  · exact Res.safe_raise _ _

theorem execRelease_gives_next (s : State) : ∃ t, execRelease s = .next t := by
  refine command_gives_next ?_
  split
  · exact Res.safe_ok trivial
  · exact Res.safe_fault _

theorem execTlook_gives_next (s : State) (key : Byte) : ∃ t, execTlook key s = .next t := by
  refine command_gives_next ?_
  split <;> exact Res.safe_ok trivial

theorem execTiter_gives_next (s : State) (index : Byte) : ∃ t, execTiter index s = .next t := by
  refine command_gives_next ?_
  split <;> exact Res.safe_ok trivial

/-- A command whose body is register and table writes alone gives a next state. -/
theorem command_ok_gives_next (f : State → State) (s : State) : ∃ t, command (fun s => .ok () (f s)) s = .next t :=
  command_gives_next (Res.safe_ok trivial)

/-- Every command gives a next state while both cursors lie in their memories: no command is refused, and none stops. -/
theorem exec_gives_next {s : State} (h : InBounds s) (i : Instr) : ∃ t, exec i s = .next t := by
  unfold exec
  cases i with
  | sreset => exact ⟨_, rfl⟩
  | release => exact execRelease_gives_next s
  | tclr => exact command_ok_gives_next _ s
  | tins key value => exact command_ok_gives_next _ s
  | tlook key => exact execTlook_gives_next s key
  | tbits => exact command_ok_gives_next _ s
  | traw => exact command_ok_gives_next _ s
  | tsize => exact command_ok_gives_next _ s
  | titer index => exact execTiter_gives_next s index
  | winit => exact command_gives_next ((allocate_safe h.cfg _).finish _)
  | wbytes count => exact command_gives_next ((writeBytes_safe h.writer _).finish _)
  | wbit bit => exact command_gives_next ((writeBit_safe h.writer bit).finish _)
  | wflush => exact command_gives_next ((flushBits_safe h.writer).finish _)
  | wgive => exact command_gives_next ((giveBuffer_safe s).finish _)
  | rinit => exact command_gives_next ((bindReader_safe h).finish _)
  | rd8 => exact command_gives_next ((readBytes_safe h 1).finish _)
  | rd16 => exact command_gives_next ((readBytes_safe h 2).finish _)
  | rd64 => exact command_gives_next ((readBytes_safe h 8).finish _)
  | rbit => exact command_gives_next ((readBit_safe h).finish _)
  | rrem => exact command_ok_gives_next _ s
  | pack width code => exact command_gives_next ((packCode_safe h.writer width code).finish _)
  | unpack width => exact command_gives_next ((unpackCode_safe h width).finish _)
  | encode => exact command_gives_next ((prologue_safe h).bind fun _ _ hu => encodeFromCheck_safe hu)
  | decode => exact command_gives_next ((prologue_safe h).bind fun _ _ hu => decodeFromCheck_safe hu)
  | compress method => exact execCompress_gives_next h method
  | decompress => exact execDecompress_gives_next h

theorem issue_gives_next {s : State} (h : InBounds s) (w : CmdWord) : ∃ t, issue w s = .next t := by
  rcases issue_cases w s with ⟨i, -, e⟩ | ⟨_, -, -, e⟩ | ⟨_, -, -, e⟩ <;> rw [e]
  · exact exec_gives_next h i
  · exact ⟨_, rfl⟩
  · exact ⟨_, rfl⟩

/-- Of the host's actions only a write of CMD does more than set registers or bytes. -/
theorem hostAct_gives_next {s : State} (h : InBounds s) (act : HostAction) : ∃ t, hostAct act s = .next t := by
  cases act with
  | writeReg no v =>
    rcases hostWriteReg_cases no v s with ⟨-, e⟩ | ⟨-, e⟩
    · obtain ⟨t, ht⟩ := issue_gives_next h (v.setWidth 32)
      exact ⟨t, e.trans ht⟩
    · exact ⟨_, e⟩
  | readReg no => exact ⟨_, rfl⟩
  | writeIbuf a b => exact ⟨_, rfl⟩
  | readIbuf a => exact ⟨_, rfl⟩
  | readObuf a => exact ⟨_, rfl⟩
  | hardReset => exact ⟨_, rfl⟩

/-- Settles O54: a step is a host action, and the invariant keeps both cursors in their memories. -/
theorem noStepStopsUnderTheInvariant : Obligations.NoStepStopsUnderTheInvariant := by
  intro s hs
  cases hp : s.pending with
  | nil => exact ⟨s, step_of_no_action hp⟩
  | cons act rest =>
    rw [step_of_action hp]
    exact hostAct_gives_next (s := { s with pending := rest }) (hs.inBounds.congr rfl rfl rfl) act

end Sys2Proof.Machine
end

section
/-! SUPPORT. How a piece of a command can end: the rule of composition for its end and for its failure (spec
60_exceptions.md R268). -/

namespace Sys2Proof.Machine

variable {α β : Type} {P Q Q' E : State → Prop}

/-- A piece of a command leaves a state with the property `Q` if it goes on, and calls `raise Error(K)` in states with the
property `E` only. Its faults are free: they undo the piece (R272). -/
structure Res.Ends (r : Res α) (Q E : State → Prop) : Prop where
  ok : ∀ a t, r = .ok a t → Q t
  raise : ∀ k t, r = .raise k t → E t

theorem Res.ends_ok {a : α} {s : State} (h : Q s) : (Res.ok a s).Ends Q E :=
  ⟨fun _ _ e => by cases e; exact h, fun _ _ => nofun⟩

theorem Res.ends_fault (f : FaultKind) : (Res.fault f : Res α).Ends Q E := ⟨fun _ _ => nofun, fun _ _ => nofun⟩

theorem Res.ends_absent (e : Fault) : (Res.absent e : Res α).Ends Q E := ⟨fun _ _ => nofun, fun _ _ => nofun⟩

theorem Res.ends_raise {k : ErrKind} {s : State} (h : E s) : (Res.raise k s : Res α).Ends Q E :=
  ⟨fun _ _ => nofun, fun _ _ e => by cases e; exact h⟩

/-- The end of a piece that raises no error may be weakened, whatever failures its context allows. -/
theorem Res.Ends.mono {r : Res α} (h : r.Ends Q fun _ => False) (hQ : ∀ t, Q t → Q' t) : r.Ends Q' E :=
  ⟨fun a t e => hQ t (h.ok a t e), fun k t e => (h.raise k t e).elim⟩

theorem Res.Ends.bind {r : Res α} {k : α → State → Res β} (hr : r.Ends Q E) (hk : ∀ a s, Q s → (k a s).Ends Q' E) :
    (r.bind k).Ends Q' E where
  ok b t h := by
    obtain ⟨a, s, hs, h⟩ := Res.bind_eq_ok.mp h
    exact (hk a s (hr.ok a s hs)).ok b t h
  raise e t h := by
    rcases Res.bind_eq_raise.mp h with h | ⟨a, s, hs, h⟩
    · exact hr.raise e t h
    · exact (hk a s (hr.ok a s hs)).raise e t h

/-- A loop keeps what each of its iterations, with `S.IDX` written first, keeps. -/
theorem forIdx_ends {body : State → Res Unit} {todo i : Nat} {s : State} (hs : P s)
    (hseq : ∀ u q, P u → P (u.setSeq q)) (hbody : ∀ u, P u → (body u).Ends P E) : (forIdx body todo i s).Ends P E := by
  induction todo generalizing i s with
  | zero => exact Res.ends_ok hs
  | succ n ih =>
    rw [forIdx_succ]
    exact (hbody _ (hseq s _ hs)).bind fun _ u hu => ih hu

/-- What a command can do if it gives a next state: nothing, fault, end as its body ends, or fail as its body fails. -/
theorem command_outcome {body : State → Res Unit} {s t : State} (hb : (body s).Ends Q E) (h : command body s = .next t) :
    t = s ∨ (s.fault = 0 ∧ ∃ f, t = takeFault f s) ∨ Q t ∨ ∃ k u, E u ∧ t = failureExit k u := by
  rcases command_cases h with ⟨-, ht⟩ | ⟨hf, hok | ⟨f, -, ht⟩ | ⟨k, u, hu, ht⟩⟩
  · exact .inl ht
  · exact .inr (.inr (.inl (hb.ok _ _ hok)))
  · exact .inr (.inl ⟨hf, f, ht⟩)
  · exact .inr (.inr (.inr ⟨k, u, hb.raise k u hu, ht⟩))

end Sys2Proof.Machine
end

section
/-! SUPPORT. What one operation of T, W or R can do to the state, said once for the unit-level commands and for the phases of
ENCODE and DECODE (spec 10_state.md R29 to R33). -/

namespace Sys2Proof.Machine

/-- The effects of the operations of the units. Each keeps the invariants of its own unit, and an unbound W is not moved. -/
inductive UnitMove (s : State) : State → Prop where
  /-- Nothing moves: the operation only reads. -/
  | still : UnitMove s s
  /-- T moves. -/
  | table (t : TableUnit) (hwf : s.t.wf → t.wf) : UnitMove s (s.setTable t)
  /-- W emits into OBUF. -/
  | writer {u : State} (hsame : SameButWriter s u) (hwf : s.w.wf s.cfg → u.w.wf u.cfg)
      (hobuf : s.obuf.within s.cfg.outCap → u.obuf.within u.cfg.outCap) (hunbound : s.w = WriterUnit.reset → u = s) :
      UnitMove s u
  /-- R moves. -/
  | reader {u : State} (hsame : SameButReader s u) (hwf : s.r.wf s.cfg → u.r.wf u.cfg) : UnitMove s u
  /-- WINIT's effect (R141). -/
  | allocated {size : Nat} {bound : Bool} {u : State} (h : allocate size s = .ok bound u) : UnitMove s u
  /-- WGIVE's effect (R148). -/
  | given {u : State} (h : giveBuffer s = .ok () u) : UnitMove s u

/-! ## The operations of W -/

/-- An unbound W has no room and no partial byte, so nothing is written through it (R31). -/
theorem writeBytes_of_unbound {bs : List Byte} {s t : State} (hw : s.w = WriterUnit.reset) (h : writeBytes bs s = .ok () t) :
    t = s := by
  rcases writeBytes_cases bs s with ⟨-, e⟩ | ⟨-, -, e⟩ | ⟨-, hfit, -, e⟩ | ⟨-, -, _, e⟩ <;> rw [e] at h <;> cases h
  have hbs : bs = [] := by simpa [hw, WriterUnit.reset] using hfit
  subst hbs
  simp [Memory.writeAll, zext64]

theorem writeBit_ne_ok_of_unbound {bit : Bool} {s t : State} (hw : s.w = WriterUnit.reset) : writeBit bit s ≠ .ok () t := by
  have hroom : s.w.len.toNat ≤ s.w.ptr.toNat := by simp [hw, WriterUnit.reset]
  simp [writeBit, hroom]

theorem writeBits_of_unbound {bits : List Bool} {s t : State} (hw : s.w = WriterUnit.reset) (h : writeBits bits s = .ok () t) :
    t = s := by
  cases bits with
  | nil => cases h; rfl
  | cons bit bits =>
    rw [writeBits_cons] at h
    obtain ⟨_, _, hbit, -⟩ := Res.bind_eq_ok.mp h
    exact absurd hbit (writeBit_ne_ok_of_unbound hw)

theorem flushBits_of_unbound {s t : State} (hw : s.w = WriterUnit.reset) (h : flushBits s = .ok () t) : t = s := by
  have hbi : s.w.bi = 0 := by rw [hw]; rfl
  rcases flushBits_cases s with ⟨-, e⟩ | ⟨hne, -⟩ | ⟨hne, -⟩
  · rw [e] at h; cases h; rfl
  · exact absurd hbi hne
  · exact absurd hbi hne

theorem writeBytes_ends (bs : List Byte) (s : State) : (writeBytes bs s).Ends (UnitMove s) fun _ => False where
  ok _ _ h := .writer (writeBytes_frame h) (writeBytes_wf · h) (writeBytes_obuf · h) (writeBytes_of_unbound · h)
  raise k t := by rcases writeBytes_cases bs s with ⟨-, e⟩ | ⟨-, -, e⟩ | ⟨-, -, -, e⟩ | ⟨-, -, _, e⟩ <;> simp [e]

theorem writeBit_ends (bit : Bool) (s : State) : (writeBit bit s).Ends (UnitMove s) fun _ => False where
  ok _ _ h := .writer (writeBit_frame h) (writeBit_wf · h) (writeBit_obuf · h) fun hw => absurd h (writeBit_ne_ok_of_unbound hw)
  raise k t := by rcases writeBit_cases bit s with ⟨-, e⟩ | ⟨-, -, e⟩ | ⟨-, -, -, e⟩ | ⟨-, -, _, e⟩ <;> simp [e]

theorem writeBits_ends (bits : List Bool) (s : State) : (writeBits bits s).Ends (UnitMove s) fun _ => False where
  ok _ _ h := .writer (writeBits_frame h) (writeBits_wf · h) (writeBits_obuf · h) (writeBits_of_unbound · h)
  raise k t h := by
    induction bits generalizing s with
    | nil => cases h
    | cons bit bits ih =>
      rcases Res.bind_eq_raise.mp h with h | ⟨_, u, -, h⟩
      · exact (writeBit_ends bit s).raise k t h
      · exact ih u h

theorem packCode_ends (width : Nat) (code : Byte) (s : State) : (packCode width code s).Ends (UnitMove s) fun _ => False := by
  rcases packCode_cases width code s with ⟨-, e⟩ | ⟨-, e⟩ <;> rw [e]
  · exact Res.ends_fault _
  · exact writeBits_ends _ s

theorem flushBits_ends (s : State) : (flushBits s).Ends (UnitMove s) fun _ => False where
  ok _ _ h := .writer (flushBits_frame h) (flushBits_wf · h) (flushBits_obuf · h) (flushBits_of_unbound · h)
  raise k t := by rcases flushBits_cases s with ⟨-, e⟩ | ⟨-, -, e⟩ | ⟨-, -, _, e⟩ <;> simp [e]

theorem allocate_ends (size : Nat) (s : State) : (allocate size s).Ends (UnitMove s) fun _ => False where
  ok _ _ h := .allocated h
  raise k t := by rcases allocate_cases size s with ⟨-, e⟩ | ⟨-, -, e⟩ | ⟨-, -, e⟩ <;> simp [e]

theorem giveBuffer_ends (s : State) : (giveBuffer s).Ends (UnitMove s) fun _ => False where
  ok _ _ h := .given h
  raise k t := by rcases giveBuffer_cases s with ⟨-, e⟩ | ⟨-, -, e⟩ | ⟨-, -, e⟩ <;> simp [e]

/-! ## The operations of R -/

theorem readBytes_ends (n : Nat) (s : State) : (readBytes n s).Ends (UnitMove s) fun _ => False where
  ok _ _ h := .reader (readBytes_frame h) (readBytes_wf · h)
  raise k t := by rcases readBytes_cases n s with ⟨-, e⟩ | ⟨-, -, e⟩ | ⟨-, -, _, e⟩ | ⟨-, _, e⟩ <;> simp [e]

theorem readBit_ends (s : State) : (readBit s).Ends (UnitMove s) fun _ => False where
  ok _ _ h := .reader (readBit_frame h) (readBit_wf · h)
  raise k t := by rcases readBit_cases s with ⟨-, e⟩ | ⟨-, -, e⟩ | ⟨-, -, _, e⟩ | ⟨-, _, e⟩ <;> simp [e]

theorem readBits_ne_raise {n : Nat} {s t : State} {k : ErrKind} : readBits n s ≠ .raise k t := by
  induction n generalizing s with
  | zero => simp
  | succ n ih =>
    rw [readBits_succ, Ne, Res.bind_eq_raise]
    rintro (h | ⟨_, u, -, h⟩)
    · exact (readBit_ends s).raise k t h
    · rcases Res.bind_eq_raise.mp h with h | ⟨_, _, -, h⟩
      · exact ih h
      · exact nomatch h

theorem unpackCode_ends (width : Nat) (s : State) : (unpackCode width s).Ends (UnitMove s) fun _ => False where
  ok _ _ h := .reader (unpackCode_frame h) (unpackCode_wf · h)
  raise k t h := by
    rcases unpackCode_cases width s with ⟨-, e⟩ | ⟨-, e⟩ <;> rw [e] at h
    · exact nomatch h
    · rcases Res.bind_eq_raise.mp h with h | ⟨_, _, -, h⟩
      · exact readBits_ne_raise h
      · exact nomatch h

theorem bindReader_ends (s : State) : (bindReader s).Ends (UnitMove s) fun _ => False where
  ok _ _ h := .reader (bindReader_frame h) fun _ => bindReader_wf h
  raise k t := by rcases bindReader_cases s with ⟨-, -, e⟩ | ⟨-, e⟩ <;> simp [e]

/-- A read of IBUF by the block moves nothing (R62). -/
theorem ibufByte_ends (a : Nat) (s : State) : (ibufByte a s).Ends (fun t => t = s) fun _ => False := by
  rcases ibufByte_cases a s with ⟨-, e⟩ | ⟨-, e⟩ <;> rw [e]
  · exact Res.ends_ok rfl
  · exact Res.ends_absent _

end Sys2Proof.Machine
end

section
/-! SUPPORT. Everything a unit-level command can do, in one statement (spec 10_state.md R23, 60_exceptions.md R272). -/

namespace Sys2Proof.Machine

/-- `t` differs from `s` in the result registers and `OK` and `FLAG` only (R21, R23). -/
def SameButResults (s t : State) : Prop := t = { s with x2 := t.x2, x3 := t.x3, ok := t.ok, flag := t.flag }

/-- What a unit-level command leaves if it goes on: a move of its unit, then the results. -/
def UnitResult (s t : State) : Prop := ∃ u, UnitMove s u ∧ SameButResults u t

/-- A unit's operation, then the results: the body of most unit-level commands. -/
theorem Res.Ends.unitResult {α : Type} {r : Res α} {s : State} (hr : r.Ends (UnitMove s) fun _ => False)
    {f : α → State → State} (hf : ∀ a u, SameButResults u (f a u)) :
    (r.bind fun a u => .ok () (f a u)).Ends (UnitResult s) fun _ => False :=
  hr.bind fun a u hu => Res.ends_ok ⟨u, hu, hf a u⟩

theorem unitResult_of_move {s u t : State} (hu : UnitMove s u) (ht : SameButResults u t) :
    (Res.ok () t).Ends (UnitResult s) fun _ => False := Res.ends_ok ⟨u, hu, ht⟩

/-- The unit-level commands: neither a composed operation (R19) nor a system command (R249, R250). -/
def isUnitLevel (i : Instr) : Prop := isMacro i = false ∧ i ≠ .sreset ∧ i ≠ .release

/-- Everything a command whose body raises no error can do if it gives a next state: nothing, in a faulted block; fault; or
end as its body ends. -/
theorem command_cases_of_ends {body : State → Res Unit} {Q : State → Prop} {s t : State} (h : command body s = .next t)
    (hb : (body s).Ends Q fun _ => False) : t = s ∨ (s.fault = 0 ∧ ∃ f, t = takeFault f s) ∨ Q t := by
  rcases command_outcome hb h with h | h | h | ⟨_, _, h, -⟩
  · exact .inl h
  · exact .inr (.inl h)
  · exact .inr (.inr h)
  · exact h.elim

/-- Everything a unit-level command can do if it gives a next state: nothing, fault, or move its unit and write the results. -/
theorem unitLevel_cases {i : Instr} {s t : State} (hi : isUnitLevel i) (h : exec i s = .next t) :
    t = s ∨ (s.fault = 0 ∧ ∃ f, t = takeFault f s) ∨ UnitResult s t := by
  obtain ⟨hcomposed, hsreset, hrelease⟩ := hi
  unfold exec at h
  cases i with
  | sreset => exact absurd rfl hsreset
  | release => exact absurd rfl hrelease
  | encode => exact nomatch hcomposed
  | decode => exact nomatch hcomposed
  | compress method => exact nomatch hcomposed
  | decompress => exact nomatch hcomposed
  | tclr => exact command_cases_of_ends h (unitResult_of_move (.table _ fun _ => s.t.wf_clear) rfl)
  | tins k v => exact command_cases_of_ends h (unitResult_of_move (.table _ (TableUnit.wf_insert · k v)) rfl)
  | tlook k =>
    refine command_cases_of_ends h ?_
    split <;> exact unitResult_of_move .still rfl
  | tbits => exact command_cases_of_ends h (unitResult_of_move .still rfl)
  | traw => exact command_cases_of_ends h (unitResult_of_move .still rfl)
  | tsize => exact command_cases_of_ends h (unitResult_of_move .still rfl)
  | titer index =>
    refine command_cases_of_ends h ?_
    split <;> exact unitResult_of_move .still rfl
  | winit => exact command_cases_of_ends h ((allocate_ends _ s).unitResult fun _ _ => rfl)
  | wbytes count => exact command_cases_of_ends h ((writeBytes_ends _ s).unitResult fun _ _ => rfl)
  | wbit bit => exact command_cases_of_ends h ((writeBit_ends bit s).unitResult fun _ _ => rfl)
  | wflush => exact command_cases_of_ends h ((flushBits_ends s).unitResult fun _ _ => rfl)
  | wgive => exact command_cases_of_ends h ((giveBuffer_ends s).unitResult fun _ _ => rfl)
  | rinit => exact command_cases_of_ends h ((bindReader_ends s).unitResult fun _ _ => rfl)
  | rd8 => exact command_cases_of_ends h ((readBytes_ends 1 s).unitResult fun _ _ => rfl)
  | rd16 => exact command_cases_of_ends h ((readBytes_ends 2 s).unitResult fun _ _ => rfl)
  | rd64 => exact command_cases_of_ends h ((readBytes_ends 8 s).unitResult fun _ _ => rfl)
  | rbit => exact command_cases_of_ends h ((readBit_ends s).unitResult fun _ _ => rfl)
  | rrem => exact command_cases_of_ends h (unitResult_of_move .still rfl)
  | pack width code => exact command_cases_of_ends h ((packCode_ends width code s).unitResult fun _ _ => rfl)
  | unpack width => exact command_cases_of_ends h ((unpackCode_ends width s).unitResult fun _ _ => rfl)

/-- Everything RELEASE can do (R249). -/
theorem release_cases {s t : State} (h : exec .release s = .next t) :
    t = s ∨ (s.fault = 0 ∧ ∃ f, t = takeFault f s) ∨ t = complete false (s.setOwner false 0) := by
  change execRelease s = _ at h
  refine command_cases_of_ends (Q := (· = complete false (s.setOwner false 0))) h ?_
  split
  · exact Res.ends_ok rfl
  · exact Res.ends_fault _

end Sys2Proof.Machine
end

section
/-! SUPPORT. The phases of ENCODE and DECODE are made of moves of the units, of the sequencer and of the reported tag (spec
44_encoder.md R191, 45_decoder.md R211), so what every such move keeps holds at their end and at each of their failures. -/

namespace Sys2Proof.Machine

/-- A property that every move a phase makes keeps. -/
structure KeptByMoves (P : State → Prop) : Prop where
  unit : ∀ {s u}, P s → UnitMove s u → P u
  seq : ∀ {s} q, P s → P (s.setSeq q)
  tag : ∀ {s} v, P s → P (s.setTag true v)

variable {α : Type} {P : State → Prop} {s : State}

theorem ibufByte_keeps (h : P s) (a : Nat) : (ibufByte a s).Ends P P := (ibufByte_ends a s).mono fun _ e => e ▸ h

/-- What a composed operation leaves if it succeeds: the end of R198 and R222, from a state with the property. -/
def FinishedFrom (P : State → Prop) (t : State) : Prop := ∃ u, P u ∧ finishMacro u = .ok () t

theorem finishMacro_ends (h : P s) : (finishMacro s).Ends (FinishedFrom P) P where
  ok _ _ e := ⟨s, h, e⟩
  raise k t := by rcases finishMacro_cases s with ⟨-, e⟩ | ⟨-, -, e⟩ | ⟨-, -, e⟩ <;> simp [e]

/-- The state from which the phases run (R247). -/
def afterPrologue (s : State) : State := resetUnits ((s.setErr .noError).setTag false 0)

theorem prologue_ends (h : s.outValid = false → P (afterPrologue s)) : (prologue s).Ends P P := by
  rcases prologue_cases s with ⟨-, e⟩ | ⟨hfree, e⟩ <;> rw [e]
  · exact Res.ends_fault _
  · exact Res.ends_ok (h hfree)

section
variable (hP : KeptByMoves P)
include hP

theorem KeptByMoves.phase (p : Phase) (h : P s) : P (s.toPhase p) := hP.seq _ h

theorem KeptByMoves.table (t : TableUnit) (hwf : s.t.wf → t.wf) (h : P s) : P (s.setTable t) := hP.unit h (.table t hwf)

/-- An operation of a unit, inside a phase. -/
theorem KeptByMoves.ends {r : Res α} (h : P s) (hr : r.Ends (UnitMove s) fun _ => False) : r.Ends P P :=
  hr.mono fun _ => hP.unit h

theorem KeptByMoves.forIdx {body : State → Res Unit} (h : P s) (hbody : ∀ u, P u → (body u).Ends P P) (todo i : Nat) :
    (forIdx body todo i s).Ends P P := forIdx_ends h (fun _ => hP.seq) hbody

/-! ## ENCODE -/

theorem eCheck_ends (h : P s) : (eCheck s).Ends P P := by
  unfold eCheck
  split
  · exact Res.ends_ok (hP.phase _ (hP.tag _ (hP.seq _ h)))
  · exact Res.ends_raise h

theorem scanStep_ends (h : P s) : (scanStep s).Ends P P := by
  refine (ibufByte_keeps h _).bind fun b u hu => ?_
  split
  · exact Res.ends_ok hu
  · exact Res.ends_ok (hP.table _ (TableUnit.wf_insert · b _) hu)

theorem eScan_ends (h : P s) : (eScan s).Ends P P :=
  (hP.forIdx (hP.table _ (fun _ => s.t.wf_clear) h) (fun _ => scanStep_ends hP) _ _).bind fun _ _ hu =>
    Res.ends_ok (hP.phase _ (hP.seq _ hu))

theorem eSize_ends (h : P s) : (eSize s).Ends P P := Res.ends_ok (hP.phase _ (hP.seq _ h))

theorem eAlloc_ends (h : P s) : (eAlloc s).Ends P P := by
  refine (hP.ends h (allocate_ends _ s)).bind fun bound u hu => ?_
  split
  · exact Res.ends_ok (hP.phase _ hu)
  · exact Res.ends_raise hu

theorem entryStep_ends (h : P s) : (entryStep s).Ends P P :=
  (hP.ends h (writeBytes_ends _ s)).bind fun _ u hu => hP.ends hu (writeBytes_ends _ u)

theorem eHdr_ends (h : P s) : (eHdr s).Ends P P :=
  (hP.ends h (writeBytes_ends _ s)).bind fun _ s h =>
  (hP.ends h (writeBytes_ends _ s)).bind fun _ _ h =>
  (hP.forIdx h (fun _ => entryStep_ends hP) _ _).bind fun _ s h =>
  (hP.ends h (writeBytes_ends _ s)).bind fun _ _ h => Res.ends_ok (hP.phase _ h)

theorem packStep_ends (h : P s) : (packStep s).Ends P P :=
  (ibufByte_keeps h _).bind fun _ s h => hP.ends h (packCode_ends _ _ s)

theorem ePack_ends (h : P s) : (ePack s).Ends P P :=
  (hP.forIdx h (fun _ => packStep_ends hP) _ _).bind fun _ s h =>
  (hP.ends h (flushBits_ends s)).bind fun _ _ h => Res.ends_ok (hP.phase _ h)

/-! ## DECODE -/

theorem dCheck_ends (h : P s) : (dCheck s).Ends P P := by
  unfold dCheck
  split
  · exact (hP.ends h (bindReader_ends s)).bind fun _ u hu =>
      Res.ends_ok (hP.phase _ (hP.table _ (fun _ => u.t.wf_clear) hu))
  · exact Res.ends_raise h

theorem dTag_ends (h : P s) : (dTag s).Ends P P := by
  refine (hP.ends h (readBytes_ends _ s)).bind fun bs u hu => ?_
  dsimp only
  split
  · exact Res.ends_raise (hP.tag _ (hP.seq _ hu))
  · exact Res.ends_ok (hP.phase _ (hP.tag _ (hP.seq _ hu)))

theorem dCount_ends (h : P s) : (dCount s).Ends P P := by
  unfold dCount
  split
  · exact Res.ends_raise h
  · refine (hP.ends h (readBytes_ends _ s)).bind fun bs u hu => ?_
    dsimp only
    split
    · exact Res.ends_raise (hP.seq _ hu)
    · split
      · exact Res.ends_raise (hP.seq _ hu)
      · exact Res.ends_ok (hP.phase _ (hP.seq _ hu))

theorem dTabChk_ends (h : P s) : (dTabChk s).Ends P P := by
  unfold dTabChk
  split
  · exact Res.ends_raise h
  · exact Res.ends_ok (hP.phase _ h)

theorem tableStep_ends (h : P s) : (tableStep s).Ends P P :=
  (hP.ends h (readBytes_ends 1 s)).bind fun _ s h =>
  (hP.ends h (readBytes_ends 1 s)).bind fun _ _ h => Res.ends_ok (hP.table _ (TableUnit.wf_insert · _ _) h)

theorem dTable_ends (h : P s) : (dTable s).Ends P P := by
  refine (hP.forIdx h (fun _ => tableStep_ends hP) _ _).bind fun _ u hu => ?_
  split
  · exact Res.ends_raise hu
  · exact Res.ends_ok (hP.phase _ hu)

theorem dLen_ends (h : P s) : (dLen s).Ends P P := by
  unfold dLen
  split
  · exact Res.ends_raise h
  · exact (hP.ends h (readBytes_ends _ s)).bind fun _ _ hu => Res.ends_ok (hP.phase _ (hP.seq _ hu))

theorem dBodyChk_ends (h : P s) : (dBodyChk s).Ends P P := by
  unfold dBodyChk
  dsimp only
  split
  · exact Res.ends_raise (hP.seq _ h)
  · exact Res.ends_ok (hP.phase _ (hP.seq _ h))

theorem dAlloc_ends (h : P s) : (dAlloc s).Ends P P := by
  refine (hP.ends h (allocate_ends _ s)).bind fun bound u hu => ?_
  split
  · exact Res.ends_ok (hP.phase _ hu)
  · exact Res.ends_raise hu

theorem unpackStep_ends (h : P s) : (unpackStep s).Ends P P := by
  refine (hP.ends h (unpackCode_ends _ s)).bind fun c u hu => ?_
  split
  · exact hP.ends hu (writeBytes_ends _ u)
  · exact Res.ends_raise hu

theorem dUnpack_ends (h : P s) : (dUnpack s).Ends P P :=
  (hP.forIdx h (fun _ => unpackStep_ends hP) _ _).bind fun _ _ h => Res.ends_ok (hP.phase _ h)

/-! ## The four composed operations -/

theorem encodeFromCheck_ends (h : P s) : (encodeFromCheck s).Ends (FinishedFrom P) P :=
  (eCheck_ends hP (hP.phase .eCheck h)).bind fun _ _ h =>
  (eScan_ends hP h).bind fun _ _ h =>
  (eSize_ends hP h).bind fun _ _ h =>
  (eAlloc_ends hP h).bind fun _ _ h =>
  (eHdr_ends hP h).bind fun _ _ h =>
  (ePack_ends hP h).bind fun _ _ h => finishMacro_ends h

theorem decodeFromCheck_ends (h : P s) : (decodeFromCheck s).Ends (FinishedFrom P) P :=
  (dCheck_ends hP (hP.phase .dCheck h)).bind fun _ _ h =>
  (dTag_ends hP h).bind fun _ _ h =>
  (dCount_ends hP h).bind fun _ _ h =>
  (dTabChk_ends hP h).bind fun _ _ h =>
  (dTable_ends hP h).bind fun _ _ h =>
  (dLen_ends hP h).bind fun _ _ h =>
  (dBodyChk_ends hP h).bind fun _ _ h =>
  (dAlloc_ends hP h).bind fun _ _ h =>
  (dUnpack_ends hP h).bind fun _ _ h => finishMacro_ends h

/-- Everything a composed operation can do if it gives a next state, with any property that the prologue establishes and the
moves keep: nothing, in a faulted block; fault; succeed; or take the failure exit (R190, R210, R241, R242). -/
theorem isMacro_cases {i : Instr} {t : State} (hi : isMacro i = true) (hs : s.outValid = false → P (afterPrologue s))
    (h : exec i s = .next t) :
    t = s ∨ (s.fault = 0 ∧ ∃ f, t = takeFault f s) ∨ FinishedFrom P t ∨ ∃ k u, P u ∧ t = failureExit k u := by
  unfold exec at h
  cases i with
  | encode => exact command_outcome ((prologue_ends hs).bind fun _ _ hu => encodeFromCheck_ends hP hu) h
  | decode => exact command_outcome ((prologue_ends hs).bind fun _ _ hu => decodeFromCheck_ends hP hu) h
  | compress method =>
    refine command_outcome ((prologue_ends hs).bind fun _ u hu => ?_) h
    split
    · dsimp only
      split
      · exact Res.ends_raise (hP.tag _ hu)
      · exact encodeFromCheck_ends hP (hP.tag _ hu)
    · exact Res.ends_raise hu
  | decompress =>
    refine command_outcome ((prologue_ends hs).bind fun _ u hu => ?_) h
    split
    · refine (ibufByte_keeps hu 0).bind fun tag v hv => ?_
      dsimp only
      split
      · exact Res.ends_raise (hP.tag _ hv)
      · exact decodeFromCheck_ends hP (hP.tag _ hv)
    · exact Res.ends_raise hu
  | _ => exact nomatch hi

end

end Sys2Proof.Machine
end

section
/-! SUPPORT. How the invariant of the machine (`Inv`) passes through each kind of update (spec 10_state.md R22 to R32). -/

namespace Sys2Proof.Machine

variable {s t u : State}

/-! ## Unit-level commands -/

/-- Of what the invariant speaks of, a fault changes only FAULT, which was clear (R27, R272). -/
theorem Inv.takeFault (h : Inv s) (hf : s.fault = 0) (f : FaultKind) : Inv (takeFault f s) where
  cfg := h.cfg
  ibuf := h.ibuf
  obuf := h.obuf
  table := h.table
  writer := h.writer
  reader := h.reader
  sequencer := h.sequencer
  oneFault := .inr ⟨f, by simp [hf]⟩
  noBuffer := h.noBuffer
  owned := h.owned
  noTag := h.noTag

theorem Inv.of_sameButResults (h : Inv s) (hsame : SameButResults s t) : Inv t := by
  unfold SameButResults at hsame
  rw [hsame]
  exact ⟨h.cfg, h.ibuf, h.obuf, h.table, h.writer, h.reader, h.sequencer, h.oneFault, h.noBuffer, h.owned, h.noTag⟩

theorem Inv.setTable (h : Inv s) {t : TableUnit} (ht : t.wf) : Inv (s.setTable t) :=
  ⟨h.cfg, h.ibuf, h.obuf, ht, h.writer, h.reader, h.sequencer, h.oneFault, h.noBuffer, h.owned, h.noTag⟩

theorem Inv.of_sameButReader (h : Inv s) (hsame : SameButReader s u) (hr : u.r.wf u.cfg) : Inv u := by
  unfold SameButReader at hsame
  rw [hsame] at hr ⊢
  exact ⟨h.cfg, h.ibuf, h.obuf, h.table, h.writer, hr, h.sequencer, h.oneFault, h.noBuffer, h.owned, h.noTag⟩

/-- W may move while the block owns OBUF; while the host does, W is unbound and cannot (R25). -/
theorem Inv.of_sameButWriter (h : Inv s) (hsame : SameButWriter s u) (hw : u.w.wf u.cfg)
    (ho : u.obuf.within u.cfg.outCap) (hunbound : s.w = WriterUnit.reset → u = s) : Inv u := by
  have howned : s.outValid = true → s.outLen.toNat ≤ s.cfg.outCap ∧ u.w = WriterUnit.reset := fun hv => by
    obtain ⟨hlen, hreset⟩ := h.owned hv
    exact ⟨hlen, by rw [hunbound hreset, hreset]⟩
  unfold SameButWriter at hsame
  rw [hsame] at hw ho ⊢
  exact ⟨h.cfg, h.ibuf, ho, h.table, hw, h.reader, h.sequencer, h.oneFault, h.noBuffer, howned, h.noTag⟩

theorem Inv.allocate (h : Inv s) {size : Nat} {bound : Bool} (e : allocate size s = .ok bound u) : Inv u := by
  obtain ⟨-, -, -, hcap⟩ := h.cfg
  have hw := allocate_wf hcap e
  have ho := allocate_obuf h.obuf e
  rcases allocate_cases size s with ⟨-, e'⟩ | ⟨hfree, -, e'⟩ | ⟨hfree, -, e'⟩ <;> rw [e'] at e <;> cases e
  · exact ⟨h.cfg, h.ibuf, ho, h.table, hw, h.reader, h.sequencer, h.oneFault, h.noBuffer,
      fun hv => absurd (hfree.symm.trans hv) (by decide), h.noTag⟩
  · exact ⟨h.cfg, h.ibuf, ho, h.table, hw, h.reader, h.sequencer, h.oneFault, h.noBuffer,
      fun hv => absurd (hfree.symm.trans hv) (by decide), h.noTag⟩

/-- The buffer handed over is W's, which lies inside OBUF (R31 (a), R148). -/
theorem Inv.giveBuffer (h : Inv s) (e : giveBuffer s = .ok () u) : Inv u := by
  obtain ⟨-, hlen, -, -⟩ := h.writer
  rcases giveBuffer_cases s with ⟨-, e'⟩ | ⟨-, -, e'⟩ | ⟨-, -, e'⟩ <;> rw [e'] at e <;> cases e
  exact ⟨h.cfg, h.ibuf, h.obuf, h.table, WriterUnit.wf_reset _, h.reader, h.sequencer, h.oneFault, nofun,
    fun _ => ⟨hlen, rfl⟩, h.noTag⟩

theorem Inv.of_unitMove (h : Inv s) (m : UnitMove s u) : Inv u := by
  cases m with
  | still => exact h
  | table t hwf => exact h.setTable (hwf h.table)
  | writer hsame hwf hobuf hunbound => exact h.of_sameButWriter hsame (hwf h.writer) (hobuf h.obuf) hunbound
  | reader hsame hwf => exact h.of_sameButReader hsame (hwf h.reader)
  | allocated e => exact h.allocate e
  | given e => exact h.giveBuffer e

/-- RELEASE takes the buffer away, and `OUT_LEN` with it (R249). -/
theorem Inv.release (h : Inv s) : Inv (complete false (s.setOwner false 0)) :=
  ⟨h.cfg, h.ibuf, h.obuf, h.table, h.writer, h.reader, h.sequencer, h.oneFault, fun _ => rfl, nofun, h.noTag⟩

/-! ## Resets and the composed operations -/

/-- The part of the invariant that a reset of the units does not bring about: what holds between the phases of ENCODE and DECODE
too, where T and R are mid-way and S is not at its reset values (R22, R34). -/
structure PhaseInv (s : State) : Prop where
  cfg : s.cfg.wf
  ibuf : s.ibuf.within s.cfg.inCap
  obuf : s.obuf.within s.cfg.outCap
  writer : s.w.wf s.cfg
  oneFault : s.fault = 0 ∨ ∃ f : FaultKind, s.fault = f.bit
  noTag : s.tagValid = false → s.tag = 0

theorem Inv.afterPrologue (h : Inv s) : PhaseInv (afterPrologue s) :=
  ⟨h.cfg, h.ibuf, h.obuf, WriterUnit.wf_reset _, h.oneFault, fun _ => rfl⟩

theorem PhaseInv.of_unitMove (h : PhaseInv s) (m : UnitMove s u) : PhaseInv u := by
  cases m with
  | still => exact h
  | table t hwf => exact ⟨h.cfg, h.ibuf, h.obuf, h.writer, h.oneFault, h.noTag⟩
  | writer hsame hwf hobuf hunbound =>
    have hw := hwf h.writer
    have ho := hobuf h.obuf
    unfold SameButWriter at hsame
    rw [hsame] at hw ho ⊢
    exact ⟨h.cfg, h.ibuf, ho, hw, h.oneFault, h.noTag⟩
  | reader hsame hwf =>
    unfold SameButReader at hsame
    rw [hsame]
    exact ⟨h.cfg, h.ibuf, h.obuf, h.writer, h.oneFault, h.noTag⟩
  | @allocated size _ _ e =>
    obtain ⟨-, -, -, hcap⟩ := h.cfg
    have hw := allocate_wf hcap e
    have ho := allocate_obuf h.obuf e
    rcases allocate_cases size s with ⟨-, e'⟩ | ⟨-, -, e'⟩ | ⟨-, -, e'⟩ <;> rw [e'] at e <;> cases e
    · exact ⟨h.cfg, h.ibuf, ho, hw, h.oneFault, h.noTag⟩
    · exact ⟨h.cfg, h.ibuf, ho, hw, h.oneFault, h.noTag⟩
  | given e =>
    rcases giveBuffer_cases s with ⟨-, e'⟩ | ⟨-, -, e'⟩ | ⟨-, -, e'⟩ <;> rw [e'] at e <;> cases e
    exact ⟨h.cfg, h.ibuf, h.obuf, WriterUnit.wf_reset _, h.oneFault, h.noTag⟩

theorem PhaseInv.keptByMoves : KeptByMoves PhaseInv where
  unit h m := h.of_unitMove m
  seq _ h := ⟨h.cfg, h.ibuf, h.obuf, h.writer, h.oneFault, h.noTag⟩
  tag _ h := ⟨h.cfg, h.ibuf, h.obuf, h.writer, h.oneFault, nofun⟩

theorem resetUnits_table_wf (s : State) : (resetUnits s).t.wf := TableUnit.wf_of_empty rfl rfl

theorem resetUnits_reader_wf (s : State) : (resetUnits s).r.wf (resetUnits s).cfg := ReaderUnit.wf_unbound _ _

/-- A success hands over W's buffer and leaves the units at reset (R198, R222, R248). -/
theorem inv_of_finishedFrom (h : FinishedFrom PhaseInv t) : Inv t := by
  obtain ⟨u, hu, e⟩ := h
  obtain ⟨-, hlen, -, -⟩ := hu.writer
  rcases finishMacro_cases u with ⟨-, e'⟩ | ⟨-, -, e'⟩ | ⟨-, -, e'⟩ <;> rw [e'] at e <;> cases e
  exact ⟨hu.cfg, hu.ibuf, hu.obuf, resetUnits_table_wf _, WriterUnit.wf_reset _, resetUnits_reader_wf _, rfl, hu.oneFault,
    nofun, fun _ => ⟨hlen, rfl⟩, hu.noTag⟩

/-- The failure exit gives no buffer, and leaves the units at reset (R268). -/
theorem PhaseInv.failureExit (h : PhaseInv u) (k : ErrKind) : Inv (failureExit k u) := by
  obtain ⟨-, -, hvalid, hlen, -, htagValid, htag, ⟨ht, hcount, hw, hrlen, hrptr, hrbi, hseq⟩,
    ⟨-, -, -, -, hfault, -, -, hibuf, -, hcfg, -, -⟩, hobuf, -⟩ := failureExit_record k u
  refine
    { cfg := hcfg ▸ h.cfg
      ibuf := hcfg ▸ hibuf ▸ h.ibuf
      obuf := hcfg ▸ hobuf ▸ h.obuf
      table := TableUnit.wf_of_empty ht hcount
      writer := hw ▸ WriterUnit.wf_reset _
      reader := by simp [ReaderUnit.wf, hrlen, hrptr, hrbi]
      sequencer := hseq
      oneFault := hfault ▸ h.oneFault
      noBuffer := fun _ => hlen
      owned := fun hv => absurd (hvalid.symm.trans hv) (by decide)
      noTag := ?_ }
  rw [htagValid, htag]
  split
  · exact fun _ => rfl
  · exact h.noTag

/-- SRESET clears every register and resets the units (R250). -/
theorem Inv.softReset (h : Inv s) : Inv (softReset s) :=
  ⟨h.cfg, h.ibuf, h.obuf, resetUnits_table_wf _, WriterUnit.wf_reset _, resetUnits_reader_wf _, rfl, .inl rfl, fun _ => rfl,
    nofun, fun _ => rfl⟩

/-- A hardware reset does so too, and empties both memories (R290). -/
theorem Inv.hardReset (h : Inv s) : Inv (hardReset s) :=
  ⟨h.cfg, Memory.within_nil _, Memory.within_nil _, resetUnits_table_wf _, WriterUnit.wf_reset _, resetUnits_reader_wf _, rfl,
    .inl rfl, fun _ => rfl, nofun, fun _ => rfl⟩

end Sys2Proof.Machine
end

section
/-! PROOF of InvariantHoldsAtReset and EveryStepKeepsTheInvariant (spec 10_state.md R22, R44). -/

namespace Sys2Proof.Machine

/-- Settles O52: at reset every unit is empty or unbound, and no register holds anything. -/
theorem invariantHoldsAtReset : Obligations.InvariantHoldsAtReset where
  cfg := by decide
  ibuf := Memory.within_nil _
  obuf := Memory.within_nil _
  table := TableUnit.wf_of_empty rfl rfl
  writer := WriterUnit.wf_reset _
  reader := ReaderUnit.wf_unbound _ _
  sequencer := rfl
  oneFault := .inl rfl
  noBuffer _ := rfl
  owned := nofun
  noTag _ := rfl

/-- Every command is of one of four kinds (R19): SRESET, RELEASE, a composed operation, or a unit-level command. -/
theorem instr_kinds (i : Instr) : i = .sreset ∨ i = .release ∨ isMacro i = true ∨ isUnitLevel i := by
  by_cases hs : i = .sreset
  · exact .inl hs
  · by_cases hr : i = .release
    · exact .inr (.inl hr)
    · cases hm : isMacro i
      · exact .inr (.inr (.inr ⟨hm, hs, hr⟩))
      · exact .inr (.inr (.inl rfl))

variable {s t : State}

theorem exec_keeps_inv {i : Instr} (h : Inv s) (e : exec i s = .next t) : Inv t := by
  rcases instr_kinds i with rfl | rfl | hi | hi
  · cases e; exact h.softReset
  · rcases release_cases e with rfl | ⟨hf, f, rfl⟩ | rfl
    · exact h
    · exact h.takeFault hf f
    · exact h.release
  · rcases isMacro_cases PhaseInv.keptByMoves hi (fun _ => h.afterPrologue) e with rfl | ⟨hf, f, rfl⟩ | ht | ⟨k, u, hu, rfl⟩
    · exact h
    · exact h.takeFault hf f
    · exact inv_of_finishedFrom ht
    · exact hu.failureExit k
  · rcases unitLevel_cases hi e with rfl | ⟨hf, f, rfl⟩ | ⟨u, hu, ht⟩
    · exact h
    · exact h.takeFault hf f
    · exact (h.of_unitMove hu).of_sameButResults ht

theorem issue_keeps_inv {w : CmdWord} (h : Inv s) (e : issue w s = .next t) : Inv t := by
  rcases issue_cases w s with ⟨i, -, e'⟩ | ⟨_, -, hf, e'⟩ | ⟨_, -, -, e'⟩ <;> rw [e'] at e
  · exact exec_keeps_inv h e
  · cases e; exact h.takeFault hf _
  · cases e; exact h

/-- The host's own side, and its input descriptor, are not what the invariant speaks of (R28). -/
theorem Inv.of_hostSide (h : Inv s) (x0 x1 inLen hostData : Word) (inPresent : Bool) (draws : Nat)
    (pending : List HostAction) :
    Inv { s with
      x0 := x0, x1 := x1, inLen := inLen, hostData := hostData, inPresent := inPresent, draws := draws, pending := pending } :=
  ⟨h.cfg, h.ibuf, h.obuf, h.table, h.writer, h.reader, h.sequencer, h.oneFault, h.noBuffer, h.owned, h.noTag⟩

theorem Inv.hostWriteIbuf (h : Inv s) (a : Nat) (b : Byte) : Inv (hostWriteIbuf a b s) := by
  have hi := hostWriteIbuf_within h.ibuf a b
  rw [hostWriteIbuf_frame] at hi ⊢
  exact ⟨h.cfg, hi, h.obuf, h.table, h.writer, h.reader, h.sequencer, h.oneFault, h.noBuffer, h.owned, h.noTag⟩

theorem Inv.hostReadByte (h : Inv s) (b : Option Byte) : Inv (hostReadByte b s) := by
  rw [hostReadByte_frame]
  exact h.of_hostSide _ _ _ _ _ _ _

theorem hostAct_keeps_inv {act : HostAction} (h : Inv s) (e : hostAct act s = .next t) : Inv t := by
  cases act with
  | writeReg no v =>
    rcases hostWriteReg_cases no v s with ⟨-, e'⟩ | ⟨-, e'⟩
    · exact issue_keeps_inv h (e'.symm.trans e)
    · cases e'.symm.trans e
      exact h.of_hostSide _ _ _ _ _ _ _
  | readReg no => cases e; exact h.of_hostSide _ _ _ _ _ _ _
  | writeIbuf a b => cases e; exact h.hostWriteIbuf a b
  | readIbuf a => cases e; exact h.hostReadByte _
  | readObuf a => cases e; exact h.hostReadByte _
  | hardReset => cases e; exact h.hardReset

/-- Settles O53: a step is one action of the host, and a write of CMD one command. -/
theorem everyStepKeepsTheInvariant : Obligations.EveryStepKeepsTheInvariant := by
  intro s t h e
  cases hp : s.pending with
  | nil => rw [step_of_no_action hp] at e; cases e; exact h
  | cons act rest =>
    rw [step_of_action hp] at e
    exact hostAct_keeps_inv (h.of_hostSide _ _ _ _ _ _ rest) e

end Sys2Proof.Machine
end

section
/-! PROOF of FaultedBlockAcceptsOnlySreset (spec 10_state.md R27, 60_exceptions.md R272). -/

namespace Sys2Proof.Machine

/-- A format without operands has one word (R91). -/
theorem formatZ_eq_ok {w : CmdWord} {i j : Instr} :
    formatZ w i = .ok j ↔ i = j ∧ fieldA w = 0 ∧ fieldB w = 0 ∧ fieldZ w = 0 := by
  unfold formatZ
  split <;> simp_all

theorem formatA_eq_ok {w : CmdWord} {mk : Byte → Except Reject Instr} {j : Instr} :
    formatA w mk = .ok j ↔ mk (fieldA w) = .ok j ∧ fieldB w = 0 ∧ fieldZ w = 0 := by
  unfold formatA
  split <;> simp_all

theorem formatAB_eq_ok {w : CmdWord} {mk : Byte → Byte → Except Reject Instr} {j : Instr} :
    formatAB w mk = .ok j ↔ mk (fieldA w) (fieldB w) = .ok j ∧ fieldZ w = 0 := by
  unfold formatAB
  split <;> simp_all

theorem upTo8_eq_ok {a : Byte} {mk : Nat → Instr} {j : Instr} : upTo8 a mk = .ok j ↔ mk a.toNat = j ∧ a.toNat ≤ 8 := by
  unfold upTo8
  split <;> simp_all

theorem oneBit_eq_ok {a : Byte} {mk : Bool → Instr} {j : Instr} :
    oneBit a mk = .ok j ↔ mk (a.getLsbD 0) = j ∧ a.toNat ≤ 1 := by
  unfold oneBit
  split <;> simp_all

/-- SRESET has one word (R92, R94). -/
theorem eq_word_of_decode_sreset {w : CmdWord} (h : decode w = .ok .sreset) : w = 0x00000001 := by
  unfold decode at h
  split at h
  case h_1 hop =>
    obtain ⟨-, ha, hb, hz⟩ := formatZ_eq_ok.mp h
    have hop : fieldOp w = 1 := BitVec.eq_of_toNat_eq hop
    rw [← word_fields hz, hop, ha, hb]
    rfl
  all_goals simp [formatZ_eq_ok, formatA_eq_ok, formatAB_eq_ok, upTo8_eq_ok, oneBit_eq_ok] at h

/-- A faulted block ignores every command but SRESET (R27). -/
theorem exec_of_faulted {i : Instr} {s : State} (hf : s.fault ≠ 0) (hi : i ≠ .sreset) : exec i s = .next s := by
  unfold exec
  cases i with
  | sreset => exact absurd rfl hi
  | _ => exact command_of_faulted _ hf

/-- Settles O6: only SRESET looks past the FAULT register, and one word alone is SRESET's. -/
theorem faultedBlockAcceptsOnlySreset : Obligations.FaultedBlockAcceptsOnlySreset := by
  intro s hf
  refine ⟨fun i => exec_of_faulted hf, fun w hw => ?_, softReset s, rfl, rfl⟩
  rcases issue_cases w s with ⟨i, hi, e⟩ | ⟨_, -, hclear, -⟩ | ⟨_, -, -, e⟩
  · rw [e]
    exact exec_of_faulted hf fun hs => hw (eq_word_of_decode_sreset (hs ▸ hi))
  · exact absurd hclear hf
  · exact e

end Sys2Proof.Machine
end

section
/-! PROOF of MacrosRejectUnacceptableInput: each composed operation tests the input before anything else (spec
44_encoder.md R192, 45_decoder.md R212, 46_dispatch_system.md R241, R242, 60_exceptions.md R261). -/

namespace Sys2Proof.Machine

variable {s : State}

theorem eCheck_of_unacceptable (h : s.acceptable = false) : eCheck s = .raise .invalidInput s := by
  simp [eCheck, h]

theorem dCheck_of_unacceptable (h : s.acceptable = false) : dCheck s = .raise .invalidInput s := by
  simp [dCheck, h]

theorem encodeFromCheck_of_unacceptable (h : s.acceptable = false) :
    encodeFromCheck s = .raise .invalidInput (s.toPhase .eCheck) := by
  rw [encodeFromCheck, eCheck_of_unacceptable (s := s.toPhase .eCheck) h]
  rfl

theorem decodeFromCheck_of_unacceptable (h : s.acceptable = false) :
    decodeFromCheck s = .raise .invalidInput (s.toPhase .dCheck) := by
  rw [decodeFromCheck, dCheck_of_unacceptable (s := s.toPhase .dCheck) h]
  rfl

/-- The record of a rejected input, when S alone has moved since the prologue (R261, R268). -/
def RejectsInput (s : State) (r : Host.Outcome State Fault Refusal) : Prop :=
  ∃ q, r = .next (failureExit .invalidInput ((afterPrologue s).setSeq q))

theorem command_rejectsInput {k : State → Res Unit} (hf : s.fault = 0) (hfree : s.outValid = false)
    (hk : ∃ q, k (afterPrologue s) = .raise .invalidInput ((afterPrologue s).setSeq q)) :
    RejectsInput s (command (fun s => (prologue s).bind fun _ s => k s) s) := by
  have hpro : prologue s = .ok () (afterPrologue s) := by simp [prologue, hfree, afterPrologue]
  obtain ⟨q, e⟩ := hk
  exact ⟨q, by rw [command_of_ready _ hf, hpro, Res.bind_ok, e]; rfl⟩

/-- With OBUF free, a composed operation on an input that is not acceptable reaches no phase beyond the first. -/
theorem exec_rejectsInput {i : Instr} (hi : isMacro i = true) (hf : s.fault = 0) (hfree : s.outValid = false)
    (h : s.acceptable = false) : RejectsInput s (exec i s) := by
  have h' : (afterPrologue s).acceptable = false := h
  unfold exec
  cases i with
  | encode => exact command_rejectsInput hf hfree ⟨_, encodeFromCheck_of_unacceptable h'⟩
  | decode => exact command_rejectsInput hf hfree ⟨_, decodeFromCheck_of_unacceptable h'⟩
  | compress method => exact command_rejectsInput hf hfree ⟨(afterPrologue s).seq, by rw [h']; rfl⟩
  | decompress => exact command_rejectsInput hf hfree ⟨(afterPrologue s).seq, by rw [h']; rfl⟩
  | _ => exact nomatch hi

/-- Settles O37: the failure exit after the prologue is the record of InvalidInput, which reports no tag. -/
theorem macrosRejectUnacceptableInput : Obligations.MacrosRejectUnacceptableInput := by
  intro i s hi hf hfree hbad
  have hbad : s.acceptable = false := by rwa [← Bool.not_eq_true, s.acceptable_iff]
  obtain ⟨q, e⟩ := exec_rejectsInput hi hf hfree hbad
  obtain ⟨hok, hflag, hvalid, hlen, herr, htagValid, htag, hunits, hframe, hobuf, -⟩ :=
    failureExit_record .invalidInput ((afterPrologue s).setSeq q)
  exact ⟨_, e, ⟨hok, hflag, hvalid, hlen, herr, htagValid, htag, hunits, hframe⟩, hobuf⟩

end Sys2Proof.Machine
end

section
/-! PROOF of CommandsNeverWriteTheInput (spec 10_state.md R21, 20_memory.md R61). -/

namespace Sys2Proof.Machine

/-- What no command but SRESET writes: IBUF, the parameters, the host's side and the registers the host writes. -/
structure SameInput (s t : State) : Prop where
  ibuf : t.ibuf = s.ibuf
  ibufEpoch : t.ibufEpoch = s.ibufEpoch
  cfg : t.cfg = s.cfg
  hostData : t.hostData = s.hostData
  pending : t.pending = s.pending
  x0 : t.x0 = s.x0
  x1 : t.x1 = s.x1
  inLen : t.inLen = s.inLen
  inPresent : t.inPresent = s.inPresent

variable {s t u : State}

theorem SameInput.refl (s : State) : SameInput s s := ⟨rfl, rfl, rfl, rfl, rfl, rfl, rfl, rfl, rfl⟩

theorem SameInput.trans (h : SameInput s t) (k : SameInput t u) : SameInput s u :=
  ⟨k.ibuf.trans h.ibuf, k.ibufEpoch.trans h.ibufEpoch, k.cfg.trans h.cfg, k.hostData.trans h.hostData,
    k.pending.trans h.pending, k.x0.trans h.x0, k.x1.trans h.x1, k.inLen.trans h.inLen, k.inPresent.trans h.inPresent⟩

theorem sameInput_of_macroFrame (h : s.macroFrame t) : SameInput s t := by
  obtain ⟨hx0, hx1, -, -, -, hpresent, hlen, hibuf, hepoch, hcfg, hdata, hpending⟩ := h
  exact ⟨hibuf, hepoch, hcfg, hdata, hpending, hx0, hx1, hlen, hpresent⟩

theorem sameInput_of_sameButResults (h : SameButResults s t) : SameInput s t := by
  unfold SameButResults at h
  rw [h]
  exact ⟨rfl, rfl, rfl, rfl, rfl, rfl, rfl, rfl, rfl⟩

theorem sameInput_of_giveBuffer (h : giveBuffer s = .ok () u) : SameInput s u := by
  rcases giveBuffer_cases s with ⟨-, e⟩ | ⟨-, -, e⟩ | ⟨-, -, e⟩ <;> rw [e] at h <;> cases h
  exact ⟨rfl, rfl, rfl, rfl, rfl, rfl, rfl, rfl, rfl⟩

theorem sameInput_of_allocate {size : Nat} {bound : Bool} (h : allocate size s = .ok bound u) : SameInput s u := by
  rcases allocate_cases size s with ⟨-, e⟩ | ⟨-, -, e⟩ | ⟨-, -, e⟩ <;> rw [e] at h <;> cases h
  · exact ⟨rfl, rfl, rfl, rfl, rfl, rfl, rfl, rfl, rfl⟩
  · exact ⟨rfl, rfl, rfl, rfl, rfl, rfl, rfl, rfl, rfl⟩

theorem UnitMove.sameInput (h : UnitMove s u) : SameInput s u := by
  cases h with
  | still => exact .refl s
  | table t _ => exact ⟨rfl, rfl, rfl, rfl, rfl, rfl, rfl, rfl, rfl⟩
  | writer hsame => exact sameInput_of_macroFrame hsame.macroFrame
  | reader hsame => exact sameInput_of_macroFrame hsame.macroFrame
  | allocated h => exact sameInput_of_allocate h
  | given h => exact sameInput_of_giveBuffer h

theorem sameInput_keptByMoves (s : State) : KeptByMoves (SameInput s) where
  unit h m := h.trans m.sameInput
  seq _ h := h.trans ⟨rfl, rfl, rfl, rfl, rfl, rfl, rfl, rfl, rfl⟩
  tag _ h := h.trans ⟨rfl, rfl, rfl, rfl, rfl, rfl, rfl, rfl, rfl⟩

theorem sameInput_of_finishedFrom (h : FinishedFrom (SameInput s) t) : SameInput s t := by
  obtain ⟨u, hu, e⟩ := h
  rcases finishMacro_cases u with ⟨-, e'⟩ | ⟨-, -, e'⟩ | ⟨-, -, e'⟩ <;> rw [e'] at e <;> cases e
  exact hu.trans ⟨rfl, rfl, rfl, rfl, rfl, rfl, rfl, rfl, rfl⟩

theorem sameInput_failureExit (k : ErrKind) (s : State) : SameInput s (failureExit k s) := by
  obtain ⟨-, -, -, -, -, -, -, -, hframe, -⟩ := failureExit_record k s
  exact sameInput_of_macroFrame hframe

theorem sameInput_takeFault (f : FaultKind) (s : State) : SameInput s (takeFault f s) :=
  ⟨rfl, rfl, rfl, rfl, rfl, rfl, rfl, rfl, rfl⟩

/-- Every command but SRESET leaves the input, its descriptor and the operand registers alone. -/
theorem exec_sameInput {i : Instr} (hi : i ≠ .sreset) (h : exec i s = .next t) : SameInput s t := by
  rcases instr_kinds i with hs | rfl | hm | hu
  · exact absurd hs hi
  · rcases release_cases h with rfl | ⟨-, f, rfl⟩ | rfl
    · exact .refl t
    · exact sameInput_takeFault f s
    · exact ⟨rfl, rfl, rfl, rfl, rfl, rfl, rfl, rfl, rfl⟩
  · have hpro : SameInput s (afterPrologue s) := ⟨rfl, rfl, rfl, rfl, rfl, rfl, rfl, rfl, rfl⟩
    rcases isMacro_cases (sameInput_keptByMoves s) hm (fun _ => hpro) h with rfl | ⟨-, f, rfl⟩ | ht | ⟨k, u, hu, rfl⟩
    · exact .refl t
    · exact sameInput_takeFault f s
    · exact sameInput_of_finishedFrom ht
    · exact hu.trans (sameInput_failureExit k u)
  · rcases unitLevel_cases hu h with rfl | ⟨-, f, rfl⟩ | ⟨u, hmove, ht⟩
    · exact .refl t
    · exact sameInput_takeFault f s
    · exact hmove.sameInput.trans (sameInput_of_sameButResults ht)

/-- Settles O49: SRESET clears registers, and every other command keeps all of the input. -/
theorem commandsNeverWriteTheInput : Obligations.CommandsNeverWriteTheInput := by
  intro i s t h
  by_cases hi : i = .sreset
  · subst hi
    cases h
    exact ⟨rfl, rfl, rfl, rfl, rfl, fun hne => absurd rfl hne⟩
  · have k := exec_sameInput hi h
    exact ⟨k.ibuf, k.ibufEpoch, k.cfg, k.hostData, k.pending, fun _ => ⟨k.x0, k.x1, k.inLen, k.inPresent⟩⟩

end Sys2Proof.Machine
end

section
/-! PROOF of OwnedBufferIsNotMutated (spec 10_state.md R25, 46_dispatch_system.md R244). -/

namespace Sys2Proof.Machine

/-- What the host can see of the buffer it owns, and the record that came with it. -/
structure SameBuffer (s t : State) : Prop where
  outValid : t.outValid = s.outValid
  outLen : t.outLen = s.outLen
  obuf : t.obuf = s.obuf
  obufEpoch : t.obufEpoch = s.obufEpoch
  tag : t.tag = s.tag
  tagValid : t.tagValid = s.tagValid
  err : t.err = s.err

variable {s t u : State}

theorem SameBuffer.refl (s : State) : SameBuffer s s := ⟨rfl, rfl, rfl, rfl, rfl, rfl, rfl⟩

theorem sameBuffer_takeFault (f : FaultKind) (s : State) : SameBuffer s (takeFault f s) :=
  ⟨rfl, rfl, rfl, rfl, rfl, rfl, rfl⟩

theorem SameBuffer.trans (h : SameBuffer s t) (k : SameBuffer t u) : SameBuffer s u :=
  ⟨k.outValid.trans h.outValid, k.outLen.trans h.outLen, k.obuf.trans h.obuf, k.obufEpoch.trans h.obufEpoch,
    k.tag.trans h.tag, k.tagValid.trans h.tagValid, k.err.trans h.err⟩

theorem sameBuffer_of_sameButResults (h : SameButResults s t) : SameBuffer s t := by
  unfold SameButResults at h
  rw [h]
  exact ⟨rfl, rfl, rfl, rfl, rfl, rfl, rfl⟩

theorem allocate_of_owned (size : Nat) (howned : s.outValid = true) : allocate size s = .fault .ownership := if_pos howned

theorem giveBuffer_of_owned (howned : s.outValid = true) : giveBuffer s = .fault .ownership := if_pos howned

/-- While the host owns the buffer, W is unbound, so it writes nothing, and WINIT and WGIVE fault (R25, R141, R148). -/
theorem UnitMove.sameBuffer (howned : s.outValid = true) (hw : s.w = WriterUnit.reset) (h : UnitMove s u) : SameBuffer s u := by
  cases h with
  | still => exact .refl s
  | table t _ => exact ⟨rfl, rfl, rfl, rfl, rfl, rfl, rfl⟩
  | writer _ _ _ hunbound => rw [hunbound hw]; exact .refl s
  | reader hsame =>
    unfold SameButReader at hsame
    rw [hsame]
    exact ⟨rfl, rfl, rfl, rfl, rfl, rfl, rfl⟩
  | allocated h => rw [allocate_of_owned _ howned] at h; exact nomatch h
  | given h => rw [giveBuffer_of_owned howned] at h; exact nomatch h

/-- While the host owns the buffer, no composed operation passes the prologue (R247). -/
theorem isMacro_of_owned {i : Instr} (hi : isMacro i = true) (howned : s.outValid = true) (h : exec i s = .next t) :
    t = s ∨ ∃ f, t = takeFault f s := by
  have hnone : KeptByMoves fun _ => False := ⟨fun h _ => h, fun _ h => h, fun _ h => h⟩
  have hpro : s.outValid = false → False := fun hfree => absurd (howned.symm.trans hfree) (by decide)
  rcases isMacro_cases hnone hi hpro h with h | ⟨-, h⟩ | ⟨_, h, -⟩ | ⟨_, _, h, -⟩
  · exact .inl h
  · exact .inr h
  · exact h.elim
  · exact h.elim

theorem exec_sameBuffer {i : Instr} (hs : Inv s) (howned : s.outValid = true) (hrelease : i ≠ .release)
    (hsreset : i ≠ .sreset) (h : exec i s = .next t) : SameBuffer s t := by
  rcases instr_kinds i with hi | hi | hi | hi
  · exact absurd hi hsreset
  · exact absurd hi hrelease
  · rcases isMacro_of_owned hi howned h with rfl | ⟨f, rfl⟩
    · exact .refl t
    · exact sameBuffer_takeFault f s
  · rcases unitLevel_cases hi h with rfl | ⟨-, f, rfl⟩ | ⟨u, hmove, ht⟩
    · exact .refl t
    · exact sameBuffer_takeFault f s
    · obtain ⟨-, hw⟩ := hs.owned howned
      exact (hmove.sameBuffer howned hw).trans (sameBuffer_of_sameButResults ht)

/-- Settles O51: the invariant has W unbound while the host owns the buffer. -/
theorem ownedBufferIsNotMutated : Obligations.OwnedBufferIsNotMutated := by
  intro i s t hs howned hrelease hsreset h
  have k := exec_sameBuffer hs howned hrelease hsreset h
  exact ⟨k.outValid.trans howned, k.outLen, k.obuf, k.obufEpoch, k.tag, k.tagValid, k.err⟩

end Sys2Proof.Machine
end

section
/-! PROOF of StepRunsTheCommandWritten, ResetStateFollowsTheTable and HostRegisterFileFollowsTheTable (spec 10_state.md R20,
R23, R26, R44). -/

namespace Sys2Proof.Machine

theorem issue_of_decode {w : CmdWord} {i : Instr} (h : decode w = .ok i) (s : State) : issue w s = exec i s := by
  simp [issue, h]

/-- A step at which the host writes CMD is that command word (R20). -/
theorem step_of_cmd_write {s : State} {v : Word} {rest : List HostAction} (h : s.pending = .writeReg 4 v :: rest) :
    step s = issue (v.setWidth 32) { s with pending := rest } := step_of_action h

/-- CMD takes the low 32 bits of a write, so the word placed is the word that runs (logs 7 and 8). -/
theorem setWidth_zext64 (w : Nat) : (zext64 (w % 2 ^ 32 % 2 ^ 32)).setWidth 32 = BitVec.ofNat 32 w := by
  apply BitVec.eq_of_toNat_eq
  simp only [zext64, BitVec.toNat_setWidth, BitVec.toNat_ofNat]
  omega

theorem step_withFetchWord (s : State) (w : Nat) : step (s.withFetchWord 32 w) = issue (BitVec.ofNat 32 w) s := by
  rw [← setWidth_zext64]
  exact step_of_cmd_write (rest := s.pending) rfl

/-- Settles O5: by what a write of CMD does, for either way the write comes to wait. -/
theorem stepRunsTheCommandWritten : Obligations.StepRunsTheCommandWritten :=
  ⟨fun _ _ _ _ hp hd => (step_of_cmd_write hp).trans (issue_of_decode hd _),
    fun s w _ _ hd => (step_withFetchWord s w).trans (issue_of_decode hd s)⟩

theorem State.unitsReset_reset : State.reset.unitsReset := ⟨rfl, rfl, rfl, rfl, rfl, rfl, rfl⟩

/-- Settles O45: each field is the one the table gives. -/
theorem resetStateFollowsTheTable : Obligations.ResetStateFollowsTheTable :=
  ⟨rfl, rfl, rfl, rfl, rfl, rfl, rfl, rfl, rfl, rfl, rfl, State.unitsReset_reset,
    fun a => ⟨Memory.read?_nil a, Memory.read?_nil a⟩⟩

/-! ## The register file -/

theorem register_toNat_status (s : State) :
    (s.register 5).toNat = s.ok.toNat + 2 * s.flag.toNat + 4 * s.outValid.toNat + 8 * s.tagValid.toNat
      + 16 * (decide (s.fault ≠ 0)).toNat := by
  have hok := s.ok.toNat_le
  have hflag := s.flag.toNat_le
  have hout := s.outValid.toNat_le
  have htag := s.tagValid.toNat_le
  have hfault := (decide (s.fault ≠ 0)).toNat_le
  simp only [State.register, State.statusWord, State.faulted, BitVec.toNat_setWidth, BitVec.toNat_ofNat]
  omega

theorem register_toNat_config (s : State) :
    (s.register 12).toNat = s.cfg.methodTag.toNat + (match s.cfg.byteOrder with | .little => 0 | .big => 256) := by
  have htag := s.cfg.methodTag.isLt
  simp only [State.register, State.cfgWord, BitVec.toNat_setWidth, BitVec.toNat_ofNat]
  cases s.cfg.byteOrder <;> dsimp only <;> omega

/-- A register narrower than 64 bits reads zero-extended (R26). -/
theorem toNat_setWidth_byte (v : Byte) : (v.setWidth 64).toNat = v.toNat := by
  have := v.isLt
  rw [BitVec.toNat_setWidth]
  omega

theorem register_of_gt (s : State) {no : Nat} (h : 14 < no) : s.register no = 0 := by
  obtain ⟨k, rfl⟩ := Nat.exists_eq_add_of_le' h
  rfl

theorem hostWriteReg_of_ne_cmd {no : Nat} (h : no ≠ 4) (v : Word) (s : State) :
    hostWriteReg no v s = .next
      { s with
        x0 := if no = 0 then v else s.x0
        x1 := if no = 1 then v else s.x1
        inPresent := if no = 8 then v.getLsbD 0 else s.inPresent
        inLen := if no = 9 then v else s.inLen } := by
  rcases hostWriteReg_cases no v s with ⟨hno, -⟩ | ⟨-, e⟩
  · exact absurd hno h
  · exact e

/-- Settles O46: register by register, and by what a host read and a host write of a register do. -/
theorem hostRegisterFileFollowsTheTable : Obligations.HostRegisterFileFollowsTheTable := by
  refine ⟨fun s => ?_, fun s no rest hp => step_of_action hp, fun s v rest no hp hno => ?_⟩
  · refine ⟨rfl, rfl, rfl, rfl, rfl, register_toNat_status s, ?_, toNat_setWidth_byte _, ?_, rfl, rfl,
      toNat_setWidth_byte _, register_toNat_config s, ?_, fun no => register_of_gt s⟩
    · rw [show s.register 6 = s.err.code.setWidth 64 from rfl, toNat_setWidth_byte]
      cases s.err <;> rfl
    · cases hp : s.inPresent <;> simp [State.register, hp, zext64]
    · rintro ⟨-, hin, -, hout⟩
      exact ⟨zext64_toNat hin, zext64_toNat hout⟩
  · rw [step_of_action hp]
    exact hostWriteReg_of_ne_cmd hno v _

end Sys2Proof.Machine
end

section
/-! PROOF of ByteOrdersFollowTheFormulas (spec 20_memory.md R66). -/

namespace Sys2Proof.Machine

/-! ## Encoding -/

theorem byteOf_toNat {w : Nat} (v : BitVec w) (k : Nat) : byteOf v.toNat k = v.extractLsb' (8 * k) 8 := by
  apply BitVec.eq_of_toNat_eq
  rw [byteOf, BitVec.toNat_ofNat, BitVec.extractLsb'_toNat, Nat.shiftRight_eq_div_pow, Nat.pow_mul]

theorem bytesLittle_toNat {w : Nat} (n : Nat) (v : BitVec w) :
    bytesLittle n v.toNat = (List.range n).map fun k => v.extractLsb' (8 * k) 8 :=
  List.map_congr_left fun k _ => byteOf_toNat v k

/-! ## Decoding -/

/-- The value of a byte sequence is the sum of its bytes, byte `k` weighted by `256 ^ k`. -/
theorem valueLittle_eq_sum (s : List Byte) :
    valueLittle s = ((List.range s.length).map fun k => (s.getD k 0).toNat * 256 ^ k).sum := by
  induction s with
  | nil => rfl
  | cons b rest ih =>
    rw [valueLittle, ih, List.length_cons, List.range_succ_eq_map, List.map_cons, List.sum_cons, List.map_map,
      ← List.sum_map_mul_left]
    simp [Function.comp_def, pow_succ', mul_left_comm]

/-- The big-endian value weights the bytes from the last one on. -/
theorem valueLittle_reverse_eq_sum (s : List Byte) :
    valueLittle s.reverse =
      ((List.range s.length).map fun k => (s.getD (s.length - 1 - k) 0).toNat * 256 ^ k).sum := by
  rw [valueLittle_eq_sum, List.length_reverse]
  refine congrArg List.sum (List.map_congr_left fun k hk => ?_)
  rw [List.getD_eq_getElem?_getD, List.getElem?_reverse (List.mem_range.mp hk), List.getD_eq_getElem?_getD]

/-! ## Decoding undoes encoding -/

theorem bytesLittle_succ (n v : Nat) : bytesLittle (n + 1) v = BitVec.ofNat 8 v :: bytesLittle n (v / 256) := by
  simp [bytesLittle, List.range_succ_eq_map, byteOf, pow_succ', Nat.div_div_eq_div_mul]

/-- Only the low `n` bytes of a value are encoded, so decoding gives it back modulo `256 ^ n`. -/
theorem valueLittle_bytesLittle (n v : Nat) : valueLittle (bytesLittle n v) = v % 256 ^ n := by
  induction n generalizing v with
  | zero => rw [Nat.pow_zero, Nat.mod_one]; rfl
  | succ n ih =>
    calc valueLittle (bytesLittle (n + 1) v)
      _ = v % 256 + 256 * (v / 256 % 256 ^ n) := by rw [bytesLittle_succ, valueLittle, ih, BitVec.toNat_ofNat]
      _ = v % 256 ^ (n + 1) := by rw [pow_succ', Nat.mod_mul]

theorem decBytes_encBytes (order : ByteOrder) (n v : Nat) : decBytes order (encBytes order n v) = v % 256 ^ n := by
  cases order with
  | little => exact valueLittle_bytesLittle n v
  | big => rw [encBytes, decBytes, List.reverse_reverse, valueLittle_bytesLittle]

/-- Settles O55: the bytes of a value are its 8-bit fields, and decoding a byte sequence sums them by weight. -/
theorem byteOrdersFollowTheFormulas : Obligations.ByteOrdersFollowTheFormulas := by
  refine ⟨fun v => ?enc16, fun v => ⟨bytesLittle_toNat 8 v, rfl⟩, fun b0 b1 => ?dec16, fun s hs => ?dec64,
    fun order n v hv => (decBytes_encBytes order n v).trans (Nat.mod_eq_of_lt hv)⟩
  case enc16 =>
    have hbytes : bytesLittle 2 v.toNat = [v.extractLsb' 0 8, v.extractLsb' 8 8] := bytesLittle_toNat 2 v
    exact ⟨hbytes, congrArg List.reverse hbytes⟩
  case dec16 => constructor <;> simp [decBytes, valueLittle]
  case dec64 =>
    have hlittle := valueLittle_eq_sum s
    have hbig := valueLittle_reverse_eq_sum s
    rw [hs] at hlittle hbig
    exact ⟨hlittle, hbig⟩

end Sys2Proof.Machine
end

section
/-! PROOF of HostAccessesToIbuf (spec 20_memory.md R64). -/

namespace Sys2Proof.Machine

section

variable {s : State} {a : Nat}

theorem hostWriteIbuf_of_lt (h : a < s.cfg.inCap) (b : Byte) :
    hostWriteIbuf a b s = { s with ibuf := s.ibuf.write a b } := if_pos h

theorem hostWriteIbuf_of_le (h : s.cfg.inCap ≤ a) (b : Byte) : hostWriteIbuf a b s = s := if_neg (Nat.not_lt.mpr h)

theorem State.hostIbuf?_of_lt (h : a < s.cfg.inCap) : s.hostIbuf? a = some (s.ibufAt a) := if_pos h

/-- IBUF at an address holds what the host last wrote there (R64). -/
theorem State.ibufAt_of_read? {b : Byte} (h : s.ibuf.read? a = some b) : s.ibufAt a = b := by
  rw [State.ibufAt, h, Option.getD_some]

end

/-- Settles O47: the write is one of the memory within `IN_CAP` and nothing beyond it, and the read shows the byte held. -/
theorem hostAccessesToIbuf : Obligations.HostAccessesToIbuf := by
  refine ⟨fun s a b rest hp => ⟨fun ha => ?write, fun ha => ?writeBeyond⟩, fun s a rest hp ha => ?read,
    fun s a rest hp _ => ?readBeyond⟩ <;> rw [step_of_action hp, hostAct]
  case write =>
    rw [hostWriteIbuf_of_lt (s := { s with pending := rest }) ha]
    exact ⟨_, rfl, rfl, State.ibufAt_of_read? (s.ibuf.read?_write_self a b), fun k hk => s.ibuf.read?_write_of_ne b hk⟩
  case writeBeyond => rw [hostWriteIbuf_of_le (s := { s with pending := rest }) ha]
  case read => rw [State.hostIbuf?_of_lt (s := { s with pending := rest }) ha]; rfl
  case readBeyond => exact ⟨_, rfl, hostReadByte_frame _ _⟩

end Sys2Proof.Machine
end

section
/-! PROOF of DecodeOfEncodeIsTheCommand and EncodeOfDecodeIsTheWord (spec 30_encoding.md R90, R91, R92). -/

namespace Sys2Proof

open Sys2Proof.Machine

/-! ## Decoding undoes encoding -/

/-- A number of "0..8 only" fits the byte of its operand field (R92). -/
theorem toNat_ofNat_of_le_eight {n : Nat} (h : n ≤ 8) : (BitVec.ofNat 8 n).toNat = n := by
  rw [BitVec.toNat_ofNat]
  omega

theorem upTo8_ofNat {n : Nat} (h : n ≤ 8) (mk : Nat → Instr) : upTo8 (BitVec.ofNat 8 n) mk = .ok (mk n) := by
  rw [upTo8, toNat_ofNat_of_le_eight h, if_pos h]

theorem oneBit_ofNat (bit : Bool) (mk : Bool → Instr) : oneBit (BitVec.ofNat 8 bit.toNat) mk = .ok (mk bit) := by
  cases bit <;> rfl

/-- The opcode selects the format of the command, which takes the operands back from their fields. -/
theorem decode_encode {i : Instr} (h : i.wf = true) : decode (encode i) = .ok i := by
  obtain ⟨hop, ha, hb, hz⟩ := Laws.EncodedFields.of_word i
  unfold decode
  rw [hop]
  cases i with
  | tins key value => exact formatAB_eq_ok.mpr ⟨by rw [ha, hb]; rfl, hz⟩
  | pack width code => exact formatAB_eq_ok.mpr ⟨by rw [ha, hb]; exact upTo8_ofNat (of_decide_eq_true h) _, hz⟩
  | tlook _ | titer _ | compress _ => exact formatA_eq_ok.mpr ⟨by rw [ha]; rfl, hb, hz⟩
  | wbytes _ | unpack _ => exact formatA_eq_ok.mpr ⟨by rw [ha]; exact upTo8_ofNat (of_decide_eq_true h) _, hb, hz⟩
  | wbit bit => exact formatA_eq_ok.mpr ⟨by rw [ha]; exact oneBit_ofNat bit _, hb, hz⟩
  | _ => exact formatZ_eq_ok.mpr ⟨rfl, ha, hb, hz⟩

/-- Settles O1. -/
theorem decodeOfEncodeIsTheCommand : Obligations.DecodeOfEncodeIsTheCommand := fun _ => decode_encode

/-! ## Encoding undoes decoding -/

/-- `w` is the word of the command `i`, whose operands are in range (R92). -/
def IsWordOf (w : CmdWord) (i : Instr) : Prop := encode i = w ∧ i.wf = true

/-- A byte in the range "0..1 only" is its bit 0. -/
theorem ofNat_getLsbD_zero {a : Byte} (h : a.toNat ≤ 1) : BitVec.ofNat 8 (a.getLsbD 0).toNat = a := by
  rw [← BitVec.setWidth_eq (x := a), ← BitVec.ofNat_toNat]
  interval_cases a.toNat <;> rfl

section

variable {w : CmdWord} {n : Nat} {op a b : Byte} {j : Instr}

theorem isWordOf_of_upTo8 {mk : Nat → Instr} (hmk : ∀ k ≤ 8, IsWordOf (word op (BitVec.ofNat 8 k) b) (mk k))
    (h : upTo8 a mk = .ok j) : IsWordOf (word op a b) j := by
  obtain ⟨rfl, ha⟩ := upTo8_eq_ok.mp h
  simpa using hmk a.toNat ha

theorem isWordOf_of_oneBit {mk : Bool → Instr} (hmk : ∀ bit, IsWordOf (word op (BitVec.ofNat 8 bit.toNat) b) (mk bit))
    (h : oneBit a mk = .ok j) : IsWordOf (word op a b) j := by
  obtain ⟨rfl, ha⟩ := oneBit_eq_ok.mp h
  simpa only [ofNat_getLsbD_zero ha] using hmk (a.getLsbD 0)

/-! A format leaves no field of the word unread but those that must be 0 (R91), so the fields it reads make up the word. -/

theorem isWordOf_of_formatAB {mk : Byte → Byte → Except Reject Instr} (hop : (fieldOp w).toNat = n)
    (h : formatAB w mk = .ok j) (hmk : ∀ a b i, mk a b = .ok i → IsWordOf (word (BitVec.ofNat 8 n) a b) i) :
    IsWordOf w j := by
  obtain ⟨hj, hz⟩ := formatAB_eq_ok.mp h
  have hw := hmk _ _ _ hj
  rwa [← hop, BitVec.ofNat_toNat, BitVec.setWidth_eq, word_fields hz] at hw

theorem isWordOf_of_formatA {mk : Byte → Except Reject Instr} (hop : (fieldOp w).toNat = n)
    (h : formatA w mk = .ok j) (hmk : ∀ a i, mk a = .ok i → IsWordOf (word (BitVec.ofNat 8 n) a 0) i) :
    IsWordOf w j := by
  obtain ⟨hj, hb, hz⟩ := formatA_eq_ok.mp h
  have hw := hmk _ _ hj
  rwa [← hop, ← hb, BitVec.ofNat_toNat, BitVec.setWidth_eq, word_fields hz] at hw

theorem isWordOf_of_formatZ {i : Instr} (hop : (fieldOp w).toNat = n) (h : formatZ w i = .ok j)
    (hi : IsWordOf (word (BitVec.ofNat 8 n) 0 0) i) : IsWordOf w j := by
  obtain ⟨rfl, ha, hb, hz⟩ := formatZ_eq_ok.mp h
  rw [← hop, BitVec.ofNat_toNat, BitVec.setWidth_eq] at hi
  rwa [← word_fields hz, ha, hb]

end

/-- A legal word is the word of the command it decodes to: case `h_n` is row `n` of R92, `h_27` the words with none of the 26
opcodes. -/
theorem isWordOf_of_decode {w : CmdWord} {i : Instr} (h : decode w = .ok i) : IsWordOf w i := by
  have in_range : ∀ k ≤ 8, decide (k ≤ 8) = true := fun _ => decide_eq_true
  unfold decode at h
  split at h <;> rename_i hop
  case h_27 => cases h
  case h_4 => exact isWordOf_of_formatAB hop h fun a b i e => by cases e; exact ⟨rfl, rfl⟩
  case h_21 => exact isWordOf_of_formatAB hop h fun a b i => isWordOf_of_upTo8 fun k hk => ⟨rfl, in_range k hk⟩
  case h_5 | h_9 | h_25 => exact isWordOf_of_formatA hop h fun a i e => by cases e; exact ⟨rfl, rfl⟩
  case h_11 | h_22 => exact isWordOf_of_formatA hop h fun a i => isWordOf_of_upTo8 fun k hk => ⟨rfl, in_range k hk⟩
  case h_12 => exact isWordOf_of_formatA hop h fun a i => isWordOf_of_oneBit fun bit => ⟨rfl, rfl⟩
  all_goals exact isWordOf_of_formatZ hop h ⟨rfl, rfl⟩

/-- Settles O2. -/
theorem encodeOfDecodeIsTheWord : Obligations.EncodeOfDecodeIsTheWord := fun _ _ => isWordOf_of_decode

end Sys2Proof
end

section
/-! PROOF of IllegalWordsAreThoseMatchingNoRow (spec 30_encoding.md R91, R92, R95). -/

namespace Sys2Proof

open Sys2Proof.Machine

/-! ## Words and masks by their fields -/

theorem eq_word_iff {w : CmdWord} {op a b : Byte} :
    w = word op a b ↔ fieldOp w = op ∧ fieldA w = a ∧ fieldB w = b ∧ fieldZ w = 0 := by
  constructor
  · rintro rfl
    simp
  · rintro ⟨rfl, rfl, rfl, hz⟩
    exact (word_fields hz).symm

theorem extractLsb'_and_not {n start len : Nat} (v w : BitVec n) (h : start + len ≤ n) :
    (v &&& ~~~w).extractLsb' start len = v.extractLsb' start len &&& ~~~w.extractLsb' start len := by
  ext i hi
  simp [show start + i < n by omega]

theorem and_not_zero (v : Byte) : v &&& ~~~0 = v := BitVec.and_allOnes

theorem and_not_ones (v : Byte) : v &&& ~~~0xFF = 0 := BitVec.and_zero

/-- A byte of "0..8 only" has no bit above bit 3. -/
theorem and_not_of_le_eight : ∀ {v : Byte}, v.toNat ≤ 8 → v &&& ~~~0x0F = 0 := by decide

/-- A byte of "0..1 only" has no bit above bit 0. -/
theorem and_not_of_le_one : ∀ {v : Byte}, v.toNat ≤ 1 → v &&& ~~~0x01 = 0 := by decide

/-! ## The rows of the table -/

/-- A row with operands: its mask leaves out the bits `xa` and `xb` of the operand fields (R91). -/
def operandRow (mnemonic : String) (op xa xb : Byte) (limit : Nat) : CommandRow :=
  ⟨mnemonic, word op 0 0, ~~~word 0 xa xb, limit⟩

/-- Such a row reads every field of a word on its own. -/
theorem holds_operandRow_iff {mnemonic : String} {op xa xb : Byte} {limit : Nat} {w : CmdWord} :
    (operandRow mnemonic op xa xb limit).holds w ↔
      fieldOp w = op ∧ fieldA w &&& ~~~xa = 0 ∧ fieldB w &&& ~~~xb = 0 ∧ fieldZ w = 0 ∧ (fieldA w).toNat ≤ limit := by
  have hop : fieldOp (w &&& ~~~word 0 xa xb) = fieldOp w := by
    rw [fieldOp, extractLsb'_and_not _ _ (by decide), ← fieldOp, ← fieldOp, fieldOp_word, and_not_zero]
  have ha : fieldA (w &&& ~~~word 0 xa xb) = fieldA w &&& ~~~xa := by
    rw [fieldA, extractLsb'_and_not _ _ (by decide), ← fieldA, ← fieldA, fieldA_word]
  have hb : fieldB (w &&& ~~~word 0 xa xb) = fieldB w &&& ~~~xb := by
    rw [fieldB, extractLsb'_and_not _ _ (by decide), ← fieldB, ← fieldB, fieldB_word]
  have hz : fieldZ (w &&& ~~~word 0 xa xb) = fieldZ w := by
    rw [fieldZ, extractLsb'_and_not _ _ (by decide), ← fieldZ, ← fieldZ, fieldZ_word, and_not_zero]
  rw [operandRow, CommandRow.holds, eq_word_iff, hop, ha, hb, hz, ← fieldA]
  simp only [and_assoc]

/-- The rows of R92: those without operands, of one legal word each, and the eight with operands. -/
theorem commandRows_cases {r : CommandRow} (h : r ∈ commandRows) :
    (r.mask = BitVec.allOnes 32 ∧ (decode r.pattern).isOk = true) ∨
      r = operandRow "TINS" 0x11 0xFF 0xFF 255 ∨ r = operandRow "TLOOK" 0x12 0xFF 0 255 ∨
      r = operandRow "TITER" 0x16 0xFF 0 255 ∨ r = operandRow "WBYTES" 0x21 0x0F 0 8 ∨
      r = operandRow "WBIT" 0x22 0x01 0 1 ∨ r = operandRow "PACK" 0x40 0x0F 0xFF 8 ∨
      r = operandRow "UNPACK" 0x41 0x0F 0 8 ∨ r = operandRow "COMPRESS" 0x60 0xFF 0 255 := by
  revert r
  decide

/-! ## A word that matches a row decodes to a command -/

theorem isOk_iff {x : Except Reject Instr} : x.isOk = true ↔ ∃ i, x = .ok i := by
  cases x <;> simp [Except.isOk, Except.toBool]

/-- A word that matches a row with operands decodes, if all operands the row admits make a command. -/
theorem decode_of_holds_operandRow {mnemonic : String} {op xa xb : Byte} {limit : Nat} {w : CmdWord}
    (h : (operandRow mnemonic op xa xb limit).holds w) (mk : Byte → Byte → Instr)
    (hmk : ∀ a b, a.toNat ≤ limit → b &&& ~~~xb = 0 → IsWordOf (word op a b) (mk a b)) : ∃ i, decode w = .ok i := by
  obtain ⟨hop, -, hb, hz, hle⟩ := holds_operandRow_iff.mp h
  obtain ⟨hw, hwf⟩ := hmk (fieldA w) (fieldB w) hle hb
  rw [eq_word_iff.mpr ⟨hop, rfl, rfl, hz⟩, ← hw]
  exact ⟨_, decode_encode hwf⟩

theorem decode_of_holds {w : CmdWord} {r : CommandRow} (hr : r ∈ commandRows) (h : r.holds w) :
    ∃ i, decode w = .ok i := by
  have hb0 {b : Byte} (hb : b &&& ~~~0 = 0) : 0 = b := hb.symm.trans (and_not_zero b)
  have ofNat_toNat (a : Byte) : BitVec.ofNat 8 a.toNat = a := by simp
  rcases commandRows_cases hr with ⟨hm, hp⟩ | rfl | rfl | rfl | rfl | rfl | rfl | rfl | rfl
  · obtain ⟨hw, -⟩ := h
    rw [hm, BitVec.and_allOnes] at hw
    exact isOk_iff.mp (hw ▸ hp)
  · exact decode_of_holds_operandRow h .tins fun a b _ _ => ⟨rfl, rfl⟩
  · exact decode_of_holds_operandRow h (fun a _ => .tlook a) fun a b _ hb => hb0 hb ▸ ⟨rfl, rfl⟩
  · exact decode_of_holds_operandRow h (fun a _ => .titer a) fun a b _ hb => hb0 hb ▸ ⟨rfl, rfl⟩
  · exact decode_of_holds_operandRow h (fun a _ => .wbytes a.toNat) fun a b ha hb =>
      hb0 hb ▸ ⟨congrArg (word 0x21 · 0) (ofNat_toNat a), decide_eq_true ha⟩
  · exact decode_of_holds_operandRow h (fun a _ => .wbit (a.getLsbD 0)) fun a b ha hb =>
      hb0 hb ▸ ⟨congrArg (word 0x22 · 0) (ofNat_getLsbD_zero ha), rfl⟩
  · exact decode_of_holds_operandRow h (fun a b => .pack a.toNat b) fun a b ha _ =>
      ⟨congrArg (word 0x40 · b) (ofNat_toNat a), decide_eq_true ha⟩
  · exact decode_of_holds_operandRow h (fun a _ => .unpack a.toNat) fun a b ha hb =>
      hb0 hb ▸ ⟨congrArg (word 0x41 · 0) (ofNat_toNat a), decide_eq_true ha⟩
  · exact decode_of_holds_operandRow h (fun a _ => .compress a) fun a b _ hb => hb0 hb ▸ ⟨rfl, rfl⟩

/-! ## A legal word matches the row of its command -/

theorem operandRow_holds_word {mnemonic : String} {op xa xb a b : Byte} {limit : Nat} (ha : a &&& ~~~xa = 0)
    (hb : b &&& ~~~xb = 0) (hle : a.toNat ≤ limit) : (operandRow mnemonic op xa xb limit).holds (word op a b) := by
  rw [holds_operandRow_iff, fieldOp_word, fieldA_word, fieldB_word, fieldZ_word]
  exact ⟨rfl, ha, hb, rfl, hle⟩

theorem exists_row_of_wf {i : Instr} (h : i.wf = true) : ∃ r ∈ commandRows, r.holds (encode i) := by
  have le_255 (a : Byte) : a.toNat ≤ 255 := Nat.le_of_lt_succ a.isLt
  have le_eight {n : Nat} (hn : decide (n ≤ 8) = true) : (BitVec.ofNat 8 n).toNat ≤ 8 :=
    (toNat_ofNat_of_le_eight (of_decide_eq_true hn)).trans_le (of_decide_eq_true hn)
  have le_one (bit : Bool) : (BitVec.ofNat 8 bit.toNat).toNat ≤ 1 := by cases bit <;> decide
  cases i with
  | tins key value =>
    exact ⟨operandRow "TINS" 0x11 0xFF 0xFF 255, by decide,
      operandRow_holds_word (and_not_ones _) (and_not_ones _) (le_255 _)⟩
  | tlook key =>
    exact ⟨operandRow "TLOOK" 0x12 0xFF 0 255, by decide,
      operandRow_holds_word (and_not_ones _) BitVec.zero_and (le_255 _)⟩
  | titer index =>
    exact ⟨operandRow "TITER" 0x16 0xFF 0 255, by decide,
      operandRow_holds_word (and_not_ones _) BitVec.zero_and (le_255 _)⟩
  | wbytes count =>
    exact ⟨operandRow "WBYTES" 0x21 0x0F 0 8, by decide,
      operandRow_holds_word (and_not_of_le_eight (le_eight h)) BitVec.zero_and (le_eight h)⟩
  | wbit bit =>
    exact ⟨operandRow "WBIT" 0x22 0x01 0 1, by decide,
      operandRow_holds_word (and_not_of_le_one (le_one bit)) BitVec.zero_and (le_one bit)⟩
  | pack width code =>
    exact ⟨operandRow "PACK" 0x40 0x0F 0xFF 8, by decide,
      operandRow_holds_word (and_not_of_le_eight (le_eight h)) (and_not_ones _) (le_eight h)⟩
  | unpack width =>
    exact ⟨operandRow "UNPACK" 0x41 0x0F 0 8, by decide,
      operandRow_holds_word (and_not_of_le_eight (le_eight h)) BitVec.zero_and (le_eight h)⟩
  | compress method =>
    exact ⟨operandRow "COMPRESS" 0x60 0xFF 0 255, by decide,
      operandRow_holds_word (and_not_ones _) BitVec.zero_and (le_255 _)⟩
  | _ =>
    unfold CommandRow.holds
    decide

theorem exists_row_of_decode {w : CmdWord} {i : Instr} (h : decode w = .ok i) : ∃ r ∈ commandRows, r.holds w := by
  obtain ⟨rfl, hwf⟩ := isWordOf_of_decode h
  exact exists_row_of_wf hwf

/-- The FAULT register of a block that was not faulted holds, after a fault, the bit of its kind. -/
theorem Machine.takeFault_of_ready {s : State} (h : s.fault = 0) (f : FaultKind) :
    takeFault f s = { s with fault := f.bit } := by
  rw [takeFault, h, show (0 : BitVec 8) ||| f.bit = f.bit from BitVec.zero_or]

/-- Settles O3: a word decodes exactly when it matches a row. -/
theorem illegalWordsAreThoseMatchingNoRow : Obligations.IllegalWordsAreThoseMatchingNoRow := by
  refine fun w s hs => ⟨fun hnone => ?illegal, fun r hr h => ?legal⟩
  case illegal =>
    rcases issue_cases w s with ⟨i, hi, -⟩ | ⟨e, he, -, hissue⟩ | ⟨-, -, hf, -⟩
    · obtain ⟨r, hr, h⟩ := exists_row_of_decode hi
      exact absurd h (hnone r hr)
    · exact ⟨⟨e, he⟩, by rw [hissue, takeFault_of_ready hs]; rfl⟩
    · exact absurd hs hf
  case legal =>
    obtain ⟨i, hi⟩ := decode_of_holds hr h
    exact ⟨i, hi, issue_of_decode hi s⟩

end Sys2Proof
end

section
/-! PROOF of WrittenWordsDecode and WbytesStoresTheSourceBytes (spec 30_encoding.md R92, R93, R95, 41_bitstream_writer.md
R142). -/

namespace Sys2Proof.Machine

/-- Settles O4: the decoder evaluated on each of the words. -/
theorem writtenWordsDecode : Obligations.WrittenWordsDecode := by
  unfold Obligations.WrittenWordsDecode
  decide

/-! ## WBYTES -/

@[simp] theorem sourceBytes_length (x1 : Word) (count : Nat) : (sourceBytes x1 count).length = count := by
  simp [sourceBytes]

/-- Source byte `k` of WBYTES (R93). -/
theorem sourceBytes_getElem? {x1 : Word} {count k : Nat} (h : k < count) :
    (sourceBytes x1 count)[k]? = some (x1.extractLsb' (8 * k) 8) := by
  simp [sourceBytes, h]

/-- The word of WBYTES as a number (R110). -/
theorem encode_wbytes {count : Nat} (h : count ≤ 8) : encode (.wbytes count) = BitVec.ofNat 32 (0x21 + 256 * count) := by
  apply BitVec.eq_of_toNat_eq
  rw [encode, word_toNat, operandA, toNat_ofNat_of_le_eight h, BitVec.toNat_ofNat]
  simp only [opcode, operandB, BitVec.reduceToNat]
  omega

theorem exec_wbytes {s : State} (h : s.fault = 0) (count : Nat) :
    exec (.wbytes count) s =
      ((writeBytes (sourceBytes s.x1 count) s).bind fun _ s => .ok () (complete false s)).outcome s := by
  rw [exec, execWbytes, command_of_ready _ h]

theorem exec_wbytes_of_fault {s : State} {count : Nat} {f : FaultKind} (h : s.fault = 0)
    (hw : writeBytes (sourceBytes s.x1 count) s = .fault f) :
    exec (.wbytes count) s = .next { s with fault := f.bit } := by
  rw [exec_wbytes h, hw, ← takeFault_of_ready h]
  rfl

/-- Settles O16: a write that passes the two checks puts the source bytes at the cursor. -/
theorem wbytesStoresTheSourceBytes : Obligations.WbytesStoresTheSourceBytes := by
  intro count s hcount hf hcap
  refine ⟨encode_wbytes hcount, fun hbi => ?misaligned, fun hbi hover => ?overrun, fun hbi hfit => ?fits⟩
  case misaligned => exact exec_wbytes_of_fault hf (if_pos hbi)
  case overrun =>
    refine exec_wbytes_of_fault (f := .wOverrun) hf ?_
    rw [writeBytes, if_neg (not_not.mpr hbi), sourceBytes_length, if_pos hover]
  case fits =>
    have hptr : s.w.ptr + zext64 count = BitVec.ofNat 64 (s.w.ptr.toNat + count) := by
      rw [BitVec.ofNat_add, BitVec.ofNat_toNat, BitVec.setWidth_eq, zext64]
    have hw := writeBytes_of_fits (bs := sourceBytes s.x1 count) hbi (by rwa [sourceBytes_length]) hcap
    rw [sourceBytes_length, hptr] at hw
    refine ⟨_, by rw [exec_wbytes hf, hw]; rfl, rfl, fun k hk => ?stored, fun a ha => ?others⟩
    case stored =>
      refine (Memory.read?_writeAll _ _ _ _).trans ?_
      rw [sourceBytes_length, if_pos (by omega), Nat.add_sub_cancel_left, sourceBytes_getElem? hk]
    case others =>
      refine (Memory.read?_writeAll _ _ _ _).trans ?_
      rw [sourceBytes_length, if_neg (by omega)]

end Sys2Proof.Machine
end

section
/-! PROOF of EncodedLengthFollowsTheSizeLaw (spec 30_encoding.md R106). -/

namespace Sys2Proof.Wire

open Sys2Proof.Machine

/-- The data region holds `width` bits for each code (R105). -/
@[simp] theorem packbits_length (width : Nat) (cs : List Nat) : (packbits width cs).length = ceilDiv (width * cs.length) 8 := by
  simp [packbits, List.length_flatMap, mul_comm]

/-- Settles O32: the lengths of the five parts of the buffer, added up. -/
theorem encodedLengthFollowsTheSizeLaw : Obligations.EncodedLengthFollowsTheSizeLaw := by
  intro c x
  simp only [enc, List.length_append, List.length_cons, encBytes_length, entries_length, packbits_length, List.length_map,
    Config.countSize, Config.lenSize]
  omega

end Sys2Proof.Wire
end

section
/-! PROOF of BitsPerEntryIsTheLeastWidth (spec 00_scope.md R14, 40_symbol_table.md R124). -/

namespace Sys2Proof.Machine

/-- The search of `clog2` finds the ceiling logarithm from any start at or below it, given the trials to reach it. -/
theorem clog2From_eq_clog {n fuel k : Nat} (hk : k ≤ Nat.clog 2 n) (hfuel : Nat.clog 2 n ≤ k + fuel) :
    clog2From n fuel k = Nat.clog 2 n := by
  induction fuel generalizing k with
  | zero => exact Nat.le_antisymm hk hfuel
  | succ fuel ih =>
    rw [clog2From]
    split
    next h => exact Nat.le_antisymm hk (Nat.clog_le_of_le_pow h)
    next h =>
      have hlt : k < Nat.clog 2 n := Nat.lt_of_not_le fun hle => h ((Nat.clog_le_iff_le_pow Nat.one_lt_two).mp hle)
      exact ih hlt (by omega)

/-- `n` trials are enough for `clog2(n)`, since `n ≤ 2 ^ n`. -/
theorem clog2_eq_clog (n : Nat) : clog2 n = Nat.clog 2 n := by
  have hle : Nat.clog 2 n ≤ n := Nat.clog_le_of_le_pow Nat.lt_two_pow_self.le
  exact clog2From_eq_clog (Nat.zero_le _) (by omega)

theorem bitsPerEntry_eq_clog (n : Nat) : bitsPerEntry n = Nat.clog 2 n := by
  rw [bitsPerEntry, clog2_eq_clog]
  split
  next h => rw [h, Nat.clog_zero_right]
  next => rfl

/-- A width represents `n` values exactly when it is at least `bits(n)` (R124). -/
theorem bitsPerEntry_le_iff {n k : Nat} : bitsPerEntry n ≤ k ↔ n ≤ 2 ^ k := by
  rw [bitsPerEntry_eq_clog, Nat.clog_le_iff_le_pow Nat.one_lt_two]

theorem le_two_pow_bitsPerEntry (n : Nat) : n ≤ 2 ^ bitsPerEntry n := bitsPerEntry_le_iff.mp (Nat.le_refl _)

/-- A table has at most `MAX_ENTRIES = 2 ^ 8` entries. -/
theorem bitsPerEntry_le_eight {n : Nat} (h : n ≤ 256) : bitsPerEntry n ≤ 8 := bitsPerEntry_le_iff.mpr h

/-- Settles O13: `bits(n)` is below exactly the widths that represent `n` values. -/
theorem bitsPerEntryIsTheLeastWidth : Obligations.BitsPerEntryIsTheLeastWidth :=
  ⟨rfl, rfl, fun n _ => ⟨le_two_pow_bitsPerEntry n, fun _ => bitsPerEntry_le_iff.mpr⟩, fun _ => bitsPerEntry_le_eight,
    fun n _ hc => hc.trans_le (le_two_pow_bitsPerEntry n)⟩

end Sys2Proof.Machine
end

section
/-! PROOF of ScanBuildsADenseTable (spec 40_symbol_table.md R129, 44_encoder.md R193). -/

namespace Sys2Proof.Machine

/-! ## Dense tables -/

/-- The keys of T are as many as its count (R30). -/
theorem TableUnit.keys_length {t : TableUnit} (ht : t.wf) : t.keys.length = t.count.toNat := by
  obtain ⟨-, -, -, hle⟩ := ht
  simp [TableUnit.keys, hle]

/-- The valid keys are the ones listed (R30). -/
theorem TableUnit.has_iff_mem_keys {t : TableUnit} (ht : t.wf) {key : Byte} : t.has key = true ↔ key ∈ t.keys := by
  obtain ⟨-, -, hmem, -⟩ := ht
  exact hmem key

/-- The table of an encoder (R129): the value of each key is its position in the order of insertion. -/
structure TableUnit.Dense (t : TableUnit) : Prop where
  wf : t.wf
  valueOf_key : ∀ i k, t.keys[i]? = some k → (t.valueOf k).toNat = i

theorem TableUnit.dense_of_keys_nil {t : TableUnit} (ht : t.wf) (h : t.keys = []) : t.Dense :=
  ⟨ht, fun i k hk => by simp [h] at hk⟩

/-- A key inserted with the count as its value gets its own position, and no key before it is touched. -/
theorem TableUnit.Dense.insert {t : TableUnit} (h : t.Dense) (b : Byte) :
    (t.insert b (BitVec.ofNat 8 t.count.toNat)).Dense := by
  refine ⟨TableUnit.wf_insert h.wf _ _, fun i k hk => ?_⟩
  cases hb : t.has b with
  | true =>
    rw [TableUnit.insert_of_has hb] at hk ⊢
    exact h.valueOf_key i k hk
  | false =>
    have hlen := TableUnit.keys_length h.wf
    rw [TableUnit.keys_insert h.wf hb, List.getElem?_append] at hk
    rw [TableUnit.valueOf_insert hb]
    split at hk
    next =>
      have hne : k ≠ b := by
        rintro rfl
        exact absurd ((TableUnit.has_iff_mem_keys h.wf).mpr (List.mem_of_getElem? hk)) (by simp [hb])
      rw [if_neg hne]
      exact h.valueOf_key i k hk
    next hi =>
      obtain ⟨hi0, rfl⟩ : i - t.keys.length = 0 ∧ b = k := by simpa [List.getElem?_singleton] using hk
      have hlt := TableUnit.count_lt_of_not_has h.wf hb
      rw [if_pos rfl, BitVec.toNat_ofNat]
      omega

/-! ## The scan -/

@[simp] theorem scanTable_nil (t : TableUnit) : scanTable t [] = t := rfl

/-- An insertion of a key that is present changes nothing, so the scan inserts every byte. -/
theorem scanTable_concat (t : TableUnit) (xs : List Byte) (b : Byte) :
    scanTable t (xs ++ [b]) = (scanTable t xs).insert b (BitVec.ofNat 8 (scanTable t xs).count.toNat) := by
  refine (List.foldl_concat ..).trans ?_
  split
  next h => exact (TableUnit.insert_of_has h _).symm
  next => rfl

theorem scanTable_dense {t : TableUnit} (h : t.Dense) (xs : List Byte) : (scanTable t xs).Dense := by
  induction xs using List.reverseRecOn with
  | nil => exact h
  | append_singleton xs b ih => rw [scanTable_concat]; exact ih.insert b

/-- A byte is a key already exactly when it has occurred, so the scan collects the distinct bytes in their order. -/
theorem keys_scanTable {t : TableUnit} (ht : t.wf) (h : t.keys = []) (xs : List Byte) :
    (scanTable t xs).keys = Wire.distinct xs := by
  induction xs using List.reverseRecOn with
  | nil => exact h
  | append_singleton xs b ih =>
    have hwf := (scanTable_dense (TableUnit.dense_of_keys_nil ht h) xs).wf
    have hkey : (scanTable t xs).has b = true ↔ b ∈ xs := by
      rw [TableUnit.has_iff_mem_keys hwf, ih, Wire.mem_distinct]
    rw [scanTable_concat, Wire.distinct_concat]
    split
    next hb => rw [TableUnit.insert_of_has (hkey.mpr hb), ih]
    next hb => rw [TableUnit.keys_insert hwf (Bool.eq_false_iff.mpr (mt hkey.mp hb)), ih]

/-! ## E_SCAN -/

/-- An iteration of E_SCAN inside IBUF inserts its byte (R193). -/
theorem scanStep_of_lt {s : State} (h : s.seq.idx.toNat < s.cfg.inCap) :
    scanStep s = .ok () (s.setTable (s.t.insert (s.ibufAt s.seq.idx.toNat) (BitVec.ofNat 8 s.t.count.toNat))) := by
  rcases scanStep_cases s with ⟨-, hb, e⟩ | ⟨-, -, e⟩ | ⟨hcap, -⟩
  · rw [e, TableUnit.insert_of_has hb]; rfl
  · exact e
  · omega

/-- The state of E_SCAN before the byte in position `j`: the table of the bytes below it, and otherwise only latches of S
written. -/
def ScannedTo (s : State) (j : Nat) (u : State) : Prop :=
  u = { s with t := scanTable s.t.clear ((List.range j).map s.ibufAt), seq := u.seq }

theorem ScannedTo.step {s u : State} {j : Nat} (h : ScannedTo s j u) (hj : j < s.cfg.inCap) (hword : j < 2 ^ 64) :
    ∃ v, scanStep (u.setSeq { u.seq with idx := zext64 j }) = .ok () v ∧ ScannedTo s (j + 1) v := by
  unfold ScannedTo at h ⊢
  have hidx : (zext64 j).toNat = j := zext64_toNat hword
  have hlt : (zext64 j).toNat < u.cfg.inCap := by rw [hidx, h]; exact hj
  refine ⟨_, scanStep_of_lt hlt, ?_⟩
  rw [List.range_succ, List.map_append, List.map_singleton, scanTable_concat, h]
  simp only [setSeq_seq, hidx]
  rfl

/-- The loop of E_SCAN over an input inside IBUF scans all of it. -/
theorem forIdx_scanStep {s : State} (h : s.seq.l.toNat ≤ s.cfg.inCap) :
    ∃ u, forIdx scanStep s.seq.l.toNat 0 (s.setTable s.t.clear) = .ok () u ∧ ScannedTo s s.seq.l.toNat u := by
  have hloop := forIdx_completes (body := scanStep) (P := ScannedTo s) (todo := s.seq.l.toNat) (i := 0)
    (s := s.setTable s.t.clear) rfl fun j u _ hj hu => hu.step (by omega) (by have := s.seq.l.isLt; omega)
  rwa [Nat.zero_add] at hloop

/-- The 9 bits of `T.count` fit `S.N` (R193). -/
theorem toNat_ofNat_count (t : TableUnit) : (BitVec.ofNat 16 t.count.toNat).toNat = t.count.toNat := by
  have := t.count.isLt
  rw [BitVec.toNat_ofNat]
  omega

/-- Settles O14: the scan keeps a table dense and collects the distinct bytes, and the loop of E_SCAN is the scan. -/
theorem scanBuildsADenseTable : Obligations.ScanBuildsADenseTable := by
  refine ⟨fun t xs hc hv => ?table, fun s hs => ?phase⟩
  case table =>
    have hwf := TableUnit.wf_of_empty hv hc
    have hnil := TableUnit.keys_of_count_zero hc
    have hdense := scanTable_dense (TableUnit.dense_of_keys_nil hwf hnil) xs
    have hkeys := keys_scanTable hwf hnil xs
    have hcount : (scanTable t xs).count.toNat = (Wire.distinct xs).length := by
      rw [← hkeys, TableUnit.keys_length hdense.wf]
    refine ⟨hkeys, hcount, ?_, fun hne => ?_, fun i hi => hdense.valueOf_key i _ ?_⟩
    · rw [hcount]; exact Wire.distinct_length_le xs
    · rw [hcount]; exact List.length_pos_iff.mpr (Wire.distinct_ne_nil hne)
    · rw [hkeys]; exact List.getElem?_eq_getElem hi
  case phase =>
    obtain ⟨u, hloop, hu⟩ := forIdx_scanStep hs
    unfold ScannedTo at hu
    refine ⟨_, by rw [eScan, hloop, Res.bind_ok], ?_, ?_, toNat_ofNat_count u.t⟩
    · rw [hu]; rfl
    · rw [hu]; rfl

end Sys2Proof.Machine
end

section
/-! PROOF of TclrClearsTheTable, TinsInsertsAbsentKeysOnly, TlookReportsHitOrMiss, TableSizesAreReported and
TiterReadsInInsertionOrder (spec 40_symbol_table.md R121 to R128). -/

namespace Sys2Proof.Machine

/-- A command word as a number, by its opcode and operands (R110). -/
theorem encode_eq_ofNat (i : Instr) :
    encode i = BitVec.ofNat 32 ((opcode i).toNat + 256 * (operandA i).toNat + 65536 * (operandB i).toNat) := by
  rw [encode, ← word_toNat, BitVec.ofNat_toNat, BitVec.setWidth_eq]

theorem encode_tins (key value : Byte) :
    encode (.tins key value) = BitVec.ofNat 32 (0x11 + 256 * key.toNat + 65536 * value.toNat) :=
  encode_eq_ofNat (.tins key value)

theorem encode_tlook (key : Byte) : encode (.tlook key) = BitVec.ofNat 32 (0x12 + 256 * key.toNat) :=
  encode_eq_ofNat (.tlook key)

theorem encode_titer (index : Byte) : encode (.titer index) = BitVec.ofNat 32 (0x16 + 256 * index.toNat) :=
  encode_eq_ofNat (.titer index)

/-- A command whose body goes to its end ends where the body does, if the block is not faulted. -/
theorem command_of_ok {body : State → Res Unit} {s t : State} (h : s.fault = 0) (hbody : body s = .ok () t) :
    command body s = .next t := by
  rw [command_of_ready _ h, hbody]
  rfl

/-- Settles O8: TCLR is the clearing of T, which touches only the valid bits and the count. -/
theorem tclrClearsTheTable : Obligations.TclrClearsTheTable :=
  ⟨by decide, fun _ hf => by rw [exec]; exact command_of_ok hf rfl⟩

/-! ## TINS -/

theorem exec_tins {s : State} (h : s.fault = 0) (key value : Byte) :
    exec (.tins key value) s = .next (complete (!s.t.has key) (s.setTable (s.t.insert key value))) := by
  rw [exec]
  exact command_of_ok h rfl

theorem exec_tins_of_has {s : State} {key : Byte} (h : s.fault = 0) (hk : s.t.has key = true) (value : Byte) :
    exec (.tins key value) s = .next { s with ok := true, flag := false } := by
  rw [exec_tins h, hk, TableUnit.insert_of_has hk]
  rfl

/-- The insertion of an absent key into a table with room for it: the key goes to `T.ord[T.count]` (R122). -/
theorem TableUnit.insert_of_lt {t : TableUnit} {key : Byte} (hk : t.has key = false) (h : t.count.toNat < 256)
    (value : Byte) :
    t.insert key value =
      { valid := t.valid.set key.toNat true key.isLt
        val := t.val.set key.toNat value key.isLt
        ord := t.ord.set t.count.toNat key h
        count := t.count + 1 } := by
  have hord : t.ord.setIfInBounds t.count.toNat key = t.ord.set t.count.toNat key h := by
    refine Vector.ext fun i hi => ?_
    rw [Vector.getElem_setIfInBounds hi, Vector.getElem_set h hi]
  rw [TableUnit.insert_of_not_has hk, hord]

/-- Settles O9: by whether the key is present. -/
theorem tinsInsertsAbsentKeysOnly : Obligations.TinsInsertsAbsentKeysOnly := by
  refine fun key value s hf => ⟨encode_tins key value, fun hk => exec_tins_of_has hf hk value, fun hk hlt => ?absent,
    fun hk hwf => TableUnit.count_lt_of_not_has hwf hk⟩
  have hk : s.t.has key = false := hk
  rw [exec_tins hf, hk, TableUnit.insert_of_lt hk hlt]
  rfl

/-! ## Lookups and iteration -/

/-- Settles O10: by whether the lookup hits. -/
theorem tlookReportsHitOrMiss : Obligations.TlookReportsHitOrMiss := by
  refine fun key s hf => ⟨encode_tlook key, ?_⟩
  rw [exec]
  split
  next hk => exact command_of_ok hf (by rw [TableUnit.lookup?_eq_some.mpr ⟨hk, rfl⟩]; rfl)
  next hk => exact command_of_ok hf (by rw [TableUnit.lookup?_eq_none.mpr (Bool.eq_false_iff.mpr hk)]; rfl)

/-- Settles O11: each of the three commands is one write of `x[2]`. -/
theorem tableSizesAreReported : Obligations.TableSizesAreReported := by
  refine ⟨by decide, by decide, by decide, fun s hf => ?_⟩
  simp only [exec]
  exact ⟨command_of_ok hf rfl, command_of_ok hf rfl, command_of_ok hf rfl⟩

theorem TableUnit.entry?_of_lt {t : TableUnit} {i : Byte} (h : i.toNat < t.count.toNat) :
    t.entry? i = some (t.keyAt i, t.valueOf (t.keyAt i)) := if_pos h

theorem TableUnit.entry?_of_le {t : TableUnit} {i : Byte} (h : t.count.toNat ≤ i.toNat) : t.entry? i = none :=
  if_neg (Nat.not_lt.mpr h)

/-- Settles O12: by whether the index is below the count. -/
theorem titerReadsInInsertionOrder : Obligations.TiterReadsInInsertionOrder := by
  refine fun index s hf => ⟨encode_titer index, fun hlt k hk => ?entry, fun hle => ?beyond⟩ <;> rw [exec]
  case entry =>
    subst hk
    exact command_of_ok hf (by rw [TableUnit.entry?_of_lt hlt]; rfl)
  case beyond => exact command_of_ok hf (by rw [TableUnit.entry?_of_le hle]; rfl)

end Sys2Proof.Machine
end

section
/-! PROOF of WinitBindsOrFails, WbitFillsTheAccumulator, WflushEmitsThePartialByte and WgiveHandsTheBufferOver (spec
41_bitstream_writer.md R141, R143, R145, R148). -/

namespace Sys2Proof.Machine

/-- A command whose body faults sets the bit of that fault and changes nothing else, if the block is not faulted (R272). -/
theorem command_of_fault {body : State → Res Unit} {s : State} (f : FaultKind) (h : s.fault = 0)
    (hbody : body s = .fault f) : command body s = .next { s with fault := f.bit } := by
  rw [command_of_ready _ h, hbody, ← takeFault_of_ready h]
  rfl

/-- An advanced cursor as a number. -/
theorem add_one_eq_ofNat (v : Word) : v + 1 = BitVec.ofNat 64 (v.toNat + 1) := by
  rw [BitVec.ofNat_add, BitVec.ofNat_toNat, BitVec.setWidth_eq]
  rfl

/-! ## WINIT -/

theorem zext64_of_toNat (v : Word) : zext64 v.toNat = v := by rw [zext64, BitVec.ofNat_toNat, BitVec.setWidth_eq]

theorem allocate_of_gt {size : Nat} {s : State} (hfree : s.outValid = false) (h : s.cfg.outCap < size) :
    allocate size s = .ok false (s.setWriter WriterUnit.reset) := by
  rcases allocate_cases size s with ⟨howned, -⟩ | ⟨-, -, e⟩ | ⟨-, hle, -⟩
  · simp [hfree] at howned
  · exact e
  · omega

theorem allocate_of_le {size : Nat} {s : State} (hfree : s.outValid = false) (h : size ≤ s.cfg.outCap) :
    allocate size s = .ok true
      { s with
        w := { len := zext64 size, ptr := 0, bi := 0, acc := 0 }
        obuf := s.obuf.forgetBelow size
        obufEpoch := s.obufEpoch + 1 } := by
  rcases allocate_cases size s with ⟨howned, -⟩ | ⟨-, hgt, -⟩ | ⟨-, -, e⟩
  · simp [hfree] at howned
  · omega
  · exact e

/-- Settles O15: by the three outcomes of an allocation. -/
theorem winitBindsOrFails : Obligations.WinitBindsOrFails := by
  refine ⟨by decide, fun s hf => ⟨fun howned => ?owned, fun hfree hgt => ?tooLong, fun hfree hle => ?bound⟩⟩ <;>
    rw [exec, execWinit]
  case owned => exact command_of_fault .ownership hf (by rw [allocate_of_owned _ howned]; rfl)
  case tooLong => exact command_of_ok hf (by rw [allocate_of_gt hfree hgt]; rfl)
  case bound =>
    have hbody := allocate_of_le hfree hle
    rw [zext64_of_toNat] at hbody
    refine ⟨_, command_of_ok hf (by rw [hbody]; rfl), rfl, fun a ha => ?forgotten, fun a ha => ?kept⟩
    case forgotten => exact (Memory.read?_forgetBelow _ _ a).trans (if_pos ha)
    case kept => exact (Memory.read?_forgetBelow _ _ a).trans (if_neg (Nat.not_lt.mpr ha))

/-! ## WBIT -/

/-- A bit written to the accumulator goes to its index, and the others stay (R13). -/
theorem setBit_getLsbD (v : Byte) {i j : Nat} (hj : j < 8) (bit : Bool) :
    (setBit v i bit).getLsbD j = if j = i then bit else v.getLsbD j := by
  have hmask : (1#8 <<< i).getLsbD j = decide (j = i) := by
    rw [BitVec.getLsbD_shiftLeft, BitVec.getLsbD_one]
    grind
  cases bit with
  | true => rw [setBit, if_pos rfl, BitVec.getLsbD_or, hmask]; grind
  | false => rw [setBit, if_neg (by decide), BitVec.getLsbD_and, BitVec.getLsbD_not, hmask]; grind

theorem writeBit_of_full {s : State} (h : s.w.len.toNat ≤ s.w.ptr.toNat) (bit : Bool) :
    writeBit bit s = .fault .wOverrun := if_pos h

/-- A bit that does not fill the accumulator stays in it (R143). -/
theorem writeBit_of_held {s : State} (hroom : s.w.ptr.toNat < s.w.len.toNat) (hbi : s.w.bi ≠ 7) (bit : Bool) :
    writeBit bit s = .ok () (s.setWriter { s.w with acc := setBit s.w.acc s.w.bi.toNat bit, bi := s.w.bi + 1 }) := by
  rw [writeBit, if_neg (Nat.not_le.mpr hroom)]
  exact if_neg hbi

/-- The eighth bit emits the byte at the cursor (R143). -/
theorem writeBit_of_eighth {s : State} (hroom : s.w.ptr.toNat < s.w.len.toNat) (hcap : s.w.len.toNat ≤ s.cfg.outCap)
    (hbi : s.w.bi = 7) (bit : Bool) :
    writeBit bit s = .ok ()
      { s with
        obuf := s.obuf.write s.w.ptr.toNat (setBit s.w.acc s.w.bi.toNat bit)
        w := { s.w with ptr := s.w.ptr + 1, acc := 0, bi := 0 } } := by
  rcases writeBit_cases bit s with ⟨hfull, -⟩ | ⟨-, hne, -⟩ | ⟨-, -, -, e⟩ | ⟨-, hout, -⟩
  · omega
  · exact absurd hbi hne
  · exact e
  · omega

theorem exec_wbit_of_ok {bit : Bool} {s t : State} (hf : s.fault = 0) (h : writeBit bit s = .ok () t) :
    exec (.wbit bit) s = .next (complete false t) := by
  rw [exec, execWbit]
  exact command_of_ok hf (by rw [h]; rfl)

/-- Settles O17: by whether a byte is left and whether the bit is the eighth. -/
theorem wbitFillsTheAccumulator : Obligations.WbitFillsTheAccumulator := by
  refine fun bit s hf hcap => ⟨by cases bit <;> decide, fun hfull => ?overrun, fun hroom =>
    ⟨setBit s.w.acc s.w.bi.toNat bit, fun j hj => setBit_getLsbD _ hj bit, fun hbi => ?held, fun hbi => ?eighth⟩⟩
  case overrun =>
    rw [exec, execWbit]
    exact command_of_fault .wOverrun hf (by rw [writeBit_of_full hfull]; rfl)
  case held => exact exec_wbit_of_ok hf (writeBit_of_held hroom hbi bit)
  case eighth =>
    have hbody := writeBit_of_eighth hroom hcap hbi bit
    rw [add_one_eq_ofNat] at hbody
    exact ⟨_, exec_wbit_of_ok hf hbody, rfl, Memory.read?_write_self _ _ _, fun a ha => Memory.read?_write_of_ne _ _ ha⟩

/-! ## WFLUSH -/

/-- A byte-aligned writer has no partial byte (R145). -/
theorem flushBits_of_aligned {s : State} (hbi : s.w.bi = 0) : flushBits s = .ok () s := if_neg (not_not.mpr hbi)

/-- The partial byte is the accumulator (R145). -/
theorem flushBits_of_partial {s : State} (hbi : s.w.bi ≠ 0) (hcap : s.w.ptr.toNat < s.cfg.outCap) :
    flushBits s = .ok ()
      { s with
        obuf := s.obuf.write s.w.ptr.toNat s.w.acc
        w := { s.w with ptr := s.w.ptr + 1, acc := 0, bi := 0 } } := by
  rcases flushBits_cases s with ⟨h, -⟩ | ⟨-, -, e⟩ | ⟨-, hout, -⟩
  · exact absurd h hbi
  · exact e
  · omega

theorem exec_wflush_of_ok {s t : State} (hf : s.fault = 0) (h : flushBits s = .ok () t) :
    exec .wflush s = .next (complete false t) := by
  rw [exec, execWflush]
  exact command_of_ok hf (by rw [h]; rfl)

/-- The accumulator holds zeros from the bit index on (R31 (c)). -/
theorem WriterUnit.wf.acc_getLsbD {c : Config} {w : WriterUnit} (h : w.wf c) {j : Nat} (hj : w.bi.toNat ≤ j) :
    w.acc.getLsbD j = false := by
  obtain ⟨-, -, -, hacc⟩ := h
  exact Nat.testBit_lt_two_pow (hacc.trans_le (Nat.pow_le_pow_right (by omega) hj))

/-- Settles O18: by whether there is a partial byte. -/
theorem wflushEmitsThePartialByte : Obligations.WflushEmitsThePartialByte := by
  refine ⟨by decide, fun s hf hw => ⟨fun hbi => exec_wflush_of_ok hf (flushBits_of_aligned hbi), fun hbi => ?_⟩⟩
  have hcap : s.w.ptr.toNat < s.cfg.outCap := by
    obtain ⟨-, hlen, hroom, -⟩ := hw
    exact (hroom hbi).trans_le hlen
  have hbody := flushBits_of_partial hbi hcap
  rw [add_one_eq_ofNat] at hbody
  exact ⟨_, exec_wflush_of_ok hf hbody, rfl, Memory.read?_write_self _ _ _, fun j hj => WriterUnit.wf.acc_getLsbD hw hj,
    fun a ha => Memory.read?_write_of_ne _ _ ha⟩

/-! ## WGIVE -/

theorem giveBuffer_of_misaligned {s : State} (hfree : s.outValid = false) (hbi : s.w.bi ≠ 0) :
    giveBuffer s = .fault .wMisaligned := by
  rw [giveBuffer, if_neg (by simp [hfree]), if_pos hbi]

theorem giveBuffer_of_aligned {s : State} (hfree : s.outValid = false) (hbi : s.w.bi = 0) :
    giveBuffer s = .ok () { s with outValid := true, outLen := s.w.len, w := WriterUnit.reset } := by
  rw [giveBuffer, if_neg (by simp [hfree]), if_neg (not_not.mpr hbi)]
  rfl

/-- Settles O19: by the two checks of a hand-over in their order. -/
theorem wgiveHandsTheBufferOver : Obligations.WgiveHandsTheBufferOver := by
  refine ⟨by decide, fun s hf => ⟨fun howned => ?owned, fun hfree hbi => ?misaligned, fun hfree hbi => ?given⟩⟩ <;>
    rw [exec, execWgive]
  case owned => exact command_of_fault .ownership hf (by rw [giveBuffer_of_owned howned]; rfl)
  case misaligned => exact command_of_fault .wMisaligned hf (by rw [giveBuffer_of_misaligned hfree hbi]; rfl)
  case given => exact command_of_ok hf (by rw [giveBuffer_of_aligned hfree hbi]; rfl)

end Sys2Proof.Machine
end

section
/-! PROOF of BitWritingPassClosedForm (spec 41_bitstream_writer.md R146). -/

namespace Sys2Proof.Machine

/-! ## Series of commands -/

theorem runCommands_cons {i : Instr} {rest : List Instr} {s t : State} (h : exec i s = .next t) :
    runCommands (i :: rest) s = runCommands rest t := by
  rw [runCommands, h]

theorem runCommands_singleton {i : Instr} {s t : State} (h : exec i s = .next t) : runCommands [i] s = .next t :=
  runCommands_cons h

theorem runCommands_append {xs ys : List Instr} {s t : State} (h : runCommands xs s = .next t) :
    runCommands (xs ++ ys) s = runCommands ys t := by
  induction xs generalizing s with
  | nil => cases h; rfl
  | cons i rest ih =>
    cases hi : exec i s with
    | next u =>
      rw [runCommands_cons hi] at h
      rw [List.cons_append, runCommands_cons hi]
      exact ih h
    | fault f => simp [runCommands, hi] at h
    | refused r => simp [runCommands, hi] at h

/-! ## The stream a writer has taken -/

/-- `b` is byte `q` of a stream: its bit `r` is stream bit `8q + r`, and 0 beyond the end of the stream (R67, R105). -/
def IsStreamByte (stream : List Bool) (q : Nat) (b : Byte) : Prop :=
  ∀ r, r < 8 → b.getLsbD r = stream.getD (8 * q + r) false

theorem getD_concat (stream : List Bool) (bit : Bool) (k : Nat) :
    (stream ++ [bit]).getD k false = if k = stream.length then bit else stream.getD k false := by
  grind

/-- A bit beyond a whole byte of a stream does not touch that byte. -/
theorem IsStreamByte.concat {stream : List Bool} {q : Nat} {b : Byte} (h : IsStreamByte stream q b)
    (hq : q < stream.length / 8) (bit : Bool) : IsStreamByte (stream ++ [bit]) q b := by
  intro r hr
  rw [h r hr, getD_concat, if_neg (by omega)]

/-- The next bit of a stream extends its last byte (R143). -/
theorem IsStreamByte.setBit {stream : List Bool} {b : Byte} (h : IsStreamByte stream (stream.length / 8) b) (bit : Bool) :
    IsStreamByte (stream ++ [bit]) (stream.length / 8) (setBit b (stream.length % 8) bit) := by
  intro r hr
  rw [setBit_getLsbD _ hr, getD_concat, h r hr]
  exact ite_congr (by simp; omega) (fun _ => rfl) fun _ => rfl

/-- There is nothing of a stream of whole bytes beyond them. -/
theorem IsStreamByte.eq_zero {stream : List Bool} {b : Byte} (h : IsStreamByte stream (stream.length / 8) b)
    (hlen : stream.length % 8 = 0) : b = 0 := by
  refine BitVec.eq_of_getLsbD_eq fun r hr => ?_
  rw [h r hr, List.getD_eq_default _ _ (by omega), BitVec.ofNat_eq_ofNat, BitVec.getLsbD_zero]

/-- Bytes of OBUF, from `p` on, are the first `n` bytes of a stream, and the others are those of `m` (R146). -/
structure StreamAt (m : Memory) (p n : Nat) (stream : List Bool) (m' : Memory) : Prop where
  byte : ∀ q, q < n → ∃ b, m'.read? (p + q) = some b ∧ IsStreamByte stream q b
  other : ∀ a, a < p ∨ p + n ≤ a → m'.read? a = m.read? a

/-- One more byte of the stream at the address after those written. -/
theorem StreamAt.write {m m' : Memory} {p n : Nat} {stream : List Bool} {b : Byte} (h : StreamAt m p n stream m')
    (hb : IsStreamByte stream n b) : StreamAt m p (n + 1) stream (m'.write (p + n) b) where
  byte q hq := by
    by_cases hn : q = n
    · exact ⟨b, by rw [hn, Memory.read?_write_self], hn ▸ hb⟩
    · rw [Memory.read?_write_of_ne _ _ (by omega)]
      exact h.byte q (by omega)
  other a ha := by
    rw [Memory.read?_write_of_ne _ _ (by omega)]
    exact h.other a (by omega)

/-- The bytes written are whole, so the stream may go on. -/
theorem StreamAt.concat {m m' : Memory} {p : Nat} {stream : List Bool} (h : StreamAt m p (stream.length / 8) stream m')
    (bit : Bool) : StreamAt m p (stream.length / 8) (stream ++ [bit]) m' where
  byte q hq := by
    obtain ⟨b, hread, hb⟩ := h.byte q hq
    exact ⟨b, hread, hb.concat hq bit⟩
  other := h.other

/-- `u` follows from `s` by commands that wrote a stream from the cursor of `s` on: its whole bytes are emitted, and the
accumulator holds the bits beyond them (R146). -/
structure StreamWritten (s : State) (stream : List Bool) (u : State) : Prop where
  frame : u = { s with w := u.w, ok := u.ok, flag := u.flag, obuf := u.obuf }
  len : u.w.len = s.w.len
  ptr : u.w.ptr.toNat = s.w.ptr.toNat + stream.length / 8
  bi : u.w.bi.toNat = stream.length % 8
  acc : IsStreamByte stream (stream.length / 8) u.w.acc
  obuf : StreamAt s.obuf s.w.ptr.toNat (stream.length / 8) stream u.obuf

theorem StreamWritten.fault {s u : State} {stream : List Bool} (h : StreamWritten s stream u) : u.fault = s.fault := by
  rw [h.frame]

theorem StreamWritten.cfg {s u : State} {stream : List Bool} (h : StreamWritten s stream u) : u.cfg = s.cfg := by
  rw [h.frame]

theorem StreamWritten.complete {s u : State} {stream : List Bool} (h : StreamWritten s stream u) (flag : Bool) :
    StreamWritten s stream (complete flag u) where
  frame := by rw [h.frame]; rfl
  len := h.len
  ptr := h.ptr
  bi := h.bi
  acc := h.acc
  obuf := h.obuf

/-- A byte-aligned writer has an empty accumulator (R31 (c)), so it stands at the beginning of a stream. -/
theorem streamWritten_nil {s : State} (hw : s.w.wf s.cfg) (hbi : s.w.bi = 0) : StreamWritten s [] s where
  frame := rfl
  len := rfl
  ptr := rfl
  bi := by rw [hbi]; rfl
  acc r _ := WriterUnit.wf.acc_getLsbD hw (by rw [hbi]; exact Nat.zero_le r)
  obuf := ⟨fun _ hq => absurd hq (Nat.not_lt_zero _), fun _ _ => rfl⟩

theorem toNat_add_one_of_lt {v w : Word} (h : v.toNat < w.toNat) : (v + 1).toNat = v.toNat + 1 := by bv_omega

/-- A bit index that is not the last of its byte goes on to the next. -/
theorem toNat_add_one_of_ne_seven : ∀ {i : BitVec 3}, i ≠ 7 → i.toNat < 7 ∧ (i + 1).toNat = i.toNat + 1 := by decide

section
variable {s u : State} {stream : List Bool}

/-- The bit write with room for it takes the stream one bit further (R143): by whether the bit completes a byte. -/
theorem StreamWritten.writeBit (h : StreamWritten s stream u) (hcap : s.w.len.toNat ≤ s.cfg.outCap)
    (hroom : s.w.ptr.toNat + stream.length / 8 < s.w.len.toNat) (bit : Bool) :
    ∃ v, writeBit bit u = .ok () v ∧ StreamWritten s (stream ++ [bit]) v := by
  have hlt : u.w.ptr.toNat < u.w.len.toNat := by rw [h.ptr, h.len]; exact hroom
  have hacc := h.bi ▸ h.acc.setBit bit
  have hlen : (stream ++ [bit]).length = stream.length + 1 := List.length_append
  by_cases hbi : u.w.bi = 7
  · have hmod : stream.length % 8 = 7 := by rw [← h.bi, hbi]; rfl
    have hdiv : (stream ++ [bit]).length / 8 = stream.length / 8 + 1 := by omega
    refine ⟨_, writeBit_of_eighth hlt (by rw [h.len, h.cfg]; exact hcap) hbi bit, ?_⟩
    constructor
    case frame => rw [h.frame]
    case len => exact h.len
    case ptr => rw [hdiv, ← Nat.add_assoc, ← h.ptr]; exact toNat_add_one_of_lt hlt
    case bi => show 0 = _; omega
    case acc => exact fun r _ => by rw [List.getD_eq_default _ _ (by omega)]; exact BitVec.getLsbD_zero
    case obuf => rw [hdiv, h.ptr]; exact (h.obuf.concat bit).write hacc
  · obtain ⟨hmod, hnext⟩ := toNat_add_one_of_ne_seven hbi
    rw [h.bi] at hmod hnext
    have hdiv : (stream ++ [bit]).length / 8 = stream.length / 8 := by omega
    refine ⟨_, writeBit_of_held hlt hbi bit, ?_⟩
    constructor
    case frame => rw [h.frame]; rfl
    case len => exact h.len
    case ptr => rw [hdiv]; exact h.ptr
    case bi => show (u.w.bi + 1).toNat = _; omega
    case acc => rw [hdiv]; exact hacc
    case obuf => rw [hdiv]; exact h.obuf.concat bit

/-- A series of WBIT commands with room for its bits takes the stream further by them. -/
theorem StreamWritten.runCommands (h : StreamWritten s stream u) (hf : s.fault = 0)
    (hcap : s.w.len.toNat ≤ s.cfg.outCap) {bits : List Bool}
    (hroom : s.w.ptr.toNat + ceilDiv (stream ++ bits).length 8 ≤ s.w.len.toNat) :
    ∃ v, runCommands (bits.map Instr.wbit) u = .next v ∧ StreamWritten s (stream ++ bits) v := by
  induction bits generalizing stream u with
  | nil => exact ⟨u, rfl, by rwa [List.append_nil]⟩
  | cons bit rest ih =>
    have hnext : s.w.ptr.toNat + stream.length / 8 < s.w.len.toNat := by
      rw [ceilDiv_eight, List.length_append, List.length_cons] at hroom
      omega
    obtain ⟨v, hv, hwritten⟩ := h.writeBit hcap hnext bit
    rw [List.append_cons] at hroom ⊢
    rw [List.map_cons, runCommands_cons (exec_wbit_of_ok (h.fault.trans hf) hv)]
    exact ih (hwritten.complete false) hroom

/-- WFLUSH emits what the accumulator holds of the stream, so that all its bytes are emitted (R145). -/
theorem StreamWritten.flushBits (h : StreamWritten s stream u) (hcap : s.w.len.toNat ≤ s.cfg.outCap)
    (hroom : s.w.ptr.toNat + ceilDiv stream.length 8 ≤ s.w.len.toNat) :
    ∃ t, flushBits u = .ok () t ∧
      t = { u with
            w := { len := s.w.len, ptr := BitVec.ofNat 64 (s.w.ptr.toNat + ceilDiv stream.length 8), bi := 0, acc := 0 }
            obuf := t.obuf } ∧
      StreamAt s.obuf s.w.ptr.toNat (ceilDiv stream.length 8) stream t.obuf := by
  rw [ceilDiv_eight] at hroom ⊢
  by_cases hbi : u.w.bi = 0
  · have hmod : stream.length % 8 = 0 := by rw [← h.bi, hbi]; rfl
    have hdiv : (stream.length + 7) / 8 = stream.length / 8 := by omega
    refine ⟨u, flushBits_of_aligned hbi, ?_, hdiv ▸ h.obuf⟩
    rw [hdiv, ← h.ptr, BitVec.ofNat_toNat, BitVec.setWidth_eq, ← h.len, ← h.acc.eq_zero hmod, ← hbi]
  · have hmod : stream.length % 8 ≠ 0 := fun e => hbi (BitVec.eq_of_toNat_eq (h.bi.trans e))
    have hdiv : (stream.length + 7) / 8 = stream.length / 8 + 1 := by omega
    refine ⟨_, flushBits_of_partial hbi (by rw [h.ptr, h.cfg]; omega), ?_, ?_⟩
    · rw [hdiv, ← Nat.add_assoc, ← h.ptr, ← add_one_eq_ofNat, ← h.len]
    · rw [hdiv, h.ptr]; exact h.obuf.write h.acc

end

/-- Settles O20: the WBITs write the stream of the bits, and WFLUSH completes its last byte. -/
theorem bitWritingPassClosedForm : Obligations.BitWritingPassClosedForm := by
  intro bits s hf hw hbi hroom
  have hcap : s.w.len.toNat ≤ s.cfg.outCap := by
    obtain ⟨-, hlen, -⟩ := hw
    exact hlen
  obtain ⟨u, hrun, h⟩ := (streamWritten_nil hw hbi).runCommands hf hcap (bits := bits) hroom
  rw [List.nil_append] at h
  refine ⟨?flushed, u, hrun, h.frame, h.len, h.ptr, h.bi, fun r hr => ?acc, h.obuf.byte, h.obuf.other⟩
  case flushed =>
    obtain ⟨t, hflush, ht, hobuf⟩ := h.flushBits hcap hroom
    have hexec := exec_wflush_of_ok (h.fault.trans hf) hflush
    refine ⟨complete false t, (runCommands_append hrun).trans (runCommands_singleton hexec), ?_, hobuf.byte, hobuf.other⟩
    rw [ht, h.frame]
    rfl
  case acc =>
    rw [h.acc r hr]
    by_cases hlt : r < bits.length % 8
    · rw [decide_eq_true hlt, Bool.true_and]
    · rw [decide_eq_false hlt, Bool.false_and, List.getD_eq_default _ _ (by omega)]

end Sys2Proof.Machine
end

section
/-! PROOF of RinitBindsTheInput, ByteReadsTakeTheBytesAtTheCursor, RremReportsTheRemainder and RbitTakesTheLookaheadBit
(spec 42_bitstream_reader.md R161 to R166). -/

namespace Sys2Proof.Machine

/-! ## RINIT -/

theorem bindReader_of_le {s : State} (hin : s.inPresent = true) (hlen : s.inLen.toNat ≤ s.cfg.inCap) :
    bindReader s = .ok true (s.setReader
      { len := s.inLen, ptr := 0, bi := 0, la := if 0 < s.inLen.toNat then s.ibufAt 0 else s.r.la }) := by
  rcases bindReader_cases s with ⟨-, -, e⟩ | ⟨hno, -⟩
  · exact e
  · exact absurd ⟨hin, hlen⟩ hno

theorem bindReader_of_no_input {s : State} (h : s.inPresent = false ∨ s.cfg.inCap < s.inLen.toNat) :
    bindReader s = .ok false (s.setReader { s.r with len := 0, ptr := 0, bi := 0 }) := by
  rcases bindReader_cases s with ⟨hin, hlen, -⟩ | ⟨-, e⟩
  · rcases h with hno | hlong
    · simp [hno] at hin
    · omega
  · exact e

/-- Settles O21: by whether there is an input that IBUF can hold. -/
theorem rinitBindsTheInput : Obligations.RinitBindsTheInput := by
  refine ⟨by decide, fun s hf => ⟨fun hin hlen => ?bound, fun hno => ?unbound⟩⟩ <;> rw [exec, execRinit]
  case bound => exact command_of_ok hf (by rw [bindReader_of_le hin hlen]; rfl)
  case unbound => exact command_of_ok hf (by rw [bindReader_of_no_input hno]; rfl)

/-! ## RD8, RD16 and RD64 -/

/-- The three byte-level reads are one command with the count as a parameter. -/
theorem exec_of_byteRead {i : Instr} {n : Nat} (hi : (i, n) ∈ [(Instr.rd8, 1), (Instr.rd16, 2), (Instr.rd64, 8)])
    (s : State) :
    exec i s = command (fun s => (readBytes n s).bind fun bs s =>
      .ok () (complete false (s.setRes0 (zext64 (decBytes s.cfg.byteOrder bs))))) s := by
  simp only [List.mem_cons, Prod.mk.injEq, List.not_mem_nil, or_false] at hi
  obtain ⟨rfl, rfl⟩ | ⟨rfl, rfl⟩ | ⟨rfl, rfl⟩ := hi <;> rfl

theorem readBytes_of_misaligned {s : State} (hbi : s.r.bi ≠ 0) (n : Nat) : readBytes n s = .fault .rMisaligned := if_pos hbi

/-- A byte-level read beyond `R.len` faults (R162 to R164). -/
theorem readBytes_of_overrun {n : Nat} {s : State} (hbi : s.r.bi = 0) (h : s.remaining < n) :
    readBytes n s = .fault .rOverrun := by
  rw [readBytes, if_neg (not_not.mpr hbi), if_pos h]

/-- A cursor advanced by a count, as a number. -/
theorem add_zext64_eq_ofNat (v : Word) (n : Nat) : v + zext64 n = BitVec.ofNat 64 (v.toNat + n) := by
  rw [BitVec.ofNat_add, BitVec.ofNat_toNat, BitVec.setWidth_eq, zext64]

/-- Settles O22: by the two checks of a byte-level read in their order. -/
theorem byteReadsTakeTheBytesAtTheCursor : Obligations.ByteReadsTakeTheBytesAtTheCursor := by
  refine ⟨by decide, by decide, by decide, fun i n s hi hf hcap =>
    ⟨fun hbi => ?misaligned, fun hbi hover => ?overrun, fun hbi hfit => ?read⟩⟩ <;> rw [exec_of_byteRead hi]
  case misaligned => exact command_of_fault .rMisaligned hf (by rw [readBytes_of_misaligned hbi]; rfl)
  case overrun =>
    have hpos : 0 < n := by
      simp only [List.mem_cons, Prod.mk.injEq, List.not_mem_nil, or_false] at hi
      omega
    have hrem : s.remaining < n := by rw [State.remaining]; omega
    exact command_of_fault .rOverrun hf (by rw [readBytes_of_overrun hbi hrem]; rfl)
  case read =>
    have hbody := readBytes_of_fits hbi hfit hcap
    rw [add_zext64_eq_ofNat] at hbody
    exact command_of_ok hf (by rw [hbody]; rfl)

/-! ## RREM -/

theorem exec_rrem {s : State} (hf : s.fault = 0) :
    exec .rrem s = .next (complete false (s.setRes0 (zext64 s.remaining))) := by
  rw [exec]
  exact command_of_ok hf rfl

theorem zext64_remaining_toNat (s : State) : (zext64 s.remaining).toNat = s.r.len.toNat - s.r.ptr.toNat :=
  zext64_toNat ((Nat.sub_le _ _).trans_lt s.r.len.isLt)

/-- Settles O23: the remainder fits `x[2]`, and it is exact since the cursor is not beyond the end (R32 (a)). -/
theorem rremReportsTheRemainder : Obligations.RremReportsTheRemainder := by
  refine ⟨by decide, fun s hf hptr => ⟨_, exec_rrem hf, rfl, ?_⟩⟩
  rw [complete_x2, setRes0_x2, zext64_remaining_toNat]
  exact Nat.sub_add_cancel hptr

/-! ## RBIT -/

theorem readBit_of_empty {s : State} (h : s.r.len.toNat ≤ s.r.ptr.toNat) : readBit s = .fault .rOverrun := if_pos h

/-- A bit before bit 7 leaves the cursor and the lookahead (R166). -/
theorem readBit_of_within {s : State} (hleft : s.r.ptr.toNat < s.r.len.toNat) (hbi : s.r.bi ≠ 7) :
    readBit s = .ok (s.r.la.getLsbD s.r.bi.toNat) (s.setReader { s.r with bi := s.r.bi + 1 }) := by
  rw [readBit, if_neg (Nat.not_le.mpr hleft)]
  exact if_neg hbi

/-- Bit 7 advances the cursor and refills the lookahead from there (R166, the eager advance). -/
theorem readBit_of_eighth {s : State} (hleft : s.r.ptr.toNat < s.r.len.toNat) (hcap : s.r.len.toNat ≤ s.cfg.inCap)
    (hbi : s.r.bi = 7) :
    readBit s = .ok (s.r.la.getLsbD 7) (s.setReader
      { s.r with
        bi := 0
        ptr := s.r.ptr + 1
        la := if s.r.ptr.toNat + 1 < s.r.len.toNat then s.ibufAt (s.r.ptr.toNat + 1) else s.r.la }) := by
  rw [readBit, if_neg (Nat.not_le.mpr hleft), hbi]
  simp only [if_true]
  rw [refill_of_le (by simpa using hcap)]
  simp only [setReader_r, toNat_add_one_of_lt hleft]
  rfl

theorem exec_rbit_of_ok {bit : Bool} {s t : State} (hf : s.fault = 0) (h : readBit s = .ok bit t) :
    exec .rbit s = .next (complete false (t.setRes0 (zext64 bit.toNat))) := by
  rw [exec, execRbit]
  exact command_of_ok hf (by rw [h]; rfl)

/-- Settles O24: by whether a byte is left and whether the bit is its last. -/
theorem rbitTakesTheLookaheadBit : Obligations.RbitTakesTheLookaheadBit := by
  refine ⟨by decide, fun s hf hcap => ⟨fun hnone => ?overrun, fun hleft hbi => ?within, fun hleft hbi => ?eighth⟩⟩
  case overrun =>
    rw [exec, execRbit]
    exact command_of_fault .rOverrun hf (by rw [readBit_of_empty hnone]; rfl)
  case within => exact exec_rbit_of_ok hf (readBit_of_within hleft hbi)
  case eighth =>
    have hbody := readBit_of_eighth hleft hcap hbi
    rw [add_one_eq_ofNat] at hbody
    exact exec_rbit_of_ok hf hbody

end Sys2Proof.Machine
end

section
/-! PROOF of BitReadingPassClosedForm (spec 42_bitstream_reader.md R167). -/

namespace Sys2Proof.Machine

/-- Bit `k` of the bit stream that begins with byte `p` of IBUF: bit `k mod 8` of byte `p + k div 8` (R67). -/
def State.streamBit (s : State) (p k : Nat) : Bool := (s.ibufAt (p + k / 8)).getLsbD (k % 8)

/-- R stands before bit `k` of the stream that begins with byte `p`, and its lookahead is current (R32 (c)). -/
structure ReaderAt (p k : Nat) (s : State) : Prop where
  ptr : s.r.ptr.toNat = p + k / 8
  bi : s.r.bi.toNat = k % 8
  la : s.r.ptr.toNat < s.r.len.toNat → s.r.la = s.ibufAt s.r.ptr.toNat

/-- A bit read with a byte left gives the stream's next bit and goes on to the one after it (R166): by whether the bit is the
last of its byte. -/
theorem ReaderAt.readBit {s : State} {p k : Nat} (h : ReaderAt p k s) (hcap : s.r.len.toNat ≤ s.cfg.inCap)
    (hleft : p + k / 8 < s.r.len.toNat) :
    ∃ t, readBit s = .ok (s.streamBit p k) t ∧ t.r.len = s.r.len ∧ ReaderAt p (k + 1) t := by
  rw [← h.ptr] at hleft
  have hla : s.r.la = s.ibufAt (p + k / 8) := h.ptr ▸ h.la hleft
  rw [State.streamBit, ← hla]
  by_cases hbi : s.r.bi = 7
  · have hmod : k % 8 = 7 := by rw [← h.bi, hbi]; rfl
    have hdiv : (k + 1) / 8 = k / 8 + 1 := by omega
    have hptr := toNat_add_one_of_lt hleft
    rw [hmod]
    refine ⟨_, readBit_of_eighth hleft hcap hbi, rfl, ?_⟩
    constructor
    case ptr => rw [hdiv, ← Nat.add_assoc, ← h.ptr]; exact hptr
    case bi => show 0 = _; omega
    case la =>
      simp only [setReader_r, hptr]
      exact fun hlt => if_pos hlt
  · obtain ⟨hmod, hnext⟩ := toNat_add_one_of_ne_seven hbi
    rw [h.bi] at hmod hnext
    have hdiv : (k + 1) / 8 = k / 8 := by omega
    rw [← h.bi]
    refine ⟨_, readBit_of_within hleft hbi, rfl, ?_⟩
    constructor
    case ptr => rw [hdiv]; exact h.ptr
    case bi => show (s.r.bi + 1).toNat = _; omega
    case la => exact h.la

/-- `u` follows from `s` by `m` RBIT commands: R has gone `m` bits on from byte `R.ptr` of `s`, and `x[2]` holds the last bit
(R167). -/
structure BitsRead (s : State) (m : Nat) (u : State) : Prop where
  frame : u = { s with r := u.r, x2 := u.x2, ok := u.ok, flag := u.flag }
  len : u.r.len = s.r.len
  position : ReaderAt s.r.ptr.toNat m u
  last : 0 < m → u.x2 = zext64 (s.streamBit s.r.ptr.toNat (m - 1)).toNat

section
variable {s u : State} {m : Nat}

theorem BitsRead.fault (h : BitsRead s m u) : u.fault = s.fault := by rw [h.frame]

theorem BitsRead.cfg (h : BitsRead s m u) : u.cfg = s.cfg := by rw [h.frame]

/-- IBUF is as it was (R168), so the stream is too. -/
theorem BitsRead.streamBit (h : BitsRead s m u) (p k : Nat) : u.streamBit p k = s.streamBit p k := by rw [h.frame]; rfl

theorem bitsRead_zero (hbi : s.r.bi = 0) (hla : s.r.la = s.ibufAt s.r.ptr.toNat) : BitsRead s 0 s where
  frame := rfl
  len := rfl
  position := ⟨rfl, by rw [hbi]; rfl, fun _ => hla⟩
  last h := absurd h (Nat.lt_irrefl 0)

/-- One more RBIT with a byte left. -/
theorem BitsRead.rbit (h : BitsRead s m u) (hf : s.fault = 0) (hcap : s.r.len.toNat ≤ s.cfg.inCap)
    (hleft : s.r.ptr.toNat + m / 8 < s.r.len.toNat) : ∃ v, exec .rbit u = .next v ∧ BitsRead s (m + 1) v := by
  obtain ⟨t, hread, hlen, hposition⟩ := h.position.readBit (by rw [h.len, h.cfg]; exact hcap) (by rw [h.len]; exact hleft)
  refine ⟨_, exec_rbit_of_ok (h.fault.trans hf) hread, ?_⟩
  constructor
  case frame =>
    have hframe := readBit_frame hread
    unfold SameButReader at hframe
    rw [hframe, h.frame]
    rfl
  case len => exact hlen.trans h.len
  case position => exact ⟨hposition.ptr, hposition.bi, hposition.la⟩
  case last => exact fun _ => by rw [← h.streamBit]; rfl

/-- A series of RBIT commands with enough bytes for them reads the stream from the cursor on. -/
theorem runCommands_rbits (hf : s.fault = 0) (hcap : s.r.len.toNat ≤ s.cfg.inCap) (hbi : s.r.bi = 0)
    (hla : s.r.la = s.ibufAt s.r.ptr.toNat) (hroom : s.r.ptr.toNat + ceilDiv m 8 ≤ s.r.len.toNat) :
    ∃ t, runCommands (List.replicate m .rbit) s = .next t ∧ BitsRead s m t := by
  induction m with
  | zero => exact ⟨s, rfl, bitsRead_zero hbi hla⟩
  | succ m ih =>
    rw [ceilDiv_eight] at ih hroom
    obtain ⟨u, hrun, h⟩ := ih (by omega)
    obtain ⟨v, hv, hnext⟩ := h.rbit hf hcap (by omega)
    exact ⟨v, by rw [List.replicate_succ', runCommands_append hrun, runCommands_singleton hv], hnext⟩

end

theorem zext64_bool_toNat (b : Bool) : (zext64 b.toNat).toNat = b.toNat :=
  zext64_toNat ((Bool.toNat_le b).trans_lt (by decide))

/-- Settles O25: the RBITs read the stream from the cursor on, and RREM subtracts where they end. -/
theorem bitReadingPassClosedForm : Obligations.BitReadingPassClosedForm := by
  intro m s hf hr hbi hla hroom
  have hcap : s.r.len.toNat ≤ s.cfg.inCap := by
    obtain ⟨-, hlen, -⟩ := hr
    exact hlen
  obtain ⟨t, hrun, h⟩ := runCommands_rbits hf hcap hbi hla hroom
  refine ⟨t, hrun, h.frame, h.len, h.position.ptr, h.position.bi, fun hm => ?last, _, exec_rrem (h.fault.trans hf), ?rest⟩
  case last => rw [h.last hm, zext64_bool_toNat, State.streamBit]
  case rest => rw [complete_x2, setRes0_x2, zext64_remaining_toNat, h.len, h.position.ptr, Nat.sub_add_eq]

end Sys2Proof.Machine
end

section
/-! PROOF of PackIsASeriesOfWbits and PackIsABarrelShift (spec 43_pack_unpack.md R181, R182). -/

namespace Sys2Proof.Machine

/-! ## A series of commands that ends in a fault -/

/-- A faulted block ignores a series of commands without an SRESET (R27). -/
theorem runCommands_of_faulted {is : List Instr} {s : State} (hf : s.fault ≠ 0) (his : ∀ i ∈ is, i ≠ .sreset) :
    runCommands is s = .next s := by
  induction is with
  | nil => rfl
  | cons i rest ih =>
    rw [runCommands_cons (exec_of_faulted hf (his i List.mem_cons_self))]
    exact ih fun j hj => his j (List.mem_cons_of_mem i hj)

/-- A series in which one command faults ends with the fault of that command. -/
theorem runCommands_of_fault {xs rest : List Instr} {i : Instr} {s u v : State} (hrun : runCommands xs s = .next u)
    (hi : exec i u = .next v) (hf : v.fault ≠ 0) (hrest : ∀ j ∈ rest, j ≠ .sreset) :
    runCommands (xs ++ i :: rest) s = .next v := by
  rw [runCommands_append hrun, runCommands_cons hi, runCommands_of_faulted hf hrest]

/-! ## The bits of a code -/

/-- Bit `j` of the bits of a code (R181). -/
theorem codeBits_getD (width : Nat) (code : Byte) (j : Nat) :
    (codeBits width code).getD j false = (decide (j < width) && code.getLsbD j) := by
  by_cases hj : j < width <;> simp [codeBits, List.getD_eq_getElem?_getD, hj]

/-- The bits of a code form the code modulo `2^width` (R182). -/
theorem bitsValue_codeBits (width : Nat) (code : Byte) : bitsValue (codeBits width code) = code.toNat % 2 ^ width := by
  refine Nat.eq_of_testBit_eq fun i => ?_
  rw [bitsValue_testBit, codeBits_getD, Nat.testBit_mod_two_pow]
  rfl

theorem bitsValue_append (xs ys : List Bool) : bitsValue (xs ++ ys) = bitsValue xs + bitsValue ys * 2 ^ xs.length := by
  induction xs with
  | nil => simp [bitsValue]
  | cons x xs ih =>
    rw [List.cons_append, bitsValue, bitsValue, ih, List.length_cons, Nat.pow_succ]
    ring

/-- A byte of a stream is that byte of the number which the stream's bits form. -/
theorem IsStreamByte.eq_byteOf {stream : List Bool} {q : Nat} {b : Byte} (h : IsStreamByte stream q b) :
    b = byteOf (bitsValue stream) q := by
  refine BitVec.eq_of_getLsbD_eq fun r hr => ?_
  have hpow : 256 ^ q = 2 ^ (8 * q) := (pow_mul 2 8 q).symm
  rw [h r hr, byteOf, BitVec.getLsbD_ofNat, decide_eq_true hr, Bool.true_and, hpow, Nat.testBit_div_two_pow,
    bitsValue_testBit, Nat.add_comm]

/-! ## The writer under PACK -/

/-- The stream of a writer within its invariants begins with the bits that the accumulator holds. -/
theorem streamWritten_held {s : State} (hw : s.w.wf s.cfg) : StreamWritten s (codeBits s.w.bi.toNat s.w.acc) s := by
  have hlt := s.w.bi.isLt
  have hdiv : (codeBits s.w.bi.toNat s.w.acc).length / 8 = 0 := by rw [codeBits_length]; omega
  constructor
  case frame => rfl
  case len => rfl
  case ptr => rw [hdiv, Nat.add_zero]
  case bi => rw [codeBits_length]; omega
  case acc =>
    intro r _
    rw [hdiv, Nat.mul_zero, Nat.zero_add, codeBits_getD]
    by_cases hr : r < s.w.bi.toNat
    · rw [decide_eq_true hr, Bool.true_and]
    · rw [decide_eq_false hr, Bool.false_and, WriterUnit.wf.acc_getLsbD hw (Nat.not_lt.mp hr)]
  case obuf => rw [hdiv]; exact ⟨fun _ hq => absurd hq (Nat.not_lt_zero _), fun _ _ => rfl⟩

section
variable {s u : State} {stream : List Bool}

/-- Bits with room for them take the stream further by them. -/
theorem StreamWritten.writeBits (h : StreamWritten s stream u) (hcap : s.w.len.toNat ≤ s.cfg.outCap) {bits : List Bool}
    (hroom : s.w.ptr.toNat + ceilDiv (stream ++ bits).length 8 ≤ s.w.len.toNat) :
    ∃ v, writeBits bits u = .ok () v ∧ StreamWritten s (stream ++ bits) v := by
  induction bits generalizing stream u with
  | nil => exact ⟨u, rfl, by rwa [List.append_nil]⟩
  | cons bit rest ih =>
    have hnext : s.w.ptr.toNat + stream.length / 8 < s.w.len.toNat := by
      rw [ceilDiv_eight, List.length_append, List.length_cons] at hroom
      omega
    obtain ⟨v, hv, hwritten⟩ := h.writeBit hcap hnext bit
    rw [List.append_cons] at hroom ⊢
    rw [writeBits_cons, hv, Res.bind_ok]
    exact ih hwritten hroom

/-- The bound check of PACK passes on a code with room for it, so the code takes the stream further by its bits (R181). -/
theorem StreamWritten.packCode (h : StreamWritten s stream u) (hcap : s.w.len.toNat ≤ s.cfg.outCap) {width : Nat}
    {code : Byte} (hroom : s.w.ptr.toNat + ceilDiv (stream ++ codeBits width code).length 8 ≤ s.w.len.toNat) :
    ∃ v, packCode width code u = .ok () v ∧ StreamWritten s (stream ++ codeBits width code) v := by
  obtain ⟨v, hv, hwritten⟩ := h.writeBits hcap hroom
  refine ⟨v, ?_, hwritten⟩
  rw [List.length_append, codeBits_length, ceilDiv_eight] at hroom
  rcases packCode_cases width code u with ⟨⟨-, hover⟩, -⟩ | ⟨-, e⟩
  · rw [h.ptr, h.len, h.bi, ceilDiv_eight] at hover
    omega
  · rw [e, hv]

end

/-- Without an emitted byte OBUF stays as it is. -/
theorem writeBits_obuf_of_held {bits : List Bool} {s t : State} (h : s.w.bi.toNat + bits.length < 8)
    (e : writeBits bits s = .ok () t) : t.obuf = s.obuf := by
  induction bits generalizing s with
  | nil => cases e; rfl
  | cons bit rest ih =>
    rw [List.length_cons] at h
    obtain ⟨_, u, hu, ht⟩ := Res.bind_eq_ok.mp e
    rcases writeBit_cases bit s with ⟨-, e⟩ | ⟨-, hbi, e⟩ | ⟨-, hbi, -, -⟩ | ⟨-, -, _, e⟩
    · simp [hu] at e
    · obtain ⟨-, hnext⟩ := toNat_add_one_of_ne_seven hbi
      rw [hu] at e
      cases e
      have hkept := ih (by show (s.w.bi + 1).toNat + _ < 8; omega) ht
      exact hkept
    · have hseven : s.w.bi.toNat = 7 := by rw [hbi]; rfl
      omega
    · simp [hu] at e

theorem exec_pack_of_ok {width : Nat} {code : Byte} {s t : State} (hf : s.fault = 0) (h : packCode width code s = .ok () t) :
    exec (.pack width code) s = .next (complete false t) := by
  rw [exec, execPack]
  exact command_of_ok hf (by rw [h]; rfl)

/-! ## PACK and the series of WBITs -/

/-- The word of PACK as a number (R110, R181). -/
theorem encode_pack {width : Nat} (h : width ≤ 8) (code : Byte) :
    encode (.pack width code) = BitVec.ofNat 32 (0x40 + 256 * width + 65536 * code.toNat) := by
  rw [encode_eq_ofNat, operandA, toNat_ofNat_of_le_eight h]
  rfl

/-- A bit write takes no notice of the status. -/
theorem writeBit_complete {bit : Bool} {s t : State} (h : writeBit bit s = .ok () t) (flag : Bool) :
    writeBit bit (complete flag s) = .ok () (complete flag t) := by
  rcases writeBit_cases bit s with ⟨-, e⟩ | ⟨hroom, hbi, e⟩ | ⟨hroom, hbi, hcap, e⟩ | ⟨-, -, _, e⟩ <;>
    rw [h] at e <;> cases e
  · exact writeBit_of_held (s := complete flag s) hroom hbi bit
  · have hstore := obufStore_of_lt (s := complete flag s) hcap (setBit s.w.acc s.w.bi.toNat bit)
    exact (if_neg (Nat.not_le.mpr hroom)).trans ((if_pos hbi).trans (congrArg (Res.bind · _) hstore))

theorem writeBits_complete {bits : List Bool} {s t : State} (h : writeBits bits s = .ok () t) (flag : Bool) :
    writeBits bits (complete flag s) = .ok () (complete flag t) := by
  induction bits generalizing s with
  | nil => cases h; rfl
  | cons bit rest ih =>
    obtain ⟨_, v, hv, ht⟩ := Res.bind_eq_ok.mp h
    rw [writeBits_cons, writeBit_complete hv, Res.bind_ok, ih ht]

/-- Where PACK writes its bits the WBITs write them, and the two end alike but for the status, which the last one writes. -/
theorem runCommands_wbits_of_writeBits {bits : List Bool} {s t : State} (hf : s.fault = 0)
    (h : writeBits bits s = .ok () t) :
    ∃ u, runCommands (bits.map Instr.wbit) s = .next u ∧ complete false u = complete false t := by
  induction bits generalizing s t with
  | nil => cases h; exact ⟨s, rfl, rfl⟩
  | cons bit rest ih =>
    obtain ⟨_, v, hv, ht⟩ := Res.bind_eq_ok.mp h
    have hv0 : v.fault = 0 := by rw [writeBit_frame hv]; exact hf
    rw [List.map_cons, runCommands_cons (exec_wbit_of_ok hf hv)]
    exact ih (s := complete false v) (t := complete false t) hv0 (writeBits_complete ht false)

/-- A series of WBITs that does not fit ends in a fault: the bits that fit fill the buffer, and the next finds it full (R143). -/
theorem runCommands_wbits_of_overrun {bits : List Bool} {s : State} (hf : s.fault = 0) (hw : s.w.wf s.cfg)
    (hover : s.w.len.toNat < s.w.ptr.toNat + ceilDiv (s.w.bi.toNat + bits.length) 8) :
    ∃ t, runCommands (bits.map Instr.wbit) s = .next t ∧ t.fault = 0x02 := by
  have ⟨hptr, hcap, hpartial, _⟩ := hw
  have hbi : s.w.bi.toNat = 0 ∨ s.w.ptr.toNat < s.w.len.toNat :=
    (Decidable.em (s.w.bi = 0)).imp (congrArg BitVec.toNat) hpartial
  rw [ceilDiv_eight] at hover
  obtain ⟨fit, hfit⟩ : ∃ fit, s.w.bi.toNat + fit = 8 * (s.w.len.toNat - s.w.ptr.toNat) :=
    ⟨8 * (s.w.len.toNat - s.w.ptr.toNat) - s.w.bi.toNat, by have := s.w.bi.isLt; omega⟩
  have hlt : fit < bits.length := by omega
  have hlen : (codeBits s.w.bi.toNat s.w.acc ++ bits.take fit).length = 8 * (s.w.len.toNat - s.w.ptr.toNat) := by
    rw [List.length_append, codeBits_length, List.length_take, Nat.min_eq_left hlt.le, hfit]
  obtain ⟨u, hrun, h⟩ := (streamWritten_held hw).runCommands hf hcap (bits := bits.take fit)
    (by rw [hlen, ceilDiv_eight]; omega)
  have hfull : u.w.len.toNat ≤ u.w.ptr.toNat := by rw [h.ptr, h.len, hlen]; omega
  have hexec : exec (.wbit bits[fit]) u = .next { u with fault := 0x02 } := by
    rw [exec, execWbit]
    exact command_of_fault .wOverrun (h.fault.trans hf) (by rw [writeBit_of_full hfull]; rfl)
  refine ⟨{ u with fault := 0x02 }, ?_, rfl⟩
  rw [← List.take_append_drop fit bits, List.drop_eq_getElem_cons hlt, List.map_append, List.map_cons]
  refine runCommands_of_fault hrun hexec (by simp) fun i hi => ?_
  obtain ⟨_, -, rfl⟩ := List.mem_map.mp hi
  exact nofun

/-- The bound check of PACK is that the bits held and the code fit into the buffer; with no bit to write, the invariants of W
say so (R31, R181). -/
theorem WriterUnit.wf.room {c : Config} {w : WriterUnit} (hw : w.wf c) {width : Nat}
    (h : 0 < width → w.ptr.toNat + ceilDiv (w.bi.toNat + width) 8 ≤ w.len.toNat) (code : Byte) :
    w.ptr.toNat + ceilDiv (codeBits w.bi.toNat w.acc ++ codeBits width code).length 8 ≤ w.len.toNat := by
  obtain ⟨hptr, -, hpartial, -⟩ := hw
  rw [List.length_append, codeBits_length, codeBits_length]
  rcases Nat.eq_zero_or_pos width with rfl | hpos
  · have hlt := w.bi.isLt
    rw [ceilDiv_eight]
    rcases Decidable.em (w.bi = 0) with hbi | hbi
    · rw [hbi]; exact hptr
    · have := hpartial hbi
      omega
  · exact h hpos

/-- PACK with its bound check passed, as the stream it writes. -/
theorem exec_pack_of_room {width : Nat} {code : Byte} {s : State} (hf : s.fault = 0) (hw : s.w.wf s.cfg)
    (h : 0 < width → s.w.ptr.toNat + ceilDiv (s.w.bi.toNat + width) 8 ≤ s.w.len.toNat) :
    ∃ t, writeBits (codeBits width code) s = .ok () t ∧ exec (.pack width code) s = .next (complete false t) ∧
      StreamWritten s (codeBits s.w.bi.toNat s.w.acc ++ codeBits width code) t := by
  have hcap : s.w.len.toNat ≤ s.cfg.outCap := by
    obtain ⟨-, hlen, -⟩ := hw
    exact hlen
  obtain ⟨t, hpack, hwritten⟩ := (streamWritten_held hw).packCode hcap (WriterUnit.wf.room hw h code)
  exact ⟨t, packCode_eq_ok hpack, exec_pack_of_ok hf hpack, hwritten⟩

/-- Settles O26: by the bound check, which fails exactly when the WBITs overrun. -/
theorem packIsASeriesOfWbits : Obligations.PackIsASeriesOfWbits := by
  intro width code s hwidth hf hw
  have hbits : ((List.range width).map fun j => Instr.wbit (code.getLsbD j)) = (codeBits width code).map Instr.wbit :=
    List.map_map.symm
  rw [hbits]
  refine ⟨encode_pack hwidth code, fun hover => ⟨?faults, ?wbitsFault⟩, fun hfit => ?fits⟩
  case faults =>
    rw [exec, execPack]
    exact command_of_fault .wOverrun hf (by rw [packCode, if_pos hover]; rfl)
  case wbitsFault =>
    obtain ⟨-, hover⟩ := hover
    exact runCommands_wbits_of_overrun hf hw (by rwa [codeBits_length])
  case fits =>
    obtain ⟨t, hwrite, hexec, -⟩ := exec_pack_of_room (code := code) hf hw fun hpos =>
      Nat.not_lt.mp fun hover => hfit ⟨hpos, hover⟩
    obtain ⟨u, hrun, hu⟩ := runCommands_wbits_of_writeBits hf hwrite
    have hfault : (complete false u).fault = t.fault := by rw [hu, complete_fault]
    refine ⟨u, hrun, hfault.trans (by rw [writeBits_frame hwrite]; exact hf), ?_⟩
    rw [hexec, ← hu]
    rfl

/-! ## PACK as a barrel shift -/

/-- A word is known by its number. -/
theorem eq_ofNat_of_toNat {n k : Nat} {v : BitVec n} (h : v.toNat = k) : v = BitVec.ofNat n k := by
  rw [← h, BitVec.ofNat_toNat, BitVec.setWidth_eq]

/-- The bits held and those of the code form the sum of R182. -/
theorem bitsValue_held_append {c : Config} {w : WriterUnit} (hw : w.wf c) (width : Nat) (code : Byte) :
    bitsValue (codeBits w.bi.toNat w.acc ++ codeBits width code)
      = w.acc.toNat + code.toNat % 2 ^ width * 2 ^ w.bi.toNat := by
  obtain ⟨-, -, -, hacc⟩ := hw
  rw [bitsValue_append, bitsValue_codeBits, bitsValue_codeBits, codeBits_length, Nat.mod_eq_of_lt hacc]

/-- W after a stream is written is known by the stream. -/
theorem StreamWritten.writer_eq {s u : State} {stream : List Bool} (h : StreamWritten s stream u) :
    u.w =
      { len := s.w.len
        ptr := BitVec.ofNat 64 (s.w.ptr.toNat + stream.length / 8)
        bi := BitVec.ofNat 3 (stream.length % 8)
        acc := byteOf (bitsValue stream) (stream.length / 8) } := by
  rw [← h.len, ← eq_ofNat_of_toNat h.ptr, ← eq_ofNat_of_toNat h.bi, ← h.acc.eq_byteOf]

/-- Settles O27: the sum is the number that the bits held and the code's form, and what is emitted and what is held on are its
bytes. -/
theorem packIsABarrelShift : Obligations.PackIsABarrelShift := by
  intro width code s hwidth hf hw hroom
  obtain ⟨t, hwrite, hexec, h⟩ := exec_pack_of_room (code := code) hf hw hroom
  have hwriter := h.writer_eq
  have hobuf := h.obuf
  have hlt := s.w.bi.isLt
  rw [bitsValue_held_append hw, List.length_append, codeBits_length, codeBits_length, byteOf] at hwriter
  rw [List.length_append, codeBits_length, codeBits_length] at hobuf
  refine ⟨fun hemit => ⟨_, hexec, ?emits, ?byte, fun a ha => ?others⟩, fun hheld => ?holds⟩
  case emits =>
    have hdiv : (s.w.bi.toNat + width) / 8 = 1 := by omega
    have hmod : (s.w.bi.toNat + width) % 8 = s.w.bi.toNat + width - 8 := by omega
    rw [hdiv, hmod, pow_one] at hwriter
    rw [← hwriter, h.frame]
    rfl
  case byte =>
    obtain ⟨b, hread, hb⟩ := hobuf.byte 0 (by omega)
    rw [hb.eq_byteOf, bitsValue_held_append hw, byteOf, pow_zero, Nat.div_one] at hread
    exact hread
  case others => exact hobuf.other a (by omega)
  case holds =>
    have hdiv : (s.w.bi.toNat + width) / 8 = 0 := by omega
    have hkept := writeBits_obuf_of_held (by rwa [codeBits_length]) hwrite
    rw [hdiv, Nat.mod_eq_of_lt hheld, Nat.add_zero, pow_zero, Nat.div_one, BitVec.ofNat_toNat, BitVec.setWidth_eq] at hwriter
    rw [hexec, h.frame, hwriter, hkept]
    rfl

end Sys2Proof.Machine
end

section
/-! PROOF of PackedCodesFormTheStream (spec 43_pack_unpack.md R185, 30_encoding.md R105). -/

namespace Sys2Proof.Machine

/-- The bit stream of a run of codes, `width` bits each (R105). -/
def codeStream (width : Nat) (codes : List Byte) : List Bool := codes.flatMap (codeBits width)

@[simp] theorem codeStream_cons (width : Nat) (code : Byte) (codes : List Byte) :
    codeStream width (code :: codes) = codeBits width code ++ codeStream width codes := rfl

@[simp] theorem codeStream_length (width : Nat) (codes : List Byte) :
    (codeStream width codes).length = width * codes.length := by
  simp [codeStream, List.length_flatMap, mul_comm]

/-- Stream bit `i*B + j` is bit `j` of code `i` (R105, R185). -/
theorem codeStream_getD (width : Nat) (codes : List Byte) (k : Nat) :
    (codeStream width codes).getD k false
      = (decide (k < width * codes.length) && (codes.getD (k / width) 0).getLsbD (k % width)) := by
  induction codes generalizing k with
  | nil => simp [codeStream]
  | cons code rest ih =>
    rw [codeStream_cons]
    rcases Nat.lt_or_ge k width with hk | hk
    · have hin : k < width * (code :: rest).length :=
        hk.trans_le (Nat.le_mul_of_pos_right width (List.length_pos_of_mem List.mem_cons_self))
      rw [List.getD_append _ _ _ _ (by rwa [codeBits_length]), codeBits_getD, decide_eq_true hk, decide_eq_true hin,
        Nat.div_eq_of_lt hk, Nat.mod_eq_of_lt hk, List.getD_cons_zero]
    · rw [List.getD_append_right _ _ _ _ (by rwa [codeBits_length]), codeBits_length, ih]
      rcases Nat.eq_zero_or_pos width with rfl | hpos
      · simp
      · have hdiv : k / width = (k - width) / width + 1 := Nat.div_eq_sub_div hpos hk
        have hin : k - width < width * rest.length ↔ k < width * (code :: rest).length := by
          rw [List.length_cons, Nat.mul_succ]
          omega
        rw [hdiv, List.getD_cons_succ, ← Nat.mod_eq_sub_mod hk, decide_eq_decide.mpr hin]

/-- A series of PACKs with room for its codes takes the stream further by them. -/
theorem StreamWritten.packs {s u : State} {stream : List Bool} (h : StreamWritten s stream u) (hf : s.fault = 0)
    (hcap : s.w.len.toNat ≤ s.cfg.outCap) {width : Nat} {codes : List Byte}
    (hroom : s.w.ptr.toNat + ceilDiv (stream ++ codeStream width codes).length 8 ≤ s.w.len.toNat) :
    ∃ v, Machine.runCommands (codes.map (Instr.pack width)) u = .next v ∧
      StreamWritten s (stream ++ codeStream width codes) v := by
  induction codes generalizing stream u with
  | nil => exact ⟨u, rfl, by rwa [codeStream, List.flatMap_nil, List.append_nil]⟩
  | cons code rest ih =>
    rw [codeStream_cons, ← List.append_assoc] at hroom ⊢
    have hnext : s.w.ptr.toNat + ceilDiv (stream ++ codeBits width code).length 8 ≤ s.w.len.toNat := by
      simp only [ceilDiv_eight, List.length_append] at hroom ⊢
      omega
    obtain ⟨v, hv, hwritten⟩ := h.packCode hcap hnext
    rw [List.map_cons, runCommands_cons (exec_pack_of_ok (h.fault.trans hf) hv)]
    exact ih (hwritten.complete false) hroom

/-- A WFLUSH after a stream leaves the bytes of the stream, the last one zero-padded, and a byte-aligned writer (R145, R146). -/
theorem StreamWritten.wflush {s u : State} {stream : List Bool} (h : StreamWritten s stream u) (hf : s.fault = 0)
    (hcap : s.w.len.toNat ≤ s.cfg.outCap) (hroom : s.w.ptr.toNat + ceilDiv stream.length 8 ≤ s.w.len.toNat) :
    ∃ t, exec .wflush u = .next t ∧
      t = { s with
            w := { s.w with ptr := BitVec.ofNat 64 (s.w.ptr.toNat + ceilDiv stream.length 8), bi := 0, acc := 0 }
            ok := true
            flag := false
            obuf := t.obuf } ∧
      StreamAt s.obuf s.w.ptr.toNat (ceilDiv stream.length 8) stream t.obuf := by
  obtain ⟨t, hflush, ht, hobuf⟩ := h.flushBits hcap hroom
  refine ⟨_, exec_wflush_of_ok (h.fault.trans hf) hflush, ?_, hobuf⟩
  rw [ht, h.frame]
  rfl

/-- Settles O30: the PACKs write the stream of the codes, and WFLUSH completes its last byte. -/
theorem packedCodesFormTheStream : Obligations.PackedCodesFormTheStream := by
  intro width codes s hwidth hf hw hbi hroom
  have hcap : s.w.len.toNat ≤ s.cfg.outCap := by
    obtain ⟨-, hlen, -⟩ := hw
    exact hlen
  rw [← codeStream_length] at hroom ⊢
  obtain ⟨u, hrun, h⟩ := (streamWritten_nil hw hbi).packs hf hcap hroom
  obtain ⟨t, hexec, ht, hobuf⟩ := h.wflush hf hcap hroom
  refine ⟨t, (runCommands_append hrun).trans (runCommands_singleton hexec), ht, fun q hq => ?byte, hobuf.other⟩
  obtain ⟨b, hread, hb⟩ := hobuf.byte q hq
  refine ⟨b, hread, fun r hr => ?_⟩
  rw [hb r hr, List.nil_append, codeStream_getD, codeStream_length]

end Sys2Proof.Machine
end

section
/-! PROOF of UnpackIsASeriesOfRbits (spec 43_pack_unpack.md R183). -/

namespace Sys2Proof.Machine

/-! ## Series of bit reads -/

/-- How many bits of its buffer a reader has gone past. -/
def ReaderUnit.bitPosition (r : ReaderUnit) : Nat := 8 * r.ptr.toNat + r.bi.toNat

/-- A bit read with a bit left takes the reader one bit further, whatever the lookahead (R166). -/
theorem readBit_of_bitPosition {s : State} (hr : s.r.wf s.cfg) (hleft : s.r.bitPosition < 8 * s.r.len.toNat) :
    ∃ bit t, readBit s = .ok bit t ∧ t.r.len = s.r.len ∧ t.r.bitPosition = s.r.bitPosition + 1 := by
  obtain ⟨-, hcap, -⟩ := hr
  rw [ReaderUnit.bitPosition] at hleft
  have hlt : s.r.ptr.toNat < s.r.len.toNat := by omega
  by_cases hbi : s.r.bi = 7
  · have hptr := toNat_add_one_of_lt hlt
    refine ⟨_, _, readBit_of_eighth hlt hcap hbi, rfl, ?_⟩
    show 8 * (s.r.ptr + 1).toNat + 0 = 8 * s.r.ptr.toNat + s.r.bi.toNat + 1
    rw [hptr, hbi]
    rfl
  · obtain ⟨-, hnext⟩ := toNat_add_one_of_ne_seven hbi
    refine ⟨_, _, readBit_of_within hlt hbi, rfl, ?_⟩
    show 8 * s.r.ptr.toNat + (s.r.bi + 1).toNat = 8 * s.r.ptr.toNat + s.r.bi.toNat + 1
    omega

/-- A series of bit reads with enough bits left goes to its end. -/
theorem readBits_of_bitPosition {n : Nat} {s : State} (hr : s.r.wf s.cfg)
    (hroom : s.r.bitPosition + n ≤ 8 * s.r.len.toNat) :
    ∃ bits t, readBits n s = .ok bits t ∧ t.r.len = s.r.len ∧ t.r.bitPosition = s.r.bitPosition + n := by
  induction n generalizing s with
  | zero => exact ⟨[], s, rfl, rfl, rfl⟩
  | succ n ih =>
    obtain ⟨bit, u, hu, hulen, hupos⟩ := readBit_of_bitPosition hr (by omega)
    obtain ⟨bits, t, ht, htlen, htpos⟩ := ih (readBit_wf hr hu) (by rw [hulen]; omega)
    exact ⟨bit :: bits, t, by rw [readBits_succ, hu, Res.bind_ok, ht]; rfl, htlen.trans hulen, by omega⟩

/-- The bound check of UNPACK is that enough bits are left, under the invariants of R (R32, R183). -/
theorem ReaderUnit.wf.unpack_fits_iff {c : Config} {r : ReaderUnit} (hr : r.wf c) (width : Nat) :
    ¬ (0 < width ∧ r.len.toNat < r.ptr.toNat + ceilDiv (r.bi.toNat + width) 8) ↔
      r.bitPosition + width ≤ 8 * r.len.toNat := by
  obtain ⟨hptr, -, hpartial⟩ := hr
  have hbi : r.bi.toNat = 0 ∨ r.ptr.toNat < r.len.toNat :=
    (Decidable.em (r.bi = 0)).imp (congrArg BitVec.toNat) hpartial
  have hlt := r.bi.isLt
  rw [ceilDiv_eight, ReaderUnit.bitPosition]
  omega

/-- A shorter series of bit reads gives the first bits of a longer one. -/
theorem readBits_take {m n : Nat} {bits : List Bool} {s t : State} (h : readBits n s = .ok bits t) (hm : m ≤ n) :
    ∃ u, readBits m s = .ok (bits.take m) u := by
  induction n generalizing m s bits with
  | zero =>
    obtain rfl := Nat.le_zero.mp hm
    exact ⟨s, rfl⟩
  | succ n ih =>
    obtain ⟨bit, u, hu, h⟩ := Res.bind_eq_ok.mp h
    obtain ⟨rest, v, hv, h⟩ := Res.bind_eq_ok.mp h
    cases h
    cases m with
    | zero => exact ⟨s, rfl⟩
    | succ m =>
      obtain ⟨w, hw⟩ := ih hv (Nat.le_of_succ_le_succ hm)
      exact ⟨w, by rw [readBits_succ, hu, Res.bind_ok, hw]; rfl⟩

/-! ## UNPACK and the series of RBITs -/

/-- The word of UNPACK as a number (R110, R183). -/
theorem encode_unpack {width : Nat} (h : width ≤ 8) : encode (.unpack width) = BitVec.ofNat 32 (0x41 + 256 * width) := by
  rw [encode_eq_ofNat, operandA, toNat_ofNat_of_le_eight h]
  rfl

/-- The two ways in which a bit read goes on: within a byte, or on to the next one (R166). -/
theorem readBit_eq_ok {bit : Bool} {s t : State} (hr : s.r.wf s.cfg) (h : readBit s = .ok bit t) :
    s.r.ptr.toNat < s.r.len.toNat ∧
      ((s.r.bi ≠ 7 ∧ bit = s.r.la.getLsbD s.r.bi.toNat ∧ t = s.setReader { s.r with bi := s.r.bi + 1 }) ∨
        (s.r.bi = 7 ∧ bit = s.r.la.getLsbD 7 ∧
          t = s.setReader
            { s.r with
              bi := 0
              ptr := s.r.ptr + 1
              la := if s.r.ptr.toNat + 1 < s.r.len.toNat then s.ibufAt (s.r.ptr.toNat + 1) else s.r.la })) := by
  obtain ⟨-, hcap, -⟩ := hr
  rcases Nat.lt_or_ge s.r.ptr.toNat s.r.len.toNat with hleft | hnone
  · refine ⟨hleft, ?_⟩
    by_cases hbi : s.r.bi = 7
    · rw [readBit_of_eighth hleft hcap hbi] at h
      cases h
      exact .inr ⟨hbi, rfl, rfl⟩
    · rw [readBit_of_within hleft hbi] at h
      cases h
      exact .inl ⟨hbi, rfl, rfl⟩
  · rw [readBit_of_empty hnone] at h
    cases h

/-- A bit read takes no notice of the result register and of the status. -/
theorem readBit_complete {bit : Bool} {s t : State} (hr : s.r.wf s.cfg) (h : readBit s = .ok bit t) (flag : Bool) (v : Word) :
    readBit (complete flag (s.setRes0 v)) = .ok bit (complete flag (t.setRes0 v)) := by
  have ⟨_, hcap, _⟩ := hr
  obtain ⟨hleft, ⟨hbi, rfl, rfl⟩ | ⟨hbi, rfl, rfl⟩⟩ := readBit_eq_ok hr h
  · exact readBit_of_within (s := complete flag (s.setRes0 v)) hleft hbi
  · exact readBit_of_eighth (s := complete flag (s.setRes0 v)) hleft hcap hbi

theorem readBits_complete {n : Nat} {bits : List Bool} {s t : State} (hr : s.r.wf s.cfg) (h : readBits n s = .ok bits t)
    (flag : Bool) (v : Word) : readBits n (complete flag (s.setRes0 v)) = .ok bits (complete flag (t.setRes0 v)) := by
  induction n generalizing s bits with
  | zero => cases h; rfl
  | succ n ih =>
    obtain ⟨bit, u, hu, h⟩ := Res.bind_eq_ok.mp h
    obtain ⟨rest, w, hw, h⟩ := Res.bind_eq_ok.mp h
    cases h
    rw [readBits_succ, readBit_complete hr hu, Res.bind_ok, ih (readBit_wf hr hu) hw]
    rfl

/-- Where UNPACK reads its bits the RBITs read them, and `x[2]` is left with the last one. -/
theorem runCommands_rbits_of_readBits_succ {n : Nat} {bits : List Bool} {s t : State} (hf : s.fault = 0)
    (hr : s.r.wf s.cfg) (h : readBits (n + 1) s = .ok bits t) :
    runCommands (List.replicate (n + 1) .rbit) s
      = .next (complete false (t.setRes0 (zext64 (bits.getD n false).toNat))) := by
  induction n generalizing s t bits with
  | zero =>
    obtain ⟨bit, u, hu, h⟩ := Res.bind_eq_ok.mp h
    cases h
    exact runCommands_singleton (exec_rbit_of_ok hf hu)
  | succ n ih =>
    obtain ⟨bit, u, hu, h⟩ := Res.bind_eq_ok.mp h
    obtain ⟨rest, v, hv, h⟩ := Res.bind_eq_ok.mp h
    cases h
    have hfault : u.fault = 0 := by rw [readBit_frame hu]; exact hf
    have hwf := readBit_wf hr hu
    rw [List.replicate_succ, runCommands_cons (exec_rbit_of_ok hf hu)]
    have hrest := ih (s := complete false (u.setRes0 (zext64 bit.toNat))) hfault hwf (readBits_complete hwf hv _ _)
    exact hrest

/-- Where the RBITs leave R the bit reads of UNPACK leave it, with no fault. -/
theorem runCommands_rbits_of_readBits {n : Nat} {bits : List Bool} {s t : State} (hf : s.fault = 0) (hr : s.r.wf s.cfg)
    (h : readBits n s = .ok bits t) :
    ∃ u, runCommands (List.replicate n .rbit) s = .next u ∧ u.fault = 0 ∧ u.r = t.r := by
  cases n with
  | zero => cases h; exact ⟨s, rfl, hf, rfl⟩
  | succ n =>
    refine ⟨_, runCommands_rbits_of_readBits_succ hf hr h, ?_, rfl⟩
    rw [complete_fault, setRes0_fault, readBits_frame h]
    exact hf

/-- A series of RBITs beyond the end of the buffer ends in a fault: those that fit read the buffer to its end, and the next finds
nothing left (R166). -/
theorem runCommands_rbits_of_overrun {n : Nat} {s : State} (hf : s.fault = 0) (hr : s.r.wf s.cfg)
    (hover : 8 * s.r.len.toNat < s.r.bitPosition + n) (hpos : s.r.bitPosition ≤ 8 * s.r.len.toNat) :
    ∃ t, runCommands (List.replicate n .rbit) s = .next t ∧ t.fault = 0x04 := by
  obtain ⟨fit, hfit⟩ := Nat.exists_eq_add_of_le hpos
  obtain ⟨beyond, rfl⟩ : ∃ beyond, n = fit + (beyond + 1) := Nat.exists_eq_add_of_lt (by omega)
  obtain ⟨bits, t, hread, hlen, hend⟩ := readBits_of_bitPosition (n := fit) hr hfit.ge
  obtain ⟨u, hrun, hfault, hu⟩ := runCommands_rbits_of_readBits hf hr hread
  have hnone : u.r.len.toNat ≤ u.r.ptr.toNat := by
    rw [hu, hlen]
    have hbi := t.r.bi.isLt
    rw [← hfit, ReaderUnit.bitPosition] at hend
    omega
  have hexec : exec .rbit u = .next { u with fault := 0x04 } := by
    rw [exec, execRbit]
    exact command_of_fault .rOverrun hfault (by rw [readBit_of_empty hnone]; rfl)
  refine ⟨{ u with fault := 0x04 }, ?_, rfl⟩
  rw [← List.replicate_append_replicate, List.replicate_succ]
  refine runCommands_of_fault hrun hexec (by simp) fun i hi => ?_
  rw [List.eq_of_mem_replicate hi]
  exact nofun

theorem exec_unpack_of_ok {width code : Nat} {s t : State} (hf : s.fault = 0) (h : unpackCode width s = .ok code t) :
    exec (.unpack width) s = .next (complete false (t.setRes0 (zext64 code))) := by
  rw [exec, execUnpack]
  exact command_of_ok hf (by rw [h]; rfl)

/-- UNPACK with its bound check passed ends where its bit reads end. -/
theorem exec_unpack_of_readBits {width : Nat} {bits : List Bool} {s t : State} (hf : s.fault = 0)
    (hfit : ¬ (0 < width ∧ s.r.len.toNat < s.r.ptr.toNat + ceilDiv (s.r.bi.toNat + width) 8))
    (h : readBits width s = .ok bits t) :
    exec (.unpack width) s = .next (complete false (t.setRes0 (zext64 (bitsValue bits)))) :=
  exec_unpack_of_ok hf (by rw [unpackCode, if_neg hfit, h]; rfl)

/-- Bit `j` of a code in a result register (R109 (c)). -/
theorem zext64_bitsValue_getLsbD (bits : List Bool) {j : Nat} (hj : j < 64) :
    (zext64 (bitsValue bits)).getLsbD j = bits.getD j false := by
  rw [zext64, BitVec.getLsbD_ofNat, decide_eq_true hj, Bool.true_and, bitsValue_testBit]

/-- A code of at most 8 bits fits the result register (R183). -/
theorem zext64_bitsValue_toNat_lt {bits : List Bool} (h : bits.length ≤ 8) :
    (zext64 (bitsValue bits)).toNat < 2 ^ bits.length := by
  have hlt := bitsValue_lt bits
  have hpow : 2 ^ bits.length ≤ 2 ^ 8 := Nat.pow_le_pow_right (by decide) h
  rwa [zext64_toNat (by omega)]

/-- Settles O28: by the bound check, which fails exactly when the RBITs overrun. -/
theorem unpackIsASeriesOfRbits : Obligations.UnpackIsASeriesOfRbits := by
  intro width s hwidth hf hr
  have hfits := ReaderUnit.wf.unpack_fits_iff hr
  refine ⟨encode_unpack hwidth, fun hover => ⟨?faults, ?rbitsFault⟩, fun hfit => ?fits⟩
  case faults =>
    rw [exec, execUnpack]
    exact command_of_fault .rOverrun hf (by rw [unpackCode, if_pos hover]; rfl)
  case rbitsFault =>
    have hwithin := (hfits 0).mp fun ⟨hpos, _⟩ => Nat.lt_irrefl 0 hpos
    have hbeyond := mt (hfits width).mpr (not_not.mpr hover)
    exact runCommands_rbits_of_overrun hf hr (Nat.not_le.mp hbeyond) hwithin
  case fits =>
    obtain ⟨bits, t, hread, -, -⟩ := readBits_of_bitPosition hr ((hfits width).mp hfit)
    obtain ⟨u, hrun, hfault, hu⟩ := runCommands_rbits_of_readBits hf hr hread
    have hlen := readBits_length hread
    refine ⟨u, _, hrun, hfault, exec_unpack_of_readBits hf hfit hread, ?frame, ?bound, fun j hj => ?bit⟩
    case frame =>
      rw [hu, readBits_frame hread]
      rfl
    case bound =>
      rw [complete_x2, setRes0_x2, ← hlen]
      exact zext64_bitsValue_toNat_lt (hlen.le.trans hwidth)
    case bit =>
      obtain ⟨v, hv⟩ := readBits_take hread (Nat.succ_le_of_lt hj)
      refine ⟨_, runCommands_rbits_of_readBits_succ hf hr hv, ?_⟩
      have htake : (bits.take (j + 1)).getD j false = bits.getD j false := by
        simp [List.getD_eq_getElem?_getD]
      rw [complete_x2, setRes0_x2, zext64_bool_toNat, complete_x2, setRes0_x2, zext64_bitsValue_getLsbD bits (by omega), htake]

end Sys2Proof.Machine
end

section
/-! PROOF of UnpackIsABarrelShift (spec 43_pack_unpack.md R184). -/

namespace Sys2Proof.Machine

/-- Bit reads with bytes left for them give the stream's next bits and go on to the one after them (R167, R183). -/
theorem ReaderAt.readBits {s : State} {p k n : Nat} (h : ReaderAt p k s) (hcap : s.r.len.toNat ≤ s.cfg.inCap)
    (hroom : p + ceilDiv (k + n) 8 ≤ s.r.len.toNat) :
    ∃ t, readBits n s = .ok ((List.range n).map fun i => s.streamBit p (k + i)) t ∧ t.r.len = s.r.len ∧
      ReaderAt p (k + n) t := by
  induction n generalizing k s with
  | zero => exact ⟨s, rfl, rfl, h⟩
  | succ n ih =>
    simp only [ceilDiv_eight] at ih hroom
    obtain ⟨u, hu, hulen, hnext⟩ := h.readBit hcap (by omega)
    have hframe := readBit_frame hu
    have hstream : u.streamBit p = s.streamBit p := by rw [hframe]; rfl
    have hucap : u.r.len.toNat ≤ u.cfg.inCap := by rw [hulen, hframe]; exact hcap
    obtain ⟨t, ht, htlen, hend⟩ := ih hnext hucap (by rw [hulen]; omega)
    refine ⟨t, ?_, htlen.trans hulen, by rwa [Nat.add_assoc, Nat.add_comm 1] at hend⟩
    rw [readBits_succ, hu, Res.bind_ok, ht, Res.bind_ok, hstream, List.range_succ_eq_map, List.map_cons, List.map_map]
    simp only [Function.comp_def, Nat.add_zero, Nat.succ_eq_add_one, Nat.add_assoc, Nat.add_comm 1]

/-- The lookahead is the byte at the cursor, and at the end of the buffer still the last byte (R160, R32 (c)). -/
def State.LookaheadCurrent (s : State) : Prop := s.r.la = s.ibufAt (min s.r.ptr.toNat (s.r.len.toNat - 1))

/-- A bit read keeps the lookahead current: it refills it where the cursor goes on to a byte of the buffer (R166). -/
theorem State.LookaheadCurrent.readBit {s t : State} {bit : Bool} (hs : s.LookaheadCurrent) (hr : s.r.wf s.cfg)
    (h : readBit s = .ok bit t) : t.LookaheadCurrent := by
  obtain ⟨hleft, ⟨-, -, rfl⟩ | ⟨-, -, rfl⟩⟩ := readBit_eq_ok hr h
  · exact hs
  · show (if _ then _ else _) = s.ibufAt (min (s.r.ptr + 1).toNat (s.r.len.toNat - 1))
    rw [toNat_add_one_of_lt hleft]
    split
    case isTrue hmore => rw [Nat.min_eq_left (Nat.le_sub_one_of_lt hmore)]
    case isFalse hlast =>
      rw [hs]
      congr 1
      omega

theorem State.LookaheadCurrent.readBits {n : Nat} {bits : List Bool} {s t : State} (hs : s.LookaheadCurrent)
    (hr : s.r.wf s.cfg) (h : readBits n s = .ok bits t) : t.LookaheadCurrent := by
  induction n generalizing s bits with
  | zero => cases h; exact hs
  | succ n ih =>
    obtain ⟨bit, u, hu, h⟩ := Res.bind_eq_ok.mp h
    obtain ⟨rest, v, hv, h⟩ := Res.bind_eq_ok.mp h
    cases h
    exact ih (hs.readBit hr hu) (readBit_wf hr hu) hv

/-- The lookahead and the next byte are the window of 16 stream bits from the cursor on (R184). -/
theorem streamBit_eq_testBit (s : State) (p : Nat) {k following : Nat}
    (hnext : 8 ≤ k → following = (s.ibufAt (p + 1)).toNat) (hk : k < 16) :
    s.streamBit p k = ((s.ibufAt p).toNat + 256 * following).testBit k := by
  have hwindow := Nat.testBit_two_pow_mul_add following (s.ibufAt p).isLt k
  rw [Nat.add_comm] at hwindow
  refine Eq.trans ?_ hwindow.symm
  rw [State.streamBit]
  split
  case isTrue hlt => rw [Nat.div_eq_of_lt hlt, Nat.mod_eq_of_lt hlt]; rfl
  case isFalse hge =>
    have hdiv : k / 8 = 1 := by omega
    have hmod : k % 8 = k - 8 := by omega
    rw [hdiv, hmod, hnext (by omega)]
    rfl

/-- The code that the stream bits form is the window, shifted to the bit index and cut to the width (R184). -/
theorem bitsValue_streamBits (s : State) (p : Nat) {i width following : Nat}
    (hnext : 8 < i + width → following = (s.ibufAt (p + 1)).toNat) (hi : i + width ≤ 16) :
    bitsValue ((List.range width).map fun j => s.streamBit p (i + j))
      = ((s.ibufAt p).toNat + 256 * following) / 2 ^ i % 2 ^ width := by
  refine Nat.eq_of_testBit_eq fun j => ?_
  rw [bitsValue_testBit, Nat.testBit_mod_two_pow, Nat.testBit_div_two_pow, Nat.add_comm j]
  by_cases hj : j < width
  · rw [← streamBit_eq_testBit s p (fun _ => hnext (by omega)) (by omega)]
    simp [List.getD_eq_getElem?_getD, hj]
  · simp [List.getD_eq_getElem?_getD, hj]

/-- R is known by its position and its current lookahead. -/
theorem ReaderAt.reader_eq {s : State} {p k : Nat} (h : ReaderAt p k s) (hla : s.LookaheadCurrent) :
    s.r =
      { len := s.r.len
        ptr := BitVec.ofNat 64 (p + k / 8)
        bi := BitVec.ofNat 3 (k % 8)
        la := s.ibufAt (min (p + k / 8) (s.r.len.toNat - 1)) } := by
  rw [← eq_ofNat_of_toNat h.ptr, ← eq_ofNat_of_toNat h.bi, ← h.ptr, ← hla]

/-- Settles O29: the bits read are those of the window, and the reader ends where its position and its lookahead say. -/
theorem unpackIsABarrelShift : Obligations.UnpackIsABarrelShift := by
  intro width s hpos hwidth hf hr hla hroom following hfollowing
  have ⟨_, hcap, _⟩ := hr
  have hlt := s.r.bi.isLt
  have hat : ReaderAt s.r.ptr.toNat s.r.bi.toNat s := ⟨by omega, by omega, fun _ => hla⟩
  have hleft : s.r.ptr.toNat ≤ s.r.len.toNat - 1 := by
    rw [ceilDiv_eight] at hroom
    omega
  have hcurrent : s.LookaheadCurrent := by rw [State.LookaheadCurrent, Nat.min_eq_left hleft, hla]
  have hcode := bitsValue_streamBits s s.r.ptr.toNat (fun h => hfollowing.trans (if_pos h)) (by omega)
  obtain ⟨t, hread, hlen, hend⟩ := hat.readBits hcap hroom
  have hframe := readBits_frame hread
  have hibuf : t.ibufAt = s.ibufAt := by rw [hframe]; rfl
  have hreader := hend.reader_eq (hcurrent.readBits hr hread)
  rw [hlen, hibuf] at hreader
  rw [exec_unpack_of_readBits hf (fun ⟨_, hover⟩ => Nat.not_lt.mpr hroom hover) hread, hcode, ← hla, hframe, hreader]
  by_cases hemit : 8 ≤ s.r.bi.toNat + width
  · have hdiv : (s.r.bi.toNat + width) / 8 = 1 := by omega
    have hmod : (s.r.bi.toNat + width) % 8 = s.r.bi.toNat + width - 8 := by omega
    have hrefill : s.ibufAt (min (s.r.ptr.toNat + 1) (s.r.len.toNat - 1))
        = if s.r.ptr.toNat + 1 < s.r.len.toNat then s.ibufAt (s.r.ptr.toNat + 1) else s.r.la := by
      split
      case isTrue hmore => rw [Nat.min_eq_left (Nat.le_sub_one_of_lt hmore)]
      case isFalse hlast => rw [hla, Nat.min_eq_right (by omega), show s.r.len.toNat - 1 = s.r.ptr.toNat by omega]
    rw [if_pos hemit, hdiv, hmod, hrefill]
    rfl
  · have hdiv : (s.r.bi.toNat + width) / 8 = 0 := by omega
    have hmod : (s.r.bi.toNat + width) % 8 = s.r.bi.toNat + width := by omega
    have hkept : s.ibufAt (min (s.r.ptr.toNat + 0) (s.r.len.toNat - 1)) = s.r.la := by
      rw [Nat.add_zero, Nat.min_eq_left hleft, hla]
    rw [if_neg hemit, hdiv, hmod, hkept, Nat.add_zero, BitVec.ofNat_toNat, BitVec.setWidth_eq]
    rfl

end Sys2Proof.Machine
end

section
/-! SUPPORT. The states of a composed operation between its prologue and its end, how the buffer it hands over fills up, and how it
ends (spec 46_dispatch_system.md R244, R247, R248). -/

namespace Sys2Proof.Machine

/-- `u` is a state of a composed operation that began in `s`, after the prologue and before the end: ERR is cleared, `tag` is
reported as the tag, if one is, and beyond these only the units, OBUF, the counts of free values and the two status bits that the
end writes have moved (R247). -/
def Running (s : State) (tag : Option Byte) (u : State) : Prop :=
  u = { s with
    ok := u.ok
    flag := u.flag
    err := .noError
    tagValid := tag.isSome
    tag := tag.getD 0
    t := u.t
    w := u.w
    r := u.r
    seq := u.seq
    obuf := u.obuf
    obufEpoch := u.obufEpoch
    draws := u.draws }

variable {s u v : State} {tag : Option Byte}

theorem running_afterPrologue (s : State) : Running s none (afterPrologue s) := rfl

theorem Running.cfg (h : Running s tag u) : u.cfg = s.cfg := by rw [h]
theorem Running.outValid (h : Running s tag u) : u.outValid = s.outValid := by rw [h]
theorem Running.inLen (h : Running s tag u) : u.inLen = s.inLen := by rw [h]
theorem Running.inPresent (h : Running s tag u) : u.inPresent = s.inPresent := by rw [h]
theorem Running.ibufAt (h : Running s tag u) : u.ibufAt = s.ibufAt := by rw [h]; rfl
theorem Running.acceptable (h : Running s tag u) : u.acceptable = s.acceptable := by rw [h]; rfl

/-- What moves no more than that leaves the operation running. -/
theorem Running.move (h : Running s tag u)
    (e : v = { u with
      ok := v.ok, flag := v.flag, t := v.t, w := v.w, r := v.r, seq := v.seq, obuf := v.obuf, obufEpoch := v.obufEpoch,
      draws := v.draws }) :
    Running s tag v := by
  unfold Running at h ⊢
  rw [e, h]

theorem Running.of_sameButWriter (h : Running s tag u) (k : SameButWriter u v) : Running s tag v := by
  exact h.move (by rw [k])

theorem Running.of_sameButReader (h : Running s tag u) (k : SameButReader u v) : Running s tag v := by
  exact h.move (by rw [k])

/-- A tag reported replaces the one before (R246). -/
theorem Running.setTag (h : Running s tag u) (b : Byte) : Running s (some b) (u.setTag true b) := by
  unfold Running at h ⊢
  rw [h]
  rfl

theorem Running.macroFrame (h : Running s tag u) : s.macroFrame u := by
  unfold Running at h
  rw [h]
  simp [State.macroFrame]

/-- The failure exit leaves the record of its kind with the tag reported so far (R268). -/
theorem Running.failure (h : Running s tag u) {k : ErrKind} (hk : k ≠ .invalidInput) : s.failure (failureExit k u) k tag := by
  obtain ⟨hok, hflag, hvalid, hlen, herr, htagValid, htag, hunits, hframe, -⟩ := failureExit_record k u
  rw [if_neg hk] at htagValid htag
  exact ⟨hok, hflag, hvalid, hlen, herr, htagValid.trans (congrArg State.tagValid h), htag.trans (congrArg State.tag h),
    hunits, State.macroFrame_trans h.macroFrame hframe⟩

theorem failureExit_obuf (k : ErrKind) (s : State) : (failureExit k s).obuf = s.obuf := by
  obtain ⟨-, -, -, -, -, -, -, -, -, hobuf, -⟩ := failureExit_record k s
  exact hobuf

/-! ## The buffer -/

/-- A running composed operation has written `bytes` into its buffer of `size` bytes, from its beginning on, and nothing of OBUF
beyond the buffer. -/
structure Emitted (s : State) (tag : Option Byte) (size : Nat) (bytes : List Byte) (u : State) : Prop where
  running : Running s tag u
  cap : size ≤ s.cfg.outCap
  len : u.w.len.toNat = size
  ptr : u.w.ptr.toNat = bytes.length
  bi : u.w.bi = 0
  acc : u.w.acc = 0
  read : ∀ a < bytes.length, u.obuf.read? a = bytes[a]?
  beyond : ∀ a, size ≤ a → u.obuf.read? a = s.obuf.read? a

variable {size : Nat} {bytes : List Byte}

/-- A new buffer (R141). -/
theorem Running.allocate (h : Running s tag u) (hobuf : u.obuf = s.obuf) (hfree : s.outValid = false)
    (hcap : s.cfg.outCap < 2 ^ 64) (hsize : size ≤ s.cfg.outCap) :
    ∃ v, allocate size u = .ok true v ∧ v = { u with w := v.w, obuf := v.obuf, obufEpoch := v.obufEpoch } ∧
      Emitted s tag size [] v := by
  refine ⟨_, allocate_of_le (h.outValid.trans hfree) (h.cfg ▸ hsize), rfl, ?_⟩
  constructor
  case running => exact h.move rfl
  case cap => exact hsize
  case len => exact zext64_toNat (by omega)
  case ptr => rfl
  case bi => rfl
  case acc => rfl
  case read => exact fun a ha => absurd ha (Nat.not_lt_zero a)
  case beyond => exact fun a ha => by rw [Memory.read?_forgetBelow, if_neg (Nat.not_lt.mpr ha), hobuf]

theorem Emitted.setSeq (h : Emitted s tag size bytes u) (q : Sequencer) : Emitted s tag size bytes (u.setSeq q) :=
  ⟨h.running.move rfl, h.cap, h.len, h.ptr, h.bi, h.acc, h.read, h.beyond⟩

theorem Emitted.of_sameButReader (h : Emitted s tag size bytes u) (k : SameButReader u v) : Emitted s tag size bytes v := by
  have hrunning := h.running.of_sameButReader k
  have hw : v.w = u.w := by rw [k]
  have hobuf : v.obuf = u.obuf := by rw [k]
  exact ⟨hrunning, h.cap, hw ▸ h.len, hw ▸ h.ptr, hw ▸ h.bi, hw ▸ h.acc, hobuf ▸ h.read, hobuf ▸ h.beyond⟩

/-- Bytes with room for them extend what is written (R142). -/
theorem Emitted.writeBytes (h : Emitted s tag size bytes u) {bs : List Byte} (hroom : bytes.length + bs.length ≤ size) :
    ∃ v, writeBytes bs u = .ok () v ∧ SameButWriter u v ∧ Emitted s tag size (bytes ++ bs) v := by
  have hlt := u.w.len.isLt
  have hwrite := writeBytes_of_fits (bs := bs) h.bi (by rw [h.ptr, h.len]; exact hroom)
    (by rw [h.len, h.running.cfg]; exact h.cap)
  refine ⟨_, hwrite, writeBytes_frame hwrite, ?_⟩
  constructor
  case running => exact h.running.of_sameButWriter (writeBytes_frame hwrite)
  case cap => exact h.cap
  case len => exact h.len
  case ptr =>
    have hlen := h.len
    show (u.w.ptr + zext64 bs.length).toNat = _
    rw [add_zext64_eq_ofNat, h.ptr, List.length_append, BitVec.toNat_ofNat, Nat.mod_eq_of_lt (by omega)]
  case bi => exact h.bi
  case acc => exact h.acc
  case read =>
    intro a ha
    rw [List.length_append] at ha
    rw [Memory.read?_writeAll, h.ptr, List.getElem?_append]
    by_cases hold : a < bytes.length
    · rw [if_neg (by omega), if_pos hold, h.read a hold]
    · rw [if_pos (by omega), if_neg hold]
  case beyond =>
    intro a ha
    rw [Memory.read?_writeAll, h.ptr, if_neg (by omega), h.beyond a ha]

/-- A byte-aligned writer whose buffer is as long as what is written ends the operation with that (R198, R222). -/
theorem Emitted.finish {tag : Byte} (h : Emitted s (some tag) bytes.length bytes u) (hfree : s.outValid = false) :
    ∃ t, finishMacro u = .ok () t ∧ s.success t bytes tag := by
  rcases finishMacro_cases u with ⟨howned, -⟩ | ⟨-, hbi, -⟩ | ⟨-, -, e⟩
  · rw [h.running.outValid, hfree] at howned
    exact nomatch howned
  · exact absurd h.bi hbi
  · exact ⟨_, e, rfl, rfl, rfl, h.len, h.read, h.beyond, congrArg State.tagValid h.running, congrArg State.tag h.running, rfl,
      resetUnits_unitsReset _, State.macroFrame_trans h.running.macroFrame (by simp [State.macroFrame])⟩

end Sys2Proof.Machine
end

section
/-! PROOF of EncodeWritesTheEncodedBuffer (spec 44_encoder.md R190 to R199, 46_dispatch_system.md R241). -/

namespace Sys2Proof.Wire

open Sys2Proof.Machine

/-! ## The encoded buffer -/

/-- The header of an encoded buffer: all but its data region (R100 to R104). -/
def header (c : Config) (x : List Byte) : List Byte :=
  c.methodTag :: encBytes c.byteOrder Config.countSize (distinct x).length ++ entries (distinct x)
    ++ encBytes c.byteOrder Config.lenSize x.length

theorem enc_eq_header_append (c : Config) (x : List Byte) :
    enc c x = header c x ++ packbits (bitsPerEntry (distinct x).length) (x.map fun b => (distinct x).idxOf b) := rfl

@[simp] theorem header_length (c : Config) (x : List Byte) : (header c x).length = 11 + 2 * (distinct x).length := by
  simp only [header, List.length_append, List.length_cons, encBytes_length, entries_length, Config.countSize, Config.lenSize]
  omega

/-- The entries of one more symbol (R103). -/
theorem entries_concat (d : List Byte) (k : Byte) : entries (d ++ [k]) = entries d ++ [BitVec.ofNat 8 d.length, k] := by
  simp [entries, List.zipIdx_append]

/-- The data region holds the bit stream of the codes, as `PACK` writes them (R105, R199). -/
theorem packbits_eq_bytesOfBits {width : Nat} (hwidth : width ≤ 8) (cs : List Nat) :
    packbits width cs = bytesOfBits (codeStream width (cs.map (BitVec.ofNat 8))) := by
  have hcode : ∀ c, (List.range width).map (Nat.testBit c) = codeBits width (BitVec.ofNat 8 c) := fun c =>
    List.map_congr_left fun j hj => by
      rw [BitVec.getLsbD_ofNat, decide_eq_true ((List.mem_range.mp hj).trans_le hwidth), Bool.true_and]
  simp only [packbits, codeStream, List.flatMap_map, hcode]

/-- A byte of a stream is that byte of the sequence the stream makes. -/
theorem getElem?_bytesOfBits {stream : List Bool} {q : Nat} {b : Byte} (hb : IsStreamByte stream q b)
    (hq : q < ceilDiv stream.length 8) : (bytesOfBits stream)[q]? = some b := by
  rw [List.getElem?_eq_getElem (by rwa [bytesOfBits_length]), ← List.getD_eq_getElem _ 0, bytesOfBits_getD stream hq]
  congr 1
  refine BitVec.eq_of_getLsbD_eq fun r hr => ?_
  rw [byteOfBits_getLsbD _ hr, hb r hr]
  simp [List.getD_eq_getElem?_getD]

end Sys2Proof.Wire

namespace Sys2Proof.Machine

variable {s u v : State} {tag : Option Byte}

@[simp] theorem State.input_length (s : State) : s.input.length = s.inLen.toNat := by simp [State.input]

theorem State.input_getElem? (s : State) {i : Nat} (h : i < s.inLen.toNat) : s.input[i]? = some (s.ibufAt i) := by
  simp [State.input, h]

/-! ## What the phases from E_SIZE on find -/

/-- The table and the latches of the encoder after E_SIZE (R193, R194). -/
structure EncoderLatched (s u : State) : Prop where
  dense : u.t.Dense
  keys : u.t.keys = Wire.distinct s.input
  n : u.seq.n.toNat = (Wire.distinct s.input).length
  b : u.seq.b.toNat = bitsPerEntry (Wire.distinct s.input).length
  l : u.seq.l = s.inLen

theorem EncoderLatched.congr (h : EncoderLatched s u) (ht : v.t = u.t) (hn : v.seq.n = u.seq.n) (hb : v.seq.b = u.seq.b)
    (hl : v.seq.l = u.seq.l) : EncoderLatched s v :=
  ⟨ht ▸ h.dense, ht ▸ h.keys, hn ▸ h.n, hb ▸ h.b, hl ▸ h.l⟩

theorem EncoderLatched.of_sameButWriter (h : EncoderLatched s u) (k : SameButWriter u v) : EncoderLatched s v :=
  h.congr (by rw [k]) (by rw [k]) (by rw [k]) (by rw [k])

theorem EncoderLatched.writeBytes {size : Nat} {bytes bs : List Byte} (h : EncoderLatched s u)
    (hout : Emitted s tag size bytes u) (hroom : bytes.length + bs.length ≤ size) :
    ∃ v, writeBytes bs u = .ok () v ∧ EncoderLatched s v ∧ Emitted s tag size (bytes ++ bs) v := by
  obtain ⟨v, hv, hsame, hout⟩ := hout.writeBytes hroom
  exact ⟨v, hv, h.of_sameButWriter hsame, hout⟩

/-- The key in a position and its code, which is the position (R129). -/
theorem EncoderLatched.key (h : EncoderLatched s u) {i : Nat} {k : Byte} (hk : (Wire.distinct s.input)[i]? = some k) :
    u.t.valueOf k = BitVec.ofNat 8 i := eq_ofNat_of_toNat (h.dense.valueOf_key i k (by rwa [h.keys]))

/-- The code of a byte of the input is its position among the distinct bytes (R199). -/
theorem EncoderLatched.code (h : EncoderLatched s u) {b : Byte} (hb : b ∈ s.input) :
    u.t.valueOf b = BitVec.ofNat 8 ((Wire.distinct s.input).idxOf b) :=
  h.key (List.getElem?_idxOf (Wire.mem_distinct.mpr hb))

/-- The size of E_SIZE is the length of the encoded buffer (R106, R194). -/
theorem EncoderLatched.encodedSize (h : EncoderLatched s u) : encodedSize u.seq = (Wire.enc s.cfg s.input).length := by
  rw [Wire.encodedLengthFollowsTheSizeLaw, Machine.encodedSize, h.n, h.b, h.l, s.input_length]
  rfl

/-! ## E_CHECK, E_SCAN and E_SIZE -/

/-- E_SCAN over a latched input builds the dense table of its bytes (R193). -/
theorem eScan_builds {l : Word} (h : InputLatched l u) :
    ∃ v, eScan u = .ok () v ∧ v = { u with t := v.t, seq := v.seq } ∧ v.t.Dense ∧
      v.t.keys = Wire.distinct ((List.range l.toNat).map u.ibufAt) ∧ v.seq.n.toNat = v.t.keys.length ∧ v.seq.l = l := by
  obtain ⟨-, hphase⟩ := scanBuildsADenseTable
  obtain ⟨v, e, hv, ht, hn⟩ := hphase u (h.latch ▸ h.fits)
  have hwf := u.t.wf_clear
  have hnil := TableUnit.keys_of_count_zero u.t.count_clear
  have hdense : v.t.Dense := ht ▸ scanTable_dense (TableUnit.dense_of_keys_nil hwf hnil) _
  refine ⟨v, e, hv, hdense, ?_, ?_, ((eScan_safe h).post _ _ e).latch⟩
  · rw [ht, keys_scanTable hwf hnil, h.latch]
  · rw [hn, TableUnit.keys_length hdense.wf]

/-- The width of a table fits `S.B` (R194). -/
theorem toNat_ofNat_bitsPerEntry {n : Nat} (h : n ≤ 256) : (BitVec.ofNat 4 (bitsPerEntry n)).toNat = bitsPerEntry n := by
  have := bitsPerEntry_le_eight h
  rw [BitVec.toNat_ofNat]
  omega

/-- The phases before the allocation report the tag, build the table and latch the sizes (R192 to R194). -/
theorem encodeFromCheck_latches (h : Running s tag u) (hbounds : InBounds u) (hacc : s.acceptable = true) :
    ∃ v, encodeFromCheck u = ((eAlloc v).bind fun _ s => (eHdr s).bind fun _ s => (ePack s).bind fun _ s => eDone s) ∧
      Running s (some s.cfg.methodTag) v ∧ v.obuf = u.obuf ∧ EncoderLatched s v := by
  have hcheck : eCheck (u.toPhase .eCheck) = .ok ()
      (((u.setSeq { u.seq with phase := .eCheck, l := u.inLen }).setTag true u.cfg.methodTag).toPhase .eScan) :=
    if_pos (h.acceptable.trans hacc)
  have hlatched := (eCheck_safe (s := u.toPhase .eCheck) (hbounds.congr rfl rfl rfl)).post _ _ hcheck
  have hrunning : Running s (some s.cfg.methodTag)
      (((u.setSeq { u.seq with phase := .eCheck, l := u.inLen }).setTag true u.cfg.methodTag).toPhase .eScan) := by
    rw [h.cfg]
    exact (Running.setTag (h.move rfl) _).move rfl
  obtain ⟨v, hscan, hv, hdense, hkeys, hn, hl⟩ := eScan_builds hlatched
  have hinput : v.t.keys = Wire.distinct s.input := by
    rw [hkeys, toPhase_inLen, hrunning.ibufAt, h.inLen]
    rfl
  rw [hinput] at hn
  refine ⟨_, by rw [encodeFromCheck, hcheck, Res.bind_ok, hscan, Res.bind_ok, eSize, Res.bind_ok], ?_, ?_, ?_⟩
  · exact hrunning.move (by rw [hv]; rfl)
  · rw [hv]; rfl
  · refine ⟨hdense, hinput, hn, ?_, hl.trans h.inLen⟩
    show (BitVec.ofNat 4 (bitsPerEntry v.seq.n.toNat)).toNat = _
    rw [hn, toNat_ofNat_bitsPerEntry (Wire.distinct_length_le _)]

/-! ## E_HDR -/

theorem TableUnit.keyAt_of_keys {t : TableUnit} {i : Nat} {k : Byte} (hi : i < 256) (h : t.keys[i]? = some k) :
    t.keyAt (BitVec.ofNat 8 i) = k := by
  rw [TableUnit.keys, List.getElem?_take] at h
  split at h
  · have hmod : (BitVec.ofNat 8 i).toNat = i := by rw [BitVec.toNat_ofNat]; omega
    simp only [TableUnit.keyAt, hmod]
    simpa [hi] using h
  · exact nomatch h


/-- The key in a position of the insertion order (R30). -/
theorem EncoderLatched.keyAt (h : EncoderLatched s u) {i : Nat} {k : Byte} (hk : (Wire.distinct s.input)[i]? = some k) :
    u.t.keyAt (BitVec.ofNat 8 i) = k := by
  have hi := (List.getElem?_eq_some_iff.mp hk).1
  exact TableUnit.keyAt_of_keys (hi.trans_le (Wire.distinct_length_le _)) (by rwa [h.keys])

/-- An iteration of E_HDR writes the next entry (R196). -/
theorem EncoderLatched.entryStep {bytes : List Byte} {size j : Nat} {k : Byte} (h : EncoderLatched s u)
    (hout : Emitted s tag size bytes u) (hroom : bytes.length + 2 ≤ size) (hk : (Wire.distinct s.input)[j]? = some k) :
    ∃ v, entryStep (u.setSeq { u.seq with idx := zext64 j }) = .ok () v ∧
      EncoderLatched s v ∧ Emitted s tag size (bytes ++ [BitVec.ofNat 8 j, k]) v := by
  have hlt := (List.getElem?_eq_some_iff.mp hk).1.trans_le (Wire.distinct_length_le _)
  have hkey : u.t.keyAt (BitVec.ofNat 8 (zext64 j).toNat) = k := by
    rw [zext64_toNat (by omega)]
    exact h.keyAt hk
  have hstart := h.congr (v := u.setSeq { u.seq with idx := zext64 j }) rfl rfl rfl rfl
  obtain ⟨v, hv, hlv, hov⟩ := hstart.writeBytes (hout.setSeq _) (bs := [BitVec.ofNat 8 j])
    (by rw [List.length_singleton]; omega)
  obtain ⟨w, hw, hlw, how⟩ := hlv.writeBytes hov (bs := [k]) (by simp; omega)
  refine ⟨w, ?_, hlw, by rwa [List.append_assoc] at how⟩
  rw [Machine.entryStep]
  simp only [setSeq_seq, setSeq_t, hkey, h.key hk]
  rw [put8_eq, hv]
  exact hw

/-- E_HDR before the entry in position `j`: the entries below it follow what was written first. -/
structure EntriesWritten (s : State) (tag : Option Byte) (size : Nat) (start : List Byte) (j : Nat) (u : State) : Prop where
  latched : EncoderLatched s u
  out : Emitted s tag size (start ++ Wire.entries ((Wire.distinct s.input).take j)) u

variable {size : Nat} {start : List Byte}

theorem EntriesWritten.step {j : Nat} (h : EntriesWritten s tag size start j u) (hj : j < (Wire.distinct s.input).length)
    (hroom : start.length + 2 * (Wire.distinct s.input).length ≤ size) :
    ∃ v, entryStep (u.setSeq { u.seq with idx := zext64 j }) = .ok () v ∧ EntriesWritten s tag size start (j + 1) v := by
  have hk := List.getElem?_eq_getElem hj
  have hlen : ((Wire.distinct s.input).take j).length = j := by rw [List.length_take]; omega
  obtain ⟨v, hv, hlatched, hout⟩ := h.latched.entryStep h.out
    (by rw [List.length_append, Wire.entries_length, hlen]; omega) hk
  refine ⟨v, hv, hlatched, ?_⟩
  rw [List.take_add_one, hk, Option.toList_some, Wire.entries_concat, hlen, ← List.append_assoc]
  exact hout

/-- The loop of E_HDR writes the entries of the table (R103, R196). -/
theorem EncoderLatched.forIdx_entryStep (h : EncoderLatched s u) (hout : Emitted s tag size start u)
    (hroom : start.length + 2 * (Wire.distinct s.input).length ≤ size) :
    ∃ v, forIdx Machine.entryStep u.seq.n.toNat 0 u = .ok () v ∧ EncoderLatched s v ∧
      Emitted s tag size (start ++ Wire.entries (Wire.distinct s.input)) v := by
  obtain ⟨v, hv, hwritten⟩ := forIdx_completes (body := Machine.entryStep) (P := EntriesWritten s tag size start)
    (todo := u.seq.n.toNat) (i := 0) (s := u) ⟨h, by rwa [List.take_zero, Wire.entries, List.zipIdx_nil, List.flatMap_nil,
      List.append_nil]⟩ fun j y _ hj hy => hy.step (by rw [← h.n]; omega) hroom
  have hout := hwritten.out
  rw [Nat.zero_add, h.n, List.take_length] at hout
  exact ⟨v, hv, hwritten.latched, hout⟩

/-- E_HDR writes the header (R196). -/
theorem EncoderLatched.eHdr (h : EncoderLatched s u) (hout : Emitted s tag size [] u)
    (hroom : (Wire.header s.cfg s.input).length ≤ size) :
    ∃ v, eHdr u = .ok () v ∧ EncoderLatched s v ∧ Emitted s tag size (Wire.header s.cfg s.input) v := by
  rw [Wire.header_length] at hroom
  obtain ⟨v, hv, hlv, hov⟩ := h.writeBytes hout (bs := [s.cfg.methodTag]) (by simp; omega)
  obtain ⟨w, hw, hlw, how⟩ := hlv.writeBytes hov (bs := encBytes s.cfg.byteOrder 2 (Wire.distinct s.input).length)
    (by simp; omega)
  obtain ⟨y, hy, hly, hoy⟩ := hlw.forIdx_entryStep how (by simp; omega)
  obtain ⟨z, hz, hlz, hoz⟩ := hly.writeBytes hoy (bs := encBytes s.cfg.byteOrder 8 s.inLen.toNat)
    (by simp [Wire.entries_length]; omega)
  refine ⟨z.toPhase .ePack, ?_, hlz.congr rfl rfl rfl rfl, ?_⟩
  · rw [Machine.eHdr, put8_eq, hout.running.cfg, hv, Res.bind_ok, put16_eq, hov.running.cfg, hlv.n, hw, Res.bind_ok, hy,
      Res.bind_ok, put64_eq, hoy.running.cfg, hly.l, hz, Res.bind_ok]
  · rw [← s.input_length] at hoz
    exact hoz.setSeq _

/-! ## E_PACK -/

/-- The codes of the input (R199). -/
def inputCodes (x : List Byte) : List Byte := (x.map fun b => (Wire.distinct x).idxOf b).map (BitVec.ofNat 8)

@[simp] theorem inputCodes_length (x : List Byte) : (inputCodes x).length = x.length := by simp [inputCodes]

theorem EncoderLatched.codeAt (h : EncoderLatched s u) {j : Nat} (hj : j < s.inLen.toNat) :
    (inputCodes s.input)[j]? = some (u.t.valueOf (s.ibufAt j)) := by
  have hb := s.input_getElem? hj
  rw [h.code (List.mem_of_getElem? hb), inputCodes, List.getElem?_map, List.getElem?_map, hb]
  rfl

/-- The bit stream of the codes of the first `j` bytes of an input (R105, R199). -/
def packedStream (x : List Byte) (j : Nat) : List Bool :=
  codeStream (bitsPerEntry (Wire.distinct x).length) ((inputCodes x).take j)

theorem packedStream_length {x : List Byte} {j : Nat} (h : j ≤ x.length) :
    (packedStream x j).length = bitsPerEntry (Wire.distinct x).length * j := by
  rw [packedStream, codeStream_length, List.length_take, inputCodes_length, Nat.min_eq_left h]

/-- One more byte of input adds the bits of its code. -/
theorem EncoderLatched.packedStream_succ (h : EncoderLatched s u) {j : Nat} (hj : j < s.inLen.toNat) :
    packedStream s.input (j + 1)
      = packedStream s.input j
        ++ codeBits (bitsPerEntry (Wire.distinct s.input).length) (u.t.valueOf (s.ibufAt j)) := by
  rw [packedStream, List.take_add_one, h.codeAt hj]
  simp [packedStream, codeStream]

/-- The encoded buffer is the header and the bytes of the stream of all codes (R199). -/
theorem enc_eq_header_append_stream (c : Config) (x : List Byte) :
    Wire.enc c x = Wire.header c x ++ Wire.bytesOfBits (packedStream x x.length) := by
  rw [Wire.enc_eq_header_append, Wire.packbits_eq_bytesOfBits (bitsPerEntry_le_eight (Wire.distinct_length_le x)),
    packedStream, ← inputCodes_length x, List.take_length]
  rfl

/-- The latches of S and the stream written are apart. -/
theorem StreamWritten.setSeq {stream : List Bool} (h : StreamWritten s stream u) (q : Sequencer) :
    StreamWritten (s.setSeq q) stream (u.setSeq q) :=
  ⟨by rw [h.frame]; rfl, h.len, h.ptr, h.bi, h.acc, h.obuf⟩

variable {w : State}

/-- E_PACK, begun in `w`, before the byte in position `j`: the codes of the bytes below it are written to the stream. -/
structure CodesPacked (s w : State) (j : Nat) (u : State) : Prop where
  latched : EncoderLatched s u
  stream : StreamWritten (w.setSeq u.seq) (packedStream s.input j) u

/-- What E_HDR leaves: the header in a buffer as long as the encoded buffer (R194 to R196). -/
structure HeaderWritten (s : State) (tag : Option Byte) (w : State) : Prop where
  latched : EncoderLatched s w
  out : Emitted s tag (Wire.enc s.cfg s.input).length (Wire.header s.cfg s.input) w

theorem HeaderWritten.len_le (h : HeaderWritten s tag w) : w.w.len.toNat ≤ w.cfg.outCap := by
  rw [h.out.len, h.out.running.cfg]
  exact h.out.cap

/-- The stream of all codes fills the buffer (R106). -/
theorem HeaderWritten.fits (h : HeaderWritten s tag w) :
    w.w.ptr.toNat + ceilDiv (packedStream s.input s.input.length).length 8 = w.w.len.toNat := by
  rw [h.out.ptr, h.out.len, enc_eq_header_append_stream, List.length_append, Wire.bytesOfBits_length]

/-- So it has room for the codes up to any position of the input. -/
theorem HeaderWritten.room (h : HeaderWritten s tag w) {j : Nat} (hj : j ≤ s.inLen.toNat) :
    w.w.ptr.toNat + ceilDiv (packedStream s.input j).length 8 ≤ w.w.len.toNat := by
  rw [← s.input_length] at hj
  have hbits := Nat.mul_le_mul_left (bitsPerEntry (Wire.distinct s.input).length) hj
  rw [← h.fits, packedStream_length hj, packedStream_length (Nat.le_refl _), ceilDiv_eight, ceilDiv_eight]
  omega

theorem HeaderWritten.writer_wf (h : HeaderWritten s tag w) : w.w.wf w.cfg := by
  refine ⟨?_, h.len_le, fun hne => absurd h.out.bi hne, by rw [h.out.acc, h.out.bi]; decide⟩
  exact (Nat.le_add_right _ _).trans (h.room (Nat.zero_le _))

/-- An iteration of E_PACK writes the code of the next byte (R197). -/
theorem CodesPacked.step {j : Nat} (h : CodesPacked s w j u) (hw : HeaderWritten s tag w) (hj : j < s.inLen.toNat)
    (hcap : s.inLen.toNat ≤ s.cfg.inCap) :
    ∃ v, packStep (u.setSeq { u.seq with idx := zext64 j }) = .ok () v ∧ CodesPacked s w (j + 1) v := by
  have hidx : (zext64 j).toNat = j := zext64_toNat (hj.trans s.inLen.isLt)
  have hrunning : Running s tag u := hw.out.running.move (by rw [h.stream.frame]; rfl)
  have hlatched := h.latched.congr (v := u.setSeq { u.seq with idx := zext64 j }) rfl rfl rfl rfl
  have hbyte : ibufByte (zext64 j).toNat (u.setSeq { u.seq with idx := zext64 j })
      = .ok (s.ibufAt j) (u.setSeq { u.seq with idx := zext64 j }) := by
    rw [hidx, ibufByte_of_lt (by rw [setSeq_cfg, hrunning.cfg]; omega), ← hrunning.ibufAt]
    rfl
  have hroom := hw.room (Nat.succ_le_of_lt hj)
  rw [h.latched.packedStream_succ hj] at hroom
  obtain ⟨v, hv, hwritten⟩ := (h.stream.setSeq { u.seq with idx := zext64 j }).packCode hw.len_le hroom
  have hseq : v.seq = { u.seq with idx := zext64 j } := by rw [hwritten.frame]; rfl
  refine ⟨v, ?_, hlatched.of_sameButWriter (packCode_frame hv), by rw [h.latched.packedStream_succ hj, hseq]; exact hwritten⟩
  rw [packStep, setSeq_seq, hbyte, Res.bind_ok, hlatched.b]
  exact hv

/-- The whole stream after the header is the encoded buffer (R199). -/
theorem HeaderWritten.emitted (h : HeaderWritten s tag w) {t : State} (hrunning : Running s tag t)
    (hwriter : t.w = { len := w.w.len, ptr := BitVec.ofNat 64 w.w.len.toNat, bi := 0, acc := 0 })
    (hobuf : StreamAt w.obuf w.w.ptr.toNat (ceilDiv (packedStream s.input s.input.length).length 8)
      (packedStream s.input s.input.length) t.obuf) :
    Emitted s tag (Wire.enc s.cfg s.input).length (Wire.enc s.cfg s.input) t := by
  have hfits := h.fits
  have hlen := h.out.len
  have hp := h.out.ptr
  constructor
  case running => exact hrunning
  case cap => exact h.out.cap
  case len => rw [hwriter]; exact h.out.len
  case ptr => rw [hwriter, BitVec.ofNat_toNat, BitVec.setWidth_eq]; exact h.out.len
  case bi => rw [hwriter]
  case acc => rw [hwriter]
  case read =>
    intro a ha
    rw [enc_eq_header_append_stream, List.getElem?_append]
    split
    case isTrue hheader => rw [hobuf.other a (.inl (by omega)), h.out.read a hheader]
    case isFalse hdata =>
      obtain ⟨q, rfl⟩ := Nat.exists_eq_add_of_le (Nat.not_lt.mp hdata)
      obtain ⟨b, hread, hb⟩ := hobuf.byte q (by omega)
      rw [Nat.add_sub_cancel_left, Wire.getElem?_bytesOfBits hb (by omega), ← hread, hp]
  case beyond =>
    intro a ha
    rw [hobuf.other a (.inr (by omega)), h.out.beyond a ha]

/-- E_PACK writes the data region (R197). -/
theorem HeaderWritten.ePack (h : HeaderWritten s tag u) (hcap : s.inLen.toNat ≤ s.cfg.inCap) :
    ∃ v, ePack u = .ok () v ∧ Emitted s tag (Wire.enc s.cfg s.input).length (Wire.enc s.cfg s.input) v := by
  obtain ⟨v, hv, hpacked⟩ := forIdx_completes (body := packStep) (P := CodesPacked s u) (todo := u.seq.l.toNat) (i := 0) (s := u)
    ⟨h.latched, streamWritten_nil h.writer_wf h.out.bi⟩
    fun j y _ hj hy => hy.step h (by rw [← h.latched.l]; omega) hcap
  have hstream := hpacked.stream
  rw [Nat.zero_add, h.latched.l, ← s.input_length] at hstream
  obtain ⟨t, ht, heq, hobuf⟩ := hstream.flushBits h.len_le (h.room (s.input_length.le))
  refine ⟨t.toPhase .eDone, by rw [Machine.ePack, hv, Res.bind_ok, ht, Res.bind_ok], ?_⟩
  refine Emitted.setSeq (h.emitted ?_ ?_ hobuf) _
  · exact h.out.running.move (by rw [heq, hstream.frame]; rfl)
  · rw [heq, setSeq_w, h.fits]

/-! ## E_ALLOC and the whole encoder -/

/-- E_ALLOC of an encoded buffer that fits OBUF (R195). -/
theorem EncoderLatched.eAlloc_of_fits (h : EncoderLatched s u) (hrunning : Running s tag u) (hobuf : u.obuf = s.obuf)
    (hfree : s.outValid = false) (hcap : s.cfg.outCap < 2 ^ 64) (hfit : (Wire.enc s.cfg s.input).length ≤ s.cfg.outCap) :
    ∃ v, eAlloc u = .ok () v ∧ EncoderLatched s v ∧ Emitted s tag (Wire.enc s.cfg s.input).length [] v := by
  obtain ⟨v, hv, heq, hout⟩ := hrunning.allocate hobuf hfree hcap hfit
  have hlatched : EncoderLatched s v := h.congr (by rw [heq]) (by rw [heq]) (by rw [heq]) (by rw [heq])
  exact ⟨v.toPhase .eHdr, by rw [eAlloc, h.encodedSize, hv]; rfl, hlatched.congr rfl rfl rfl rfl, hout.setSeq _⟩

/-- E_ALLOC of one that does not (R195). -/
theorem EncoderLatched.eAlloc_of_tooLong (h : EncoderLatched s u) (hrunning : Running s tag u) (hfree : s.outValid = false)
    (hlong : s.cfg.outCap < (Wire.enc s.cfg s.input).length) :
    eAlloc u = .raise .allocationFailure (u.setWriter WriterUnit.reset) := by
  rw [eAlloc, h.encodedSize, allocate_of_gt (hrunning.outValid.trans hfree) (hrunning.cfg ▸ hlong)]
  rfl

section
variable (h : Running s tag u) (hbounds : InBounds u) (hacc : s.acceptable = true) (hfree : s.outValid = false)
  (hobuf : u.obuf = s.obuf)
include h hbounds hacc hfree hobuf

/-- ENCODE from E_CHECK on an acceptable input whose encoded buffer fits OBUF succeeds with it (R190, R199). -/
theorem encodeFromCheck_of_fits (hfit : (Wire.enc s.cfg s.input).length ≤ s.cfg.outCap) :
    ∃ t, encodeFromCheck u = .ok () t ∧ s.success t (Wire.enc s.cfg s.input) s.cfg.methodTag := by
  obtain ⟨-, -, hinCap⟩ := s.acceptable_iff.mp hacc
  obtain ⟨-, -, -, houtCap⟩ := hbounds.cfg
  rw [h.cfg] at houtCap
  obtain ⟨v, hv, hrunning, hkept, hlatched⟩ := encodeFromCheck_latches h hbounds hacc
  obtain ⟨w, hw, hlatched, hout⟩ := hlatched.eAlloc_of_fits hrunning (hkept.trans hobuf) hfree houtCap hfit
  have hheader : (Wire.header s.cfg s.input).length ≤ (Wire.enc s.cfg s.input).length := by
    rw [Wire.enc_eq_header_append, List.length_append]
    exact Nat.le_add_right _ _
  obtain ⟨y, hy, hlatched, hout⟩ := hlatched.eHdr hout hheader
  obtain ⟨z, hz, hout⟩ := HeaderWritten.ePack ⟨hlatched, hout⟩ hinCap
  obtain ⟨t, ht, hsuccess⟩ := hout.finish hfree
  exact ⟨t, by rw [hv, hw, Res.bind_ok, hy, Res.bind_ok, hz, Res.bind_ok, eDone, ht], hsuccess⟩

/-- One that does not fit fails, with the tag and nothing written (R195, R262). -/
theorem encodeFromCheck_of_tooLong (hlong : s.cfg.outCap < (Wire.enc s.cfg s.input).length) :
    ∃ v, encodeFromCheck u = .raise .allocationFailure v ∧ Running s (some s.cfg.methodTag) v ∧ v.obuf = s.obuf := by
  obtain ⟨v, hv, hrunning, hkept, hlatched⟩ := encodeFromCheck_latches h hbounds hacc
  refine ⟨v.setWriter WriterUnit.reset, ?_, hrunning.move rfl, hkept.trans hobuf⟩
  rw [hv, hlatched.eAlloc_of_tooLong hrunning hfree hlong]
  rfl

end

theorem prologue_of_free (hfree : s.outValid = false) : prologue s = .ok () (afterPrologue s) := by
  simp [prologue, hfree, afterPrologue]

/-- With OBUF free and an acceptable input, ENCODE, and COMPRESS with the method `METHOD_TAG`, is ENCODE from E_CHECK (R190,
R241). -/
theorem exec_encodes {i : Instr} (hi : i = .encode ∨ i = .compress s.cfg.methodTag) (hf : s.fault = 0)
    (hfree : s.outValid = false) (hacc : s.acceptable = true) :
    ∃ tag u, exec i s = (encodeFromCheck u).outcome s ∧ Running s tag u ∧ (s.cfg.wf → InBounds u) ∧ u.obuf = s.obuf := by
  have hstart := running_afterPrologue s
  rcases hi with rfl | rfl
  · refine ⟨none, afterPrologue s, ?_, hstart, fun hc => .resetUnits hc, rfl⟩
    rw [exec, execEncode, command_of_ready _ hf, prologue_of_free hfree, Res.bind_ok]
  · refine ⟨some s.cfg.methodTag, (afterPrologue s).setTag true s.cfg.methodTag, ?_, hstart.setTag _,
      fun hc => (InBounds.resetUnits hc).congr rfl rfl rfl, rfl⟩
    rw [exec, execCompress, command_of_ready _ hf, prologue_of_free hfree, Res.bind_ok, if_pos (hstart.acceptable.trans hacc)]
    exact congrArg (Res.outcome s) (if_neg (not_not.mpr rfl))

/-- Settles O31: the phases write the header, the entries and the stream of the codes, unless the buffer does not fit. -/
theorem encodeWritesTheEncodedBuffer : Obligations.EncodeWritesTheEncodedBuffer := by
  intro i s hi hc hf hfree hin hpos hcap
  have hacc := s.acceptable_iff.mpr ⟨hin, hpos, hcap⟩
  obtain ⟨tag, u, hexec, hrunning, hbounds, hobuf⟩ := exec_encodes hi hf hfree hacc
  rw [hexec]
  rcases Nat.lt_or_ge s.cfg.outCap (Wire.enc s.cfg s.input).length with hlong | hfit
  · obtain ⟨v, hv, hrunning, hkept⟩ := encodeFromCheck_of_tooLong hrunning (hbounds hc) hacc hfree hobuf hlong
    rw [hv]
    exact ⟨_, rfl, fun hfit => absurd hlong (Nat.not_lt.mpr hfit), fun _ =>
      ⟨hrunning.failure (by decide), (failureExit_obuf _ v).trans hkept⟩⟩
  · obtain ⟨t, ht, hsuccess⟩ := encodeFromCheck_of_fits hrunning (hbounds hc) hacc hfree hobuf hfit
    rw [ht]
    exact ⟨t, rfl, fun _ => hsuccess, fun hlong => absurd hlong (Nat.not_lt.mpr hfit)⟩

end Sys2Proof.Machine
end

section
/-! SUPPORT. What DECODE does from D_CHECK on: each phase goes on or fails as its condition of R223 says (spec 45_decoder.md R211
to R223). -/

namespace Sys2Proof.Machine

variable {s u v : State} {tag : Option Byte} {p n : Nat}

/-! ## The reader of a decoder -/

/-- A decoder begun in `s` has read the first `p` bytes of the input and written nothing. -/
structure Decoding (s : State) (tag : Option Byte) (p : Nat) (u : State) : Prop where
  running : Running s tag u
  obuf : u.obuf = s.obuf
  cap : s.inLen.toNat ≤ s.cfg.inCap
  len : u.r.len = s.inLen
  reader : ReaderAt p 0 u

/-- A phase of a decoder begun in `s` fails with the kind `k` and has written nothing (R268). -/
def Rejects (s : State) (tag : Option Byte) (k : ErrKind) (r : Res Unit) : Prop :=
  ∃ v, r = .raise k v ∧ Running s tag v ∧ v.obuf = s.obuf

/-- What neither moves R nor OBUF leaves the decoder where it is. -/
theorem Decoding.move (h : Decoding s tag p u)
    (e : v = { u with
      ok := v.ok, flag := v.flag, t := v.t, w := v.w, seq := v.seq, obufEpoch := v.obufEpoch, draws := v.draws }) :
    Decoding s tag p v := by
  have hr : v.r = u.r := by rw [e]
  have hobuf : v.obuf = u.obuf := by rw [e]
  have hibuf : v.ibufAt = u.ibufAt := by rw [e]; rfl
  exact ⟨h.running.move (by rw [e]), hobuf.trans h.obuf, h.cap, hr ▸ h.len,
    ⟨hr ▸ h.reader.ptr, hr ▸ h.reader.bi, by rw [hr, hibuf]; exact h.reader.la⟩⟩

theorem Decoding.rejects (h : Decoding s tag p u) (k : ErrKind) : Rejects s tag k (.raise k u) :=
  ⟨u, rfl, h.running, h.obuf⟩

theorem Decoding.ptr (h : Decoding s tag p u) : u.r.ptr.toNat = p := h.reader.ptr

theorem Decoding.remaining (h : Decoding s tag p u) : u.remaining = s.input.length - p := by
  rw [State.remaining, h.len, h.ptr, s.input_length]

theorem State.input_slice (s : State) (h : p + n ≤ s.inLen.toNat) :
    ((List.range n).map fun k => s.ibufAt (p + k)) = (s.input.drop p).take n := by
  refine List.ext_getElem (by simp; omega) fun k hk _ => ?_
  simp [State.input]

/-- A byte-level read with bytes left for it takes the next bytes of the input (R162 to R164). -/
theorem Decoding.readBytes (h : Decoding s tag p u) (hfit : p + n ≤ s.input.length) :
    ∃ v, readBytes n u = .ok ((s.input.drop p).take n) v ∧ SameButReader u v ∧ Decoding s tag (p + n) v := by
  rw [s.input_length] at hfit
  have hlt := s.inLen.isLt
  have hbi : u.r.bi = 0 := BitVec.eq_of_toNat_eq h.reader.bi
  have hread := readBytes_of_fits hbi (n := n) (by rw [h.ptr, h.len]; exact hfit) (by rw [h.len, h.running.cfg]; exact h.cap)
  have hptr : (u.r.ptr + zext64 n).toNat = p + n := by
    rw [add_zext64_eq_ofNat, h.ptr, BitVec.toNat_ofNat, Nat.mod_eq_of_lt (by omega)]
  rw [h.ptr, h.running.ibufAt, s.input_slice hfit] at hread
  refine ⟨_, hread, readBytes_frame hread, ?_⟩
  constructor
  case running => exact h.running.of_sameButReader (readBytes_frame hread)
  case obuf => exact h.obuf
  case cap => exact h.cap
  case len => exact h.len
  case reader =>
    refine ⟨hptr, by rw [setReader_r, hbi]; rfl, fun hleft => ?_⟩
    simp only [setReader_r, hptr] at hleft ⊢
    rw [if_pos hleft, ← h.running.ibufAt]
    rfl

theorem input_slice_one (s : State) (h : p < s.input.length) : (s.input.drop p).take 1 = [s.input.getD p 0] := by
  rw [List.take_one_drop_eq_of_lt_length h, List.getD_eq_getElem _ _ h]
  rfl

theorem decBytes_singleton (order : ByteOrder) (b : Byte) : BitVec.ofNat 8 (decBytes order [b]) = b := by
  cases order <;> simp [decBytes, valueLittle]

/-! ## D_CHECK, D_TAG and D_COUNT -/

theorem Running.dCheck (h : Running s tag u) (hobuf : u.obuf = s.obuf) (hacc : s.acceptable = true) :
    ∃ v, dCheck u = .ok () v ∧ Decoding s tag 0 v ∧ v.t = u.t.clear := by
  obtain ⟨hin, hpos, hcap⟩ := s.acceptable_iff.mp hacc
  have hbind := bindReader_of_le (s := u) (h.inPresent.trans hin) (by rw [h.inLen, h.cfg]; exact hcap)
  refine ⟨_, by rw [Machine.dCheck, if_pos (h.acceptable.trans hacc), hbind, Res.bind_ok], ?_, rfl⟩
  refine ⟨h.move rfl, hobuf, hcap, h.inLen, ⟨rfl, rfl, fun hleft => ?_⟩⟩
  exact if_pos hleft

/-- D_TAG: the tag is reported whether or not it is `METHOD_TAG` (R213). -/
theorem Decoding.dTag_cases (h : Decoding s tag 0 u) (hpos : 1 ≤ s.input.length) :
    (s.input.head? ≠ some s.cfg.methodTag ∧ Rejects s s.input.head? .unknownMethod (dTag u)) ∨
      (s.input.head? = some s.cfg.methodTag ∧ ∃ v, dTag u = .ok () v ∧ Decoding s (some s.cfg.methodTag) 1 v ∧ v.t = u.t) := by
  obtain ⟨v, hv, hsame, hnext⟩ := h.readBytes (n := 1) (by omega)
  rw [input_slice_one s hpos] at hv
  have hhead : s.input.head? = some (s.input.getD 0 0) := by
    rw [List.head?_eq_getElem?, List.getElem?_eq_getElem hpos, List.getD_eq_getElem _ _ hpos]
  have ht : v.t = u.t := by rw [hsame]
  have hreported := hnext.running.setTag (s.input.getD 0 0)
  rw [dTag, hhead]
  simp only [Config.tagSize, hv, Res.bind_ok, decBytes_singleton, setTag_cfg, setSeq_cfg, hnext.running.cfg]
  by_cases htag : s.input.getD 0 0 = s.cfg.methodTag
  · rw [if_neg (not_not.mpr htag), htag]
    refine .inr ⟨rfl, _, rfl, ?_, ht⟩
    rw [htag] at hreported
    exact ⟨hreported.move rfl, hnext.obuf, hnext.cap, hnext.len, ⟨hnext.reader.ptr, hnext.reader.bi, hnext.reader.la⟩⟩
  · rw [if_pos htag]
    exact .inl ⟨by simpa using htag, _, rfl, hreported.move rfl, hnext.obuf⟩

theorem valueLittle_lt (bs : List Byte) : valueLittle bs < 256 ^ bs.length := by
  induction bs with
  | nil => simp [valueLittle]
  | cons b rest ih =>
    have := b.isLt
    rw [valueLittle, List.length_cons, pow_succ']
    omega

/-- `n` bytes encode a value below `256 ^ n`, under either byte order (R66). -/
theorem decBytes_lt (order : ByteOrder) (bs : List Byte) : decBytes order bs < 256 ^ bs.length := by
  cases order with
  | little => exact valueLittle_lt bs
  | big => rw [← List.length_reverse]; exact valueLittle_lt bs.reverse

theorem decBytes_take_lt (order : ByteOrder) (bs : List Byte) (n : Nat) : decBytes order (bs.take n) < 256 ^ n :=
  (decBytes_lt order _).trans_le (Nat.pow_le_pow_right (by decide) (List.length_take_le n bs))

/-- D_COUNT: the entry count is there, and from 1 to `MAX_ENTRIES` (R214). -/
theorem Decoding.dCount_cases (h : Decoding s tag 1 u) :
    (s.input.length < 3 ∧ Rejects s tag .malformedHeader (dCount u)) ∨
      (3 ≤ s.input.length ∧ (Wire.headerCount s.cfg s.input < 1 ∨ 256 < Wire.headerCount s.cfg s.input) ∧
        Rejects s tag .malformedHeader (dCount u)) ∨
      (3 ≤ s.input.length ∧ 1 ≤ Wire.headerCount s.cfg s.input ∧ Wire.headerCount s.cfg s.input ≤ 256 ∧
        ∃ v, dCount u = .ok () v ∧ Decoding s tag 3 v ∧ v.t = u.t ∧ v.seq.n.toNat = Wire.headerCount s.cfg s.input) := by
  unfold dCount
  rw [h.remaining]
  by_cases hshort : s.input.length - 1 < Config.countSize
  · rw [if_pos hshort]
    rw [Config.countSize] at hshort
    exact .inl ⟨by omega, h.rejects _⟩
  rw [if_neg hshort]
  rw [Config.countSize] at hshort ⊢
  obtain ⟨v, hv, hsame, hnext⟩ := h.readBytes (n := 2) (by omega)
  have hn : (BitVec.ofNat 16 (decBytes v.cfg.byteOrder ((s.input.drop 1).take 2))).toNat = Wire.headerCount s.cfg s.input := by
    have hlt : decBytes v.cfg.byteOrder ((s.input.drop 1).take 2) < 2 ^ 16 := decBytes_take_lt _ _ 2
    rw [BitVec.toNat_ofNat, Nat.mod_eq_of_lt hlt, hnext.running.cfg]
    rfl
  have hzero : BitVec.ofNat 16 (decBytes v.cfg.byteOrder ((s.input.drop 1).take 2)) = 0 ↔ Wire.headerCount s.cfg s.input = 0 := by
    rw [← hn]
    exact ⟨fun e => by rw [e]; rfl, fun e => BitVec.eq_of_toNat_eq e⟩
  simp only [hv, Res.bind_ok, setSeq_seq, hn, hzero, Config.maxEntries]
  by_cases hmany : 256 < Wire.headerCount s.cfg s.input
  · rw [if_pos hmany]
    exact .inr (.inl ⟨by omega, .inr hmany, (hnext.move rfl).rejects _⟩)
  rw [if_neg hmany]
  by_cases hnone : Wire.headerCount s.cfg s.input = 0
  · rw [if_pos hnone]
    exact .inr (.inl ⟨by omega, .inl (by omega), (hnext.move rfl).rejects _⟩)
  rw [if_neg hnone]
  exact .inr (.inr ⟨by omega, by omega, by omega, _, rfl, hnext.move rfl, by rw [hsame]; rfl, hn⟩)

/-! ## D_TABLE -/

/-- The code bytes of the first `j` entries of a buffer (R103). -/
def entryCodes (e : List Byte) (j : Nat) : List Byte := (List.range j).map fun k => e.getD (3 + 2 * k) 0

theorem headerCodes_eq (c : Config) (e : List Byte) : Wire.headerCodes c e = entryCodes e (Wire.headerCount c e) := rfl

@[simp] theorem entryCodes_length (e : List Byte) (j : Nat) : (entryCodes e j).length = j := by simp [entryCodes]

theorem entryCodes_succ (e : List Byte) (j : Nat) : entryCodes e (j + 1) = entryCodes e j ++ [e.getD (3 + 2 * j) 0] := by
  simp [entryCodes, List.range_succ]

/-- The table of a decoder after `j` entries: the keys are the codes so far, each with the symbol of its first entry (R216). -/
structure EntriesRead (e : List Byte) (j : Nat) (t : TableUnit) : Prop where
  wf : t.wf
  keys : t.keys = Wire.distinct (entryCodes e j)
  symbol : ∀ k ∈ entryCodes e j, t.valueOf k = e.getD (4 + 2 * (entryCodes e j).idxOf k) 0

theorem entriesRead_clear (e : List Byte) (t : TableUnit) : EntriesRead e 0 t.clear :=
  ⟨t.wf_clear, TableUnit.keys_of_count_zero t.count_clear, fun _ hk => nomatch hk⟩

theorem EntriesRead.has_iff {e : List Byte} {j : Nat} {t : TableUnit} (h : EntriesRead e j t) {k : Byte} :
    t.has k = true ↔ k ∈ entryCodes e j := by
  rw [TableUnit.has_iff_mem_keys h.wf, h.keys, Wire.mem_distinct]

/-- The next entry is dropped by the insertion if its code is a key already (R216). -/
theorem EntriesRead.insert {e : List Byte} {j : Nat} {t : TableUnit} (h : EntriesRead e j t) :
    EntriesRead e (j + 1) (t.insert (e.getD (3 + 2 * j) 0) (e.getD (4 + 2 * j) 0)) := by
  refine ⟨TableUnit.wf_insert h.wf _ _, ?keys, fun k hk => ?symbol⟩ <;> rw [entryCodes_succ] at *
  case keys =>
    rw [Wire.distinct_concat]
    split
    next hmem => rw [TableUnit.insert_of_has (h.has_iff.mpr hmem), h.keys]
    next hmem => rw [TableUnit.keys_insert h.wf (Bool.eq_false_iff.mpr (mt h.has_iff.mp hmem)), h.keys]
  case symbol =>
    rw [List.idxOf_append]
    by_cases hold : k ∈ entryCodes e j
    · rw [if_pos hold, ← h.symbol k hold]
      cases hb : t.has (e.getD (3 + 2 * j) 0) with
      | true => rw [TableUnit.insert_of_has hb]
      | false =>
        rw [TableUnit.valueOf_insert hb, if_neg]
        rintro rfl
        exact absurd (hb.symm.trans (h.has_iff.mpr hold)) (by decide)
    · have hnew : k = e.getD (3 + 2 * j) 0 := by simpa [hold] using hk
      have hb : t.has (e.getD (3 + 2 * j) 0) = false := Bool.eq_false_iff.mpr (mt h.has_iff.mp (hnew ▸ hold))
      rw [if_neg hold, TableUnit.valueOf_insert hb, if_pos hnew, hnew, entryCodes_length]
      simp

theorem distinct_sublist (x : List Byte) : (Wire.distinct x).Sublist x := by
  induction x with
  | nil => exact List.Sublist.slnil
  | cons a x ih => exact (List.filter_sublist.trans ih).cons_cons a

/-- Distinct bytes are fewer exactly when one is repeated. -/
theorem distinct_length_lt_iff {x : List Byte} : (Wire.distinct x).length < x.length ↔ ¬ x.Nodup := by
  refine ⟨fun hlt hnodup => ?_, fun hrepeat => Nat.lt_of_not_le fun hle => ?_⟩
  · have hsub : x ⊆ Wire.distinct x := fun _ => Wire.mem_distinct.mpr
    exact absurd (List.subperm_of_subset hnodup hsub).length_le (Nat.not_le.mpr hlt)
  · exact hrepeat ((distinct_sublist x).eq_of_length_le hle ▸ Wire.nodup_distinct x)

theorem EntriesRead.count_lt_iff {e : List Byte} {j : Nat} {t : TableUnit} (h : EntriesRead e j t) :
    t.count.toNat < j ↔ ¬ (entryCodes e j).Nodup := by
  rw [← TableUnit.keys_length h.wf, h.keys, ← distinct_length_lt_iff, entryCodes_length]

/-- D_TABLE before entry `j`. -/
structure TableReading (s : State) (tag : Option Byte) (j : Nat) (u : State) : Prop where
  decoding : Decoding s tag (3 + 2 * j) u
  table : EntriesRead s.input j u.t
  n : u.seq.n.toNat = Wire.headerCount s.cfg s.input

/-- An iteration of D_TABLE takes the next entry (R216). -/
theorem TableReading.step {j : Nat} (h : TableReading s tag j u) (hfit : 3 + 2 * (j + 1) ≤ s.input.length) :
    ∃ v, tableStep (u.setSeq { u.seq with idx := zext64 j }) = .ok () v ∧ TableReading s tag (j + 1) v := by
  have hstart : Decoding s tag (3 + 2 * j) (u.setSeq { u.seq with idx := zext64 j }) := h.decoding.move rfl
  obtain ⟨v, hv, hsame, hmid⟩ := hstart.readBytes (n := 1) (by omega)
  obtain ⟨w, hw, hsame', hend⟩ := hmid.readBytes (n := 1) (by omega)
  rw [input_slice_one s (by omega)] at hv hw
  have ht : w.t = u.t := by rw [hsame', hsame]; rfl
  have hn : w.seq.n = u.seq.n := by rw [hsame', hsame]; rfl
  refine ⟨_, by rw [tableStep, hv, Res.bind_ok, hw, Res.bind_ok, decBytes_singleton, decBytes_singleton], ?_⟩
  exact ⟨hend.move rfl, by rw [setTable_t, ht, show 3 + 2 * j + 1 = 4 + 2 * j by omega]; exact h.table.insert,
    (congrArg BitVec.toNat hn).trans h.n⟩

/-- D_TABLE: a repeated code shows as too few entries (R216). -/
theorem TableReading.dTable_cases (h : TableReading s tag 0 u)
    (hfit : 3 + 2 * Wire.headerCount s.cfg s.input ≤ s.input.length) :
    (¬ (Wire.headerCodes s.cfg s.input).Nodup ∧ Rejects s tag .malformedHeader (dTable u)) ∨
      ((Wire.headerCodes s.cfg s.input).Nodup ∧
        ∃ v, dTable u = .ok () v ∧ TableReading s tag (Wire.headerCount s.cfg s.input) v) := by
  obtain ⟨v, hv, hread⟩ := forIdx_completes (body := tableStep) (P := TableReading s tag)
    (todo := u.seq.n.toNat) (i := 0) (s := u) h fun j y _ hj hy => hy.step (by rw [h.n] at hj; omega)
  rw [Nat.zero_add, h.n] at hread
  have hcount := hread.table.count_lt_iff
  rw [headerCodes_eq, dTable, hv, Res.bind_ok, hread.n]
  by_cases hnodup : (entryCodes s.input (Wire.headerCount s.cfg s.input)).Nodup
  · rw [if_neg (by rw [hcount]; exact not_not.mpr hnodup)]
    exact .inr ⟨hnodup, _, rfl, hread.decoding.move rfl, hread.table, hread.n⟩
  · rw [if_pos (hcount.mpr hnodup)]
    exact .inl ⟨hnodup, hread.decoding.rejects _⟩

/-! ## D_LEN, D_BODYCHK and D_ALLOC -/

/-- D_LEN: the length is there (R217). -/
theorem TableReading.dLen_cases (h : TableReading s tag n u) (hn : Wire.headerCount s.cfg s.input = n)
    (hfit : 3 + 2 * n ≤ s.input.length) :
    (s.input.length - 3 - 2 * n < 8 ∧ Rejects s tag .malformedHeader (dLen u)) ∨
      (8 ≤ s.input.length - 3 - 2 * n ∧ ∃ v, dLen u = .ok () v ∧ Decoding s tag (11 + 2 * n) v ∧ v.t = u.t ∧
        v.seq.l.toNat = Wire.headerLength s.cfg s.input) := by
  rw [dLen, h.decoding.remaining, Nat.sub_add_eq, Config.lenSize]
  by_cases hshort : s.input.length - 3 - 2 * n < 8
  · rw [if_pos hshort]
    exact .inl ⟨hshort, h.decoding.rejects _⟩
  rw [if_neg hshort]
  obtain ⟨v, hv, hsame, hnext⟩ := h.decoding.readBytes (n := 8) (by omega)
  rw [hv, Res.bind_ok]
  refine .inr ⟨by omega, _, rfl, ?_, by rw [hsame]; rfl, ?_⟩
  · rw [show 3 + 2 * n + 8 = 11 + 2 * n by omega] at hnext
    exact hnext.move rfl
  · have hlt : decBytes v.cfg.byteOrder ((s.input.drop (3 + 2 * n)).take 8) < 2 ^ 64 := decBytes_take_lt _ _ 8
    show (zext64 _).toNat = _
    rw [zext64_toNat hlt, hnext.running.cfg, Wire.headerLength, hn]
    rfl

/-- A decoder whose header is read and found well formed: its table and its latched length (R216, R217). -/
structure HeaderRead (s u : State) : Prop where
  table : EntriesRead s.input (Wire.headerCount s.cfg s.input) u.t
  l : u.seq.l.toNat = Wire.headerLength s.cfg s.input

/-- The number of entries of a table without a repeated code. -/
theorem EntriesRead.count {e : List Byte} {j : Nat} {t : TableUnit} (h : EntriesRead e j t) (hnodup : (entryCodes e j).Nodup) :
    t.count.toNat = j := by
  have hge := mt h.count_lt_iff.mp (not_not.mpr hnodup)
  have hle := (distinct_sublist (entryCodes e j)).length_le
  rw [entryCodes_length, ← h.keys, TableUnit.keys_length h.wf] at hle
  omega

/-- D_BODYCHK: the data region has the length that the header states (R218). -/
theorem HeaderRead.dBodyChk_cases (h : HeaderRead s u) (hn : Wire.headerCount s.cfg s.input = n) (hle : n ≤ 256)
    (hnodup : (Wire.headerCodes s.cfg s.input).Nodup) (hdec : Decoding s tag (11 + 2 * n) u) :
    (ceilDiv (bitsPerEntry n * Wire.headerLength s.cfg s.input) 8 ≠ s.input.length - 11 - 2 * n ∧
        Rejects s tag .malformedBody (dBodyChk u)) ∨
      (ceilDiv (bitsPerEntry n * Wire.headerLength s.cfg s.input) 8 = s.input.length - 11 - 2 * n ∧
        ∃ v, dBodyChk u = .ok () v ∧ Decoding s tag (11 + 2 * n) v ∧ HeaderRead s v ∧ v.seq.b.toNat = bitsPerEntry n) := by
  have hb : (BitVec.ofNat 4 (bitsPerEntry u.t.count.toNat)).toNat = bitsPerEntry n := by
    rw [h.table.count hnodup, hn, toNat_ofNat_bitsPerEntry hle]
  have hdec' : Decoding s tag (11 + 2 * n)
      (u.setSeq { u.seq with b := BitVec.ofNat 4 (bitsPerEntry u.t.count.toNat) }) := hdec.move rfl
  have hrem := hdec'.remaining
  rw [dBodyChk]
  simp only [hrem, setSeq_seq, hb, h.l, Config.byteBits, Nat.sub_add_eq]
  by_cases hbody : ceilDiv (bitsPerEntry n * Wire.headerLength s.cfg s.input) 8 = s.input.length - 11 - 2 * n
  · rw [if_neg (not_not.mpr hbody)]
    exact .inr ⟨hbody, _, rfl, hdec'.move rfl, ⟨h.table, h.l⟩, hb⟩
  · rw [if_pos hbody]
    exact .inl ⟨hbody, hdec'.rejects _⟩

/-- Where the data region of an input begins that is an encoded buffer (R105). -/
abbrev State.dataStart (s : State) : Nat := 11 + 2 * Wire.headerCount s.cfg s.input

/-- The width of its codes (R124). -/
abbrev State.codeWidth (s : State) : Nat := bitsPerEntry (Wire.headerCount s.cfg s.input)

/-- The length of the output that it states (R104). -/
abbrev State.statedLength (s : State) : Nat := Wire.headerLength s.cfg s.input

/-- The output of the first `i` codes of the data region (R223). -/
def outputTo (c : Config) (e : List Byte) (i : Nat) : List Byte :=
  (List.range i).map fun k => Wire.symbolOf c e (Wire.dataCode c e k)

@[simp] theorem outputTo_length (c : Config) (e : List Byte) (i : Nat) : (outputTo c e i).length = i := by simp [outputTo]

theorem outputTo_succ (c : Config) (e : List Byte) (i : Nat) :
    outputTo c e (i + 1) = outputTo c e i ++ [Wire.symbolOf c e (Wire.dataCode c e i)] := by simp [outputTo, List.range_succ]

/-- D_UNPACK before code `i`. -/
structure Unpacking (s : State) (tag : Option Byte) (i : Nat) (u : State) : Prop where
  out : Emitted s tag s.statedLength (outputTo s.cfg s.input i) u
  header : HeaderRead s u
  b : u.seq.b.toNat = s.codeWidth
  len : u.r.len = s.inLen
  reader : ReaderAt s.dataStart (i * s.codeWidth) u

/-- D_ALLOC: the output fits OBUF (R220). -/
theorem HeaderRead.dAlloc_cases (h : HeaderRead s u) (hb : u.seq.b.toNat = s.codeWidth)
    (hdec : Decoding s tag s.dataStart u) (hfree : s.outValid = false) (hcap : s.cfg.outCap < 2 ^ 64) :
    (s.cfg.outCap < s.statedLength ∧ Rejects s tag .allocationFailure (dAlloc u)) ∨
      (s.statedLength ≤ s.cfg.outCap ∧ ∃ v, dAlloc u = .ok () v ∧ Unpacking s tag 0 v) := by
  rw [dAlloc, h.l]
  rcases Nat.lt_or_ge s.cfg.outCap s.statedLength with hlong | hfit
  · rw [allocate_of_gt (hdec.running.outValid.trans hfree) (by rw [hdec.running.cfg]; exact hlong)]
    exact .inl ⟨hlong, _, rfl, hdec.running.move rfl, hdec.obuf⟩
  · obtain ⟨v, hv, heq, hout⟩ := hdec.running.allocate hdec.obuf hfree hcap hfit
    have hr : v.r = u.r := by rw [heq]
    have ht : v.t = u.t := by rw [heq]
    have hseq : v.seq = u.seq := by rw [heq]
    have hibuf : v.ibufAt = u.ibufAt := by rw [heq]; rfl
    rw [hv]
    refine .inr ⟨hfit, v.toPhase .dUnpack, rfl, hout.setSeq _, ⟨?_, ?_⟩, ?_, ?_, ?_⟩
    · exact (congrArg (EntriesRead s.input _) ht).mpr h.table
    · exact (congrArg (fun q => q.l.toNat) hseq).trans h.l
    · exact (congrArg (fun q => q.b.toNat) hseq).trans hb
    · exact (congrArg ReaderUnit.len hr).trans hdec.len
    · rw [Nat.zero_mul]
      exact ⟨hr ▸ hdec.reader.ptr, hr ▸ hdec.reader.bi, by rw [toPhase_r, hr]; exact hibuf ▸ hdec.reader.la⟩

/-! ## D_UNPACK -/

/-- The stream of a reader is the one of the data region, inside the input (R105, R168). -/
theorem Running.streamBit (h : Running s tag u) {k : Nat} (hk : p + k / 8 < s.input.length) :
    u.streamBit p k = Wire.streamBit (s.input.drop p) k := by
  rw [State.streamBit, h.ibufAt, Wire.streamBit, List.getD_eq_getElem?_getD, List.getElem?_drop,
    s.input_getElem? (by rwa [s.input_length] at hk)]
  rfl

/-- What D_BODYCHK and the checks before it establish of the input: the data region holds the codes that the header states
(R218). -/
structure BodyFits (s : State) : Prop where
  cap : s.inLen.toNat ≤ s.cfg.inCap
  header : s.dataStart ≤ s.input.length
  body : ceilDiv (s.codeWidth * s.statedLength) 8 = s.input.length - s.dataStart

/-- The bits of each code end inside the input. -/
theorem BodyFits.bits_le (h : BodyFits s) {i : Nat} (hi : i < s.statedLength) :
    i * s.codeWidth + s.codeWidth ≤ 8 * (s.input.length - s.dataStart) := by
  have hbody := h.body
  have hmul := Nat.mul_le_mul_left s.codeWidth (Nat.succ_le_of_lt hi)
  rw [ceilDiv_eight] at hbody
  rw [← Nat.succ_mul, Nat.mul_comm]
  omega

variable {i : Nat}

theorem Unpacking.setIdx (h : Unpacking s tag i u) (idx : Word) :
    Unpacking s tag i (u.setSeq { u.seq with idx := idx }) :=
  ⟨h.out.setSeq _, ⟨h.header.table, h.header.l⟩, h.b, h.len, ⟨h.reader.ptr, h.reader.bi, h.reader.la⟩⟩

/-- UNPACK takes the next code of the data region (R221, R223). -/
theorem Unpacking.unpackCode (h : Unpacking s tag i u) (hfit : BodyFits s) (hi : i < s.statedLength) :
    ∃ code v, unpackCode u.seq.b.toNat u = .ok code v ∧ BitVec.ofNat 8 code = Wire.dataCode s.cfg s.input i ∧
      SameButReader u v ∧ v.r.len = s.inLen ∧ ReaderAt s.dataStart ((i + 1) * s.codeWidth) v := by
  have hbits := hfit.bits_le hi
  have hlen := s.input_length
  have hheader := hfit.header
  have hroom : s.dataStart + ceilDiv (i * s.codeWidth + s.codeWidth) 8 ≤ u.r.len.toNat := by
    rw [ceilDiv_eight, h.len]
    omega
  obtain ⟨v, hv, hvlen, hend⟩ := h.reader.readBits (by rw [h.len, h.out.running.cfg]; exact hfit.cap) hroom
  have hcheck : ¬ (0 < s.codeWidth ∧ u.r.len.toNat < u.r.ptr.toNat + ceilDiv (u.r.bi.toNat + s.codeWidth) 8) := by
    rw [h.reader.ptr, h.reader.bi, ceilDiv_eight]
    rw [ceilDiv_eight] at hroom
    omega
  refine ⟨_, v, by rw [h.b, Machine.unpackCode, if_neg hcheck, hv, Res.bind_ok], ?_, readBits_frame hv, hvlen.trans h.len,
    by rwa [Nat.succ_mul i]⟩
  refine congrArg (fun bits => BitVec.ofNat 8 (bitsValue bits)) (List.map_congr_left fun j hj => ?_)
  have hj := List.mem_range.mp hj
  exact h.out.running.streamBit (by omega)

/-- An iteration of D_UNPACK writes the symbol of the code, or fails on a code without an entry (R221). -/
theorem Unpacking.step (h : Unpacking s tag i u) (hfit : BodyFits s) (hi : i < s.statedLength) :
    (Wire.dataCode s.cfg s.input i ∈ Wire.headerCodes s.cfg s.input ∧ ∃ v, unpackStep u = .ok () v ∧ Unpacking s tag (i + 1) v) ∨
      (Wire.dataCode s.cfg s.input i ∉ Wire.headerCodes s.cfg s.input ∧ ∃ v, unpackStep u = .raise .invalidCode v ∧
        Emitted s tag s.statedLength (outputTo s.cfg s.input i) v) := by
  obtain ⟨code, v, hv, hcode, hsame, hlen, hreader⟩ := h.unpackCode hfit hi
  have hout := h.out.of_sameButReader hsame
  have ht : v.t = u.t := by rw [hsame]
  have hseq : v.seq = u.seq := by rw [hsame]
  have hhas := h.header.table.has_iff (k := Wire.dataCode s.cfg s.input i)
  rw [← ht, ← headerCodes_eq s.cfg] at hhas
  rcases unpackStep_of_code hv with ⟨hkey, e⟩ | ⟨hkey, e⟩ <;> rw [hcode] at hkey
  · have hmem := hhas.mp hkey
    have hsymbol : v.t.valueOf (Wire.dataCode s.cfg s.input i)
        = Wire.symbolOf s.cfg s.input (Wire.dataCode s.cfg s.input i) := by
      rw [ht]
      exact h.header.table.symbol _ hmem
    obtain ⟨w, hw, hsame', hout⟩ := hout.writeBytes (bs := [v.t.valueOf (Wire.dataCode s.cfg s.input i)])
      (by rw [outputTo_length]; exact hi)
    have hwt : w.t = u.t := by rw [hsame', ← ht]
    have hwseq : w.seq = u.seq := by rw [hsame', ← hseq]
    have hwr : w.r = v.r := by rw [hsame']
    have hibuf : w.ibufAt = v.ibufAt := by rw [hsame']; rfl
    rw [hsymbol, ← outputTo_succ] at hout
    refine .inl ⟨hmem, w, by rw [e, put8_eq, hcode]; exact hw, hout, ⟨hwt ▸ h.header.table, hwseq ▸ h.header.l⟩, hwseq ▸ h.b,
      hwr ▸ hlen, ⟨hwr ▸ hreader.ptr, hwr ▸ hreader.bi, ?_⟩⟩
    rw [hwr, hibuf]
    exact hreader.la
  · exact .inr ⟨mt hhas.mpr (by simp [hkey]), v, e, hout⟩

/-- A loop whose first iterations go on and carry a property to one that fails ends with that failure. -/
theorem forIdx_raises {body : State → Res Unit} {P : Nat → State → Prop} {Q : State → Prop} {k : ErrKind} {bad todo : Nat}
    (hs : P i s) (hbad : bad < todo)
    (hstep : ∀ j u, i ≤ j → j < i + bad → P j u → ∃ v, body (u.setSeq { u.seq with idx := zext64 j }) = .ok () v ∧ P (j + 1) v)
    (hraise : ∀ u, P (i + bad) u → ∃ v, body (u.setSeq { u.seq with idx := zext64 (i + bad) }) = .raise k v ∧ Q v) :
    ∃ v, forIdx body todo i s = .raise k v ∧ Q v := by
  induction bad generalizing i s todo with
  | zero =>
    obtain ⟨todo, rfl⟩ := Nat.exists_eq_add_of_lt hbad
    obtain ⟨v, hv, hQ⟩ := hraise s hs
    exact ⟨v, by rw [forIdx_succ]; exact congrArg (Res.bind · _) hv, hQ⟩
  | succ bad ih =>
    obtain ⟨todo, rfl⟩ := Nat.exists_eq_add_of_lt (Nat.zero_lt_of_lt hbad)
    obtain ⟨u, hu, hP⟩ := hstep i s (Nat.le_refl _) (by omega) hs
    rw [forIdx_succ, hu, Res.bind_ok]
    exact ih hP (by omega) (fun j v hj hj' => hstep j v (by omega) (by omega))
      (by rwa [show i + 1 + bad = i + (bad + 1) by omega])

/-- D_UNPACK writes the output, or fails at the first code without an entry (R221). -/
theorem Unpacking.dUnpack_cases (h : Unpacking s tag 0 u) (hfit : BodyFits s) :
    ((∃ i < s.statedLength, Wire.dataCode s.cfg s.input i ∉ Wire.headerCodes s.cfg s.input) ∧
        ∃ v, dUnpack u = .raise .invalidCode v ∧ ∃ bytes, Emitted s tag s.statedLength bytes v) ∨
      ((¬ ∃ i < s.statedLength, Wire.dataCode s.cfg s.input i ∉ Wire.headerCodes s.cfg s.input) ∧
        ∃ v, dUnpack u = .ok () v ∧ Emitted s tag s.statedLength (outputTo s.cfg s.input s.statedLength) v) := by
  have hgoes : ∀ j u, j < s.statedLength → Wire.dataCode s.cfg s.input j ∈ Wire.headerCodes s.cfg s.input →
      Unpacking s tag j u →
      ∃ v, unpackStep (u.setSeq { u.seq with idx := zext64 j }) = .ok () v ∧ Unpacking s tag (j + 1) v := by
    intro j u hj hmem hu
    rcases (hu.setIdx (zext64 j)).step hfit hj with ⟨-, hv⟩ | ⟨hnot, -⟩
    · exact hv
    · exact absurd hmem hnot
  by_cases hbad : ∃ i < s.statedLength, Wire.dataCode s.cfg s.input i ∉ Wire.headerCodes s.cfg s.input
  · obtain ⟨hlt, hnot⟩ := Nat.find_spec hbad
    have hgood : ∀ j < Nat.find hbad, Wire.dataCode s.cfg s.input j ∈ Wire.headerCodes s.cfg s.input := fun j hj =>
      not_not.mp fun hmem => Nat.find_min hbad hj ⟨hj.trans hlt, hmem⟩
    obtain ⟨v, hv, bytes, hout⟩ := forIdx_raises (body := unpackStep) (P := Unpacking s tag) (k := .invalidCode)
      (Q := fun v => ∃ bytes, Emitted s tag s.statedLength bytes v) h hlt
      (fun j u _ hj hu => hgoes j u (by omega) (hgood j (by omega)) hu) fun u hu => by
        rw [Nat.zero_add] at hu ⊢
        rcases (hu.setIdx (zext64 (Nat.find hbad))).step hfit hlt with ⟨hmem, -⟩ | ⟨-, v, hv, hout⟩
        · exact absurd hmem hnot
        · exact ⟨v, hv, _, hout⟩
    exact .inl ⟨hbad, v, by rw [dUnpack, h.header.l, hv]; rfl, bytes, hout⟩
  · obtain ⟨v, hv, hend⟩ := forIdx_completes (body := unpackStep) (P := Unpacking s tag)
      (todo := s.statedLength) (i := 0) (s := u) h fun j y _ hj hy =>
        hgoes j y (by omega) (not_not.mp fun hmem => hbad ⟨j, by omega, hmem⟩) hy
    have hout := hend.out
    rw [Nat.zero_add] at hout
    exact .inr ⟨hbad, v.toPhase .dDone, by rw [dUnpack, h.header.l, hv]; rfl, hout.setSeq _⟩

/-! ## The whole decoder -/

/-- A run of DECODE from D_CHECK in `s` ends as R223 says: with the output, or with the kind of the first condition that does not
hold. A failure before the allocation leaves OBUF alone, and InvalidCode what lies beyond its buffer (R210, R268). -/
def FollowsVerdict (s : State) (r : Res Unit) : Except ErrKind (List Byte) → Prop
  | .ok bytes => ∃ t, r = .ok () t ∧ s.success t bytes s.cfg.methodTag
  | .error k => ∃ v, r = .raise k v ∧ Running s s.input.head? v ∧ k ≠ .invalidInput ∧ (k ≠ .invalidCode → v.obuf = s.obuf) ∧
      ∀ a, Wire.headerLength s.cfg s.input ≤ a → v.obuf.read? a = s.obuf.read? a

theorem Rejects.followsVerdict {k : ErrKind} {r : Res Unit} (h : Rejects s s.input.head? k r) (hk : k ≠ .invalidInput) :
    FollowsVerdict s r (.error k) := by
  obtain ⟨v, hv, hrunning, hobuf⟩ := h
  exact ⟨v, hv, hrunning, hk, fun _ => hobuf, fun a _ => by rw [hobuf]⟩

/-- A phase that fails ends the run. -/
theorem Rejects.bind {k : ErrKind} {r : Res Unit} (h : Rejects s tag k r) (next : Unit → State → Res Unit) :
    Rejects s tag k (r.bind next) := by
  obtain ⟨v, rfl, hv⟩ := h
  exact ⟨v, rfl, hv⟩

/-- DECODE from D_CHECK on an acceptable input: each phase decides the next condition of R223, which fails the run or lets it go on
to the next phase (R211, R223). -/
theorem decodeFromCheck_followsVerdict (h : Running s tag u) (hobuf : u.obuf = s.obuf) (hacc : s.acceptable = true)
    (hfree : s.outValid = false) (hcap : s.cfg.outCap < 2 ^ 64) :
    FollowsVerdict s (decodeFromCheck u) (Wire.verdict s.cfg s.input) := by
  obtain ⟨-, hpos, hinCap⟩ := s.acceptable_iff.mp hacc
  obtain ⟨v, hv, hdec, ht⟩ := Running.dCheck (u := u.toPhase .dCheck) (h.move rfl) hobuf hacc
  have htable : EntriesRead s.input 0 v.t := ht ▸ entriesRead_clear s.input _
  rw [decodeFromCheck, hv, Res.bind_ok]
  simp only [Wire.verdict]
  rcases hdec.dTag_cases (by rwa [s.input_length]) with ⟨hc, hr⟩ | ⟨hhead, v1, e1, hdec1, ht1⟩
  · rw [if_pos hc]
    exact (hr.bind _).followsVerdict (by decide)
  rw [if_neg (not_not.mpr hhead), e1, Res.bind_ok]
  rw [← hhead] at hdec1
  rcases hdec1.dCount_cases with ⟨hc, hr⟩ | ⟨hlen, hc, hr⟩ | ⟨hlen, hone, hmax, v2, e2, hdec2, ht2, hn2⟩
  · rw [if_pos hc]
    exact (hr.bind _).followsVerdict (by decide)
  · rw [if_neg (Nat.not_lt.mpr hlen), if_pos hc]
    exact (hr.bind _).followsVerdict (by decide)
  rw [if_neg (Nat.not_lt.mpr hlen), if_neg (by omega), e2, Res.bind_ok, dTabChk, hdec2.remaining, hn2, Config.entrySize]
  by_cases htab : s.input.length - 3 < 2 * Wire.headerCount s.cfg s.input
  · rw [if_pos htab, if_pos htab]
    exact (hdec2.rejects _).followsVerdict (by decide)
  rw [if_neg htab, if_neg htab, Res.bind_ok]
  have hstart : TableReading s s.input.head? 0 (v2.toPhase .dTable) :=
    ⟨hdec2.move rfl, by rw [toPhase_t, ht2, ht1]; exact htable, hn2⟩
  rcases hstart.dTable_cases (by omega) with ⟨hc, hr⟩ | ⟨hnodup, v3, e3, hread⟩
  · rw [if_pos hc]
    exact (hr.bind _).followsVerdict (by decide)
  rw [if_neg (not_not.mpr hnodup), e3, Res.bind_ok]
  rcases hread.dLen_cases rfl (by omega) with ⟨hc, hr⟩ | ⟨hlen8, v4, e4, hdec4, ht4, hl4⟩
  · rw [if_pos hc]
    exact (hr.bind _).followsVerdict (by decide)
  rw [if_neg (Nat.not_lt.mpr hlen8), e4, Res.bind_ok]
  have hheader : HeaderRead s v4 := ⟨ht4 ▸ hread.table, hl4⟩
  rcases hheader.dBodyChk_cases rfl hmax hnodup hdec4 with ⟨hc, hr⟩ | ⟨hbody, v5, e5, hdec5, hheader, hb⟩
  · rw [if_pos hc]
    exact (hr.bind _).followsVerdict (by decide)
  rw [if_neg (not_not.mpr hbody), e5, Res.bind_ok]
  rcases hheader.dAlloc_cases hb hdec5 hfree hcap with ⟨hc, hr⟩ | ⟨hroom, v6, e6, hunpack⟩
  · rw [if_pos hc]
    exact (hr.bind _).followsVerdict (by decide)
  rw [if_neg (Nat.not_lt.mpr hroom), e6, Res.bind_ok]
  have hfits : BodyFits s :=
    ⟨hinCap, show 11 + 2 * Wire.headerCount s.cfg s.input ≤ _ by omega, hbody.trans (Nat.sub_sub _ _ _)⟩
  rcases hunpack.dUnpack_cases hfits with ⟨hc, v7, e7, bytes, hout⟩ | ⟨hc, v7, e7, hout⟩
  · rw [if_pos hc, e7]
    exact ⟨v7, rfl, hout.running, by decide, fun hk => absurd rfl hk, hout.beyond⟩
  · rw [if_neg hc, e7, Res.bind_ok]
    rw [hhead] at hout
    refine Emitted.finish (bytes := outputTo s.cfg s.input _) ?_ hfree
    rwa [outputTo_length]

/-- With OBUF free and an acceptable input, DECODE and DECOMPRESS end as R223 says; DECOMPRESS tests the tag first, without
consuming it (R210, R242). -/
theorem exec_decodes {i : Instr} (hi : i = .decode ∨ i = .decompress) (hf : s.fault = 0) (hfree : s.outValid = false)
    (hacc : s.acceptable = true) (hcap : s.cfg.outCap < 2 ^ 64) :
    ∃ r, exec i s = r.outcome s ∧ FollowsVerdict s r (Wire.verdict s.cfg s.input) := by
  have hstart := running_afterPrologue s
  rcases hi with rfl | rfl
  · refine ⟨decodeFromCheck (afterPrologue s), ?_, decodeFromCheck_followsVerdict hstart rfl hacc hfree hcap⟩
    rw [exec, execDecode, command_of_ready _ hf, prologue_of_free hfree, Res.bind_ok]
  · obtain ⟨-, hpos, hinCap⟩ := s.acceptable_iff.mp hacc
    have hbyte : ibufByte 0 (afterPrologue s) = .ok (s.ibufAt 0) (afterPrologue s) :=
      ibufByte_of_lt (show 0 < s.cfg.inCap by omega)
    have hhead : s.input.head? = some (s.ibufAt 0) := by rw [List.head?_eq_getElem?, s.input_getElem? hpos]
    have hrunning := hstart.setTag (s.ibufAt 0)
    refine ⟨_, by rw [exec, execDecompress, command_of_ready _ hf, prologue_of_free hfree, Res.bind_ok,
      if_pos (hstart.acceptable.trans hacc), hbyte, Res.bind_ok], ?_⟩
    dsimp only
    rw [hrunning.cfg]
    by_cases htag : s.ibufAt 0 = s.cfg.methodTag
    · rw [if_neg (not_not.mpr htag)]
      exact decodeFromCheck_followsVerdict hrunning rfl hacc hfree hcap
    · rw [if_pos htag, Wire.verdict, if_pos (by rw [hhead]; simpa using htag)]
      rw [← hhead] at hrunning
      exact Rejects.followsVerdict ⟨_, rfl, hrunning, rfl⟩ (by decide)

end Sys2Proof.Machine
end

section
/-! PROOF of RoundTripRestoresTheInput: the nine conditions of R223 hold of an encoded buffer, and the output is its input (spec
44_encoder.md R199, 45_decoder.md R224, 46_dispatch_system.md R241, R242). -/

namespace Sys2Proof.Wire

open Sys2Proof.Machine

/-! ## The fields of an encoded buffer -/

theorem getElem?_entries {d : List Byte} {k : Nat} {b : Byte} (h : d[k]? = some b) :
    (entries d)[2 * k]? = some (BitVec.ofNat 8 k) ∧ (entries d)[2 * k + 1]? = some b := by
  induction d using List.reverseRecOn with
  | nil => simp at h
  | append_singleton d a ih =>
    have hlen := entries_length d
    rw [entries_concat]
    rw [List.getElem?_append] at h
    split at h
    next hold =>
      rw [List.getElem?_append_left (by omega), List.getElem?_append_left (by omega)]
      exact ih h
    next hnew =>
      obtain ⟨hk, rfl⟩ : k - d.length = 0 ∧ a = b := by simpa [List.getElem?_singleton] using h
      obtain rfl : k = d.length := by omega
      rw [List.getElem?_append_right (by omega), List.getElem?_append_right (by omega), hlen]
      simp

section
variable (c : Config) (x : List Byte)

/-- The fields of an encoded buffer, one after another (R100 to R105). -/
theorem enc_eq_fields :
    enc c x = [c.methodTag] ++ (encBytes c.byteOrder 2 (distinct x).length ++ (entries (distinct x)
      ++ (encBytes c.byteOrder 8 x.length
        ++ packbits (bitsPerEntry (distinct x).length) (x.map fun b => (distinct x).idxOf b)))) := by
  simp [enc, Config.countSize, Config.lenSize]

theorem enc_head? : (enc c x).head? = some c.methodTag := rfl

theorem headerCount_enc : headerCount c (enc c x) = (distinct x).length := by
  have hle := distinct_length_le x
  rw [headerCount, enc_eq_fields, List.drop_left' List.length_singleton, List.take_left' (by rw [encBytes_length]; rfl),
    decBytes_encBytes]
  exact Nat.mod_eq_of_lt (by omega)

theorem headerLength_enc (hlen : x.length < 2 ^ 64) : headerLength c (enc c x) = x.length := by
  rw [headerLength, headerCount_enc, enc_eq_fields, ← List.append_assoc, ← List.append_assoc, List.drop_left'
    (by simp [entries_length]; omega), List.take_left' (by rw [encBytes_length]; rfl), decBytes_encBytes]
  exact Nat.mod_eq_of_lt hlen

/-- The bytes of an entry, in the buffer (R103). -/
theorem enc_getD_entry {k : Nat} {b : Byte} (h : (distinct x)[k]? = some b) :
    (enc c x).getD (3 + 2 * k) 0 = BitVec.ofNat 8 k ∧ (enc c x).getD (4 + 2 * k) 0 = b := by
  have hk := (List.getElem?_eq_some_iff.mp h).1
  have hlen := entries_length (distinct x)
  have hfield : ∀ m < (entries (distinct x)).length, (enc c x)[3 + m]? = (entries (distinct x))[m]? := fun m hm => by
    rw [enc_eq_fields, ← List.append_assoc, List.getElem?_append_right (by simp), List.getElem?_append_left (by simp; omega)]
    simp [show 3 + m - (2 + 1) = m by omega]
  obtain ⟨hcode, hsymbol⟩ := getElem?_entries h
  rw [List.getD_eq_getElem?_getD, List.getD_eq_getElem?_getD, hfield _ (by omega), show 4 + 2 * k = 3 + (2 * k + 1) by omega,
    hfield _ (by omega), hcode, hsymbol]
  exact ⟨rfl, rfl⟩

/-- The codes of the entries are their positions (R103). -/
theorem headerCodes_enc : headerCodes c (enc c x) = (List.range (distinct x).length).map (BitVec.ofNat 8) := by
  rw [headerCodes, headerCount_enc]
  refine List.map_congr_left fun k hk => ?_
  exact (enc_getD_entry c x (List.getElem?_eq_getElem (List.mem_range.mp hk))).1

theorem nodup_headerCodes_enc : (headerCodes c (enc c x)).Nodup := by
  have hle := distinct_length_le x
  rw [headerCodes_enc]
  refine List.Nodup.map_on (fun a ha b hb hab => ?_) List.nodup_range
  have ha := List.mem_range.mp ha
  have hb := List.mem_range.mp hb
  have := congrArg BitVec.toNat hab
  rw [BitVec.toNat_ofNat, BitVec.toNat_ofNat] at this
  omega

theorem headerCodes_enc_getElem? {k : Nat} (hk : k < (distinct x).length) :
    (headerCodes c (enc c x))[k]? = some (BitVec.ofNat 8 k) := by
  rw [headerCodes_enc]
  simp [hk]

/-- The symbol of a code is the byte in its position (R223). -/
theorem symbolOf_enc {k : Nat} {b : Byte} (h : (distinct x)[k]? = some b) :
    symbolOf c (enc c x) (BitVec.ofNat 8 k) = b := by
  obtain ⟨hlt, hk⟩ := List.getElem?_eq_some_iff.mp (headerCodes_enc_getElem? c x (List.getElem?_eq_some_iff.mp h).1)
  have hidx : (headerCodes c (enc c x)).idxOf (BitVec.ofNat 8 k) = k := by
    rw [← hk]
    exact (nodup_headerCodes_enc c x).idxOf_getElem k hlt
  rw [symbolOf, hidx]
  exact (enc_getD_entry c x h).2

theorem enc_drop_header :
    (enc c x).drop (11 + 2 * (distinct x).length) = bytesOfBits (packedStream x x.length) := by
  rw [enc_eq_header_append_stream, List.drop_left' (header_length c x)]

/-- The codes fit their width, so each is what its bits form (R124). -/
theorem bitsValue_codeBits_idxOf {b : Byte} (hb : b ∈ x) :
    BitVec.ofNat 8 (bitsValue (codeBits (bitsPerEntry (distinct x).length) (BitVec.ofNat 8 ((distinct x).idxOf b))))
      = BitVec.ofNat 8 ((distinct x).idxOf b) := by
  have hlt := List.idxOf_lt_length_of_mem (mem_distinct.mpr hb)
  have hle := distinct_length_le x
  have hfits := hlt.trans_le (le_two_pow_bitsPerEntry _)
  rw [bitsValue_codeBits, BitVec.toNat_ofNat, Nat.mod_eq_of_lt (show (distinct x).idxOf b < 2 ^ 8 by omega),
    Nat.mod_eq_of_lt hfits]

/-- The code in a position of the data region is the one of the byte in that position of the input (R223). -/
theorem dataCode_enc {i : Nat} {b : Byte} (h : x[i]? = some b) :
    dataCode c (enc c x) i = BitVec.ofNat 8 ((distinct x).idxOf b) := by
  obtain ⟨hi, -⟩ := List.getElem?_eq_some_iff.mp h
  have hcode : (inputCodes x).getD i 0 = BitVec.ofNat 8 ((distinct x).idxOf b) := by simp [inputCodes, h]
  have hmul := Nat.mul_le_mul_left (bitsPerEntry (distinct x).length) (Nat.succ_le_of_lt hi)
  rw [← bitsValue_codeBits_idxOf x (List.mem_of_getElem? h), ← hcode]
  simp only [dataCode, headerCount_enc, enc_drop_header]
  refine congrArg (fun bits => BitVec.ofNat 8 (bitsValue bits)) (List.map_congr_left fun j hj => ?_)
  have hj := List.mem_range.mp hj
  have hdiv : (i * bitsPerEntry (distinct x).length + j) / bitsPerEntry (distinct x).length = i := by
    rw [Nat.mul_comm, Nat.mul_add_div (by omega), Nat.div_eq_of_lt hj, Nat.add_zero]
  have hmod : (i * bitsPerEntry (distinct x).length + j) % bitsPerEntry (distinct x).length = j := by
    rw [Nat.mul_comm, Nat.mul_add_mod, Nat.mod_eq_of_lt hj]
  have hin : i * bitsPerEntry (distinct x).length + j < bitsPerEntry (distinct x).length * (inputCodes x).length := by
    rw [Nat.mul_succ, Nat.mul_comm] at hmul
    rw [inputCodes_length]
    omega
  rw [streamBit_bytesOfBits, packedStream, ← inputCodes_length x, List.take_length, codeStream_getD, decide_eq_true hin, hdiv,
    hmod, Bool.true_and]

end

/-- The conditions of R223 hold of an encoded buffer one by one, and its output is the input (R224). -/
theorem verdict_enc {c : Config} {x : List Byte} (hpos : x ≠ []) (hword : x.length < 2 ^ 64) (hcap : x.length ≤ c.outCap) :
    verdict c (enc c x) = .ok x := by
  have hsize := encodedLengthFollowsTheSizeLaw c x
  have hn := List.length_pos_iff.mpr (distinct_ne_nil hpos)
  have hmax := distinct_length_le x
  have hposition : ∀ b ∈ x, (distinct x)[(distinct x).idxOf b]? = some b := fun b hb =>
    List.getElem?_idxOf (mem_distinct.mpr hb)
  have hcodes : ¬ ∃ i < x.length, dataCode c (enc c x) i ∉ headerCodes c (enc c x) := by
    rintro ⟨i, hi, hnot⟩
    have hb := List.getElem?_eq_getElem hi
    have hlt := (List.getElem?_eq_some_iff.mp (hposition _ (List.mem_of_getElem? hb))).1
    rw [dataCode_enc c x hb] at hnot
    exact hnot (List.mem_of_getElem? (headerCodes_enc_getElem? c x hlt))
  have houtput : ((List.range x.length).map fun i => symbolOf c (enc c x) (dataCode c (enc c x) i)) = x := by
    refine List.ext_getElem (by simp) fun i _ hi => ?_
    have hb := List.getElem?_eq_getElem hi
    rw [List.getElem_map, List.getElem_range, dataCode_enc c x hb, symbolOf_enc c x (hposition _ (List.mem_of_getElem? hb))]
  simp only [verdict, headerCount_enc, headerLength_enc c x hword]
  rw [if_neg (not_not.mpr (enc_head? c x)), if_neg (by omega), if_neg (by omega), if_neg (by omega),
    if_neg (not_not.mpr (nodup_headerCodes_enc c x)), if_neg (by omega), if_neg (by rw [hsize]; omega), if_neg (by omega),
    if_neg hcodes, houtput]

end Sys2Proof.Wire

namespace Sys2Proof.Machine

/-- A block that holds the encoded buffer of an input gives the input back (R224, R242). -/
theorem exec_decodes_enc {j : Instr} {u : State} {x : List Byte} (hj : j = .decode ∨ j = .decompress) (hf : u.fault = 0)
    (hfree : u.outValid = false) (hacc : u.acceptable = true) (hwf : u.cfg.wf) (hpos : x ≠ []) (hcap : x.length ≤ u.cfg.outCap)
    (hinput : u.input = Wire.enc u.cfg x) : ∃ v, exec j u = .next v ∧ u.success v x u.cfg.methodTag := by
  obtain ⟨-, -, -, houtCap⟩ := hwf
  obtain ⟨r, hr, hverdict⟩ := exec_decodes hj hf hfree hacc houtCap
  rw [hinput, Wire.verdict_enc hpos (by omega) hcap] at hverdict
  obtain ⟨v, rfl, hsuccess⟩ := hverdict
  exact ⟨v, hr, hsuccess⟩

/-- The input of a block whose IBUF holds a sequence of bytes. -/
theorem State.input_eq {u : State} {bytes : List Byte} (hlen : u.inLen.toNat = bytes.length)
    (h : ∀ a < bytes.length, some (u.ibufAt a) = bytes[a]?) : u.input = bytes := by
  refine List.ext_getElem? fun a => ?_
  rcases Nat.lt_or_ge a bytes.length with ha | ha
  · rw [u.input_getElem? (by omega), h a ha]
  · rw [List.getElem?_eq_none (by rw [u.input_length]; omega), List.getElem?_eq_none ha]

/-- Settles O35: ENCODE leaves the encoded buffer of the input, which decodes to the input. -/
theorem roundTripRestoresTheInput : Obligations.RoundTripRestoresTheInput := by
  intro i j s t u hi hj hwf hf hfree hin hpos hcap hexec hok houtput hcapIn hcfg hfu hfreeu hinu hlen hcopy
  obtain ⟨t', hexec', hfits, hlong⟩ := encodeWritesTheEncodedBuffer i s hi hwf hf hfree hin hpos hcap
  obtain rfl : t = t' := by rw [hexec] at hexec'; cases hexec'; rfl
  have hfit : (Wire.enc s.cfg s.input).length ≤ s.cfg.outCap := by
    refine Nat.not_lt.mp fun hlt => ?_
    obtain ⟨⟨hfailed, -⟩, -⟩ := hlong hlt
    exact absurd (hok.symm.trans hfailed) (by decide)
  obtain ⟨-, -, -, hbytes, hread, -⟩ := hfits hfit
  have hsize := Wire.encodedLengthFollowsTheSizeLaw s.cfg s.input
  have hinput : u.input = Wire.enc u.cfg s.input := by
    rw [hcfg]
    refine State.input_eq (by rw [hlen, hbytes]) fun a ha => ?_
    have hbyte := hread a ha
    rw [List.getElem?_eq_getElem ha] at hbyte ⊢
    rw [hcopy a (by omega), State.obufAt, hbyte, Option.getD_some]
  have hacc : u.acceptable = true := u.acceptable_iff.mpr ⟨hinu, by rw [hlen]; omega, by rw [hlen, hcfg]; exact hcapIn⟩
  have hne : s.input ≠ [] := List.ne_nil_of_length_pos (by rw [s.input_length]; exact hpos)
  have hdecodes := exec_decodes_enc hj hfu hfreeu hacc (hcfg ▸ hwf) hne (by rw [s.input_length, hcfg]; exact houtput) hinput
  rwa [hcfg] at hdecodes

end Sys2Proof.Machine
end

section
/-! PROOF of MacrosFaultOnlyForOwnership (spec 44_encoder.md R200, 45_decoder.md R226, 46_dispatch_system.md R247). -/

namespace Sys2Proof.Machine

variable {s t : State} {i : Instr}

/-- Every composed operation begins with the prologue, so it faults while the host owns OBUF (R247). -/
theorem exec_isMacro_of_owned (hi : isMacro i = true) (hf : s.fault = 0) (howned : s.outValid = true) :
    exec i s = .next { s with fault := 0x20 } := by
  have hprologue : prologue s = .fault .ownership := if_pos howned
  have hstart : ∀ next : State → Res Unit,
      command (fun s => (prologue s).bind fun _ s => next s) s = .next { s with fault := 0x20 } := fun next =>
    command_of_fault .ownership hf (by rw [hprologue]; rfl)
  unfold exec
  cases i with
  | encode => exact hstart _
  | decode => exact hstart _
  | compress method => exact hstart _
  | decompress => exact hstart _
  | _ => exact nomatch hi

theorem exec_compress_of_other_method {method : Byte} (hmethod : method ≠ s.cfg.methodTag) (hf : s.fault = 0)
    (hfree : s.outValid = false) (hacc : s.acceptable = true) :
    exec (.compress method) s = .next (failureExit .unknownMethod ((afterPrologue s).setTag true method)) := by
  have hstart := running_afterPrologue s
  rw [exec, execCompress, command_of_ready _ hf, prologue_of_free hfree, Res.bind_ok, if_pos (hstart.acceptable.trans hacc)]
  exact congrArg (Res.outcome s) (if_pos hmethod)

/-- A run of DECODE that ends as R223 says raises no fault. -/
theorem FollowsVerdict.macroFrame {r : Res Unit} {verdict : Except ErrKind (List Byte)} (h : FollowsVerdict s r verdict) :
    ∃ t, r.outcome s = .next t ∧ s.macroFrame t := by
  cases verdict with
  | ok bytes =>
    obtain ⟨t, rfl, hsuccess⟩ := h
    obtain ⟨-, -, -, -, -, -, -, -, -, -, hframe⟩ := hsuccess
    exact ⟨t, rfl, hframe⟩
  | error k =>
    obtain ⟨v, rfl, hrunning, hk, -⟩ := h
    obtain ⟨-, -, -, -, -, -, -, -, hframe⟩ := hrunning.failure hk
    exact ⟨failureExit k v, rfl, hframe⟩

/-- ENCODE and COMPRESS with the method `METHOD_TAG` leave a record of success or of failure. -/
theorem exec_encodes_macroFrame (hi : i = .encode ∨ i = .compress s.cfg.methodTag) (hwf : s.cfg.wf) (hf : s.fault = 0)
    (hfree : s.outValid = false) (hacc : s.acceptable = true) : ∃ t, exec i s = .next t ∧ s.macroFrame t := by
  obtain ⟨hin, hpos, hcap⟩ := s.acceptable_iff.mp hacc
  obtain ⟨t, ht, hfits, hlong⟩ := encodeWritesTheEncodedBuffer i s hi hwf hf hfree hin hpos hcap
  refine ⟨t, ht, ?_⟩
  rcases Nat.lt_or_ge s.cfg.outCap (Wire.enc s.cfg s.input).length with hlt | hle
  · obtain ⟨⟨-, -, -, -, -, -, -, -, hframe⟩, -⟩ := hlong hlt
    exact hframe
  · obtain ⟨-, -, -, -, -, -, -, -, -, -, hframe⟩ := hfits hle
    exact hframe

/-- With OBUF free, every composed operation ends with a record, and FAULT is part of the frame it keeps (R200, R226, R247). -/
theorem exec_isMacro_macroFrame (hi : isMacro i = true) (hwf : s.cfg.wf) (hf : s.fault = 0) (hfree : s.outValid = false) :
    ∃ t, exec i s = .next t ∧ s.macroFrame t := by
  cases hacc : s.acceptable with
  | false =>
    have hbad : ¬ (s.inPresent = true ∧ 1 ≤ s.inLen.toNat ∧ s.inLen.toNat ≤ s.cfg.inCap) := by
      rw [← s.acceptable_iff, hacc]
      decide
    obtain ⟨t, ht, ⟨-, -, -, -, -, -, -, -, hframe⟩, -⟩ := macrosRejectUnacceptableInput i s hi hf hfree hbad
    exact ⟨t, ht, hframe⟩
  | true =>
    have ⟨_, _, _, houtCap⟩ := hwf
    have hdecodes : i = .decode ∨ i = .decompress → ∃ t, exec i s = .next t ∧ s.macroFrame t := fun hi => by
      obtain ⟨r, hr, hverdict⟩ := exec_decodes hi hf hfree hacc houtCap
      rw [hr]
      exact hverdict.macroFrame
    cases i with
    | encode => exact exec_encodes_macroFrame (.inl rfl) hwf hf hfree hacc
    | decode => exact hdecodes (.inl rfl)
    | decompress => exact hdecodes (.inr rfl)
    | compress method =>
      by_cases hmethod : method = s.cfg.methodTag
      · exact exec_encodes_macroFrame (.inr (by rw [hmethod])) hwf hf hfree hacc
      · obtain ⟨-, -, -, -, -, -, -, -, hframe⟩ :=
          ((running_afterPrologue s).setTag method).failure (k := .unknownMethod) (by decide)
        exact ⟨_, exec_compress_of_other_method hmethod hf hfree hacc, hframe⟩
    | _ => exact nomatch hi

/-- Settles O40: the prologue's fault, and the frame of every record. -/
theorem macrosFaultOnlyForOwnership : Obligations.MacrosFaultOnlyForOwnership := by
  intro i s t hi hwf hf hexec
  refine ⟨fun howned => ?owned, fun hfree => ?free⟩
  case owned =>
    rw [exec_isMacro_of_owned hi hf howned] at hexec
    cases hexec
    rfl
  case free =>
    obtain ⟨t', ht', -, -, -, -, hfault, -⟩ := exec_isMacro_macroFrame hi hwf hf hfree
    rw [ht'] at hexec
    cases hexec
    exact hfault.trans hf

end Sys2Proof.Machine
end

section
/-! PROOF of DecodeFollowsTheVerdict (spec 45_decoder.md R210 to R223, 46_dispatch_system.md R242). The statement puts no bound on
`OUT_CAP`, which `decodeFromCheck_followsVerdict` asks for, and none is needed: the stated length is a word, so the size of the
buffer is (R217, R220). -/

namespace Sys2Proof.Machine

variable {s u v : State} {tag : Option Byte}

/-! ## D_COUNT, D_TABCHK and D_ALLOC -/

/-- D_COUNT decides two conditions of R223 at once (R214). -/
theorem Decoding.dCount_decides (h : Decoding s tag 1 u) :
    ((s.input.length < 3 ∨ Wire.headerCount s.cfg s.input < 1 ∨ 256 < Wire.headerCount s.cfg s.input) ∧
        Rejects s tag .malformedHeader (dCount u)) ∨
      ((3 ≤ s.input.length ∧ 1 ≤ Wire.headerCount s.cfg s.input ∧ Wire.headerCount s.cfg s.input ≤ 256) ∧
        ∃ v, dCount u = .ok () v ∧ Decoding s tag 3 v ∧ v.t = u.t ∧ v.seq.n.toNat = Wire.headerCount s.cfg s.input) := by
  rcases h.dCount_cases with ⟨hshort, hr⟩ | ⟨-, hcount, hr⟩ | ⟨hlen, hone, hmax, hnext⟩
  · exact .inl ⟨.inl hshort, hr⟩
  · exact .inl ⟨.inr hcount, hr⟩
  · exact .inr ⟨⟨hlen, hone, hmax⟩, hnext⟩

/-- D_TABCHK: the entries are there (R215). -/
theorem Decoding.dTabChk_cases (h : Decoding s tag 3 u) (hn : u.seq.n.toNat = Wire.headerCount s.cfg s.input) :
    (s.input.length - 3 < 2 * Wire.headerCount s.cfg s.input ∧ Rejects s tag .malformedHeader (dTabChk u)) ∨
      (2 * Wire.headerCount s.cfg s.input ≤ s.input.length - 3 ∧ ∃ v, dTabChk u = .ok () v ∧ Decoding s tag 3 v ∧ v.t = u.t ∧
        v.seq.n.toNat = Wire.headerCount s.cfg s.input) := by
  rw [dTabChk, h.remaining, hn, Config.entrySize]
  rcases Nat.lt_or_ge (s.input.length - 3) (2 * Wire.headerCount s.cfg s.input) with hshort | hfit
  · rw [if_pos hshort]
    exact .inl ⟨hshort, h.rejects _⟩
  · rw [if_neg (Nat.not_lt.mpr hfit)]
    exact .inr ⟨hfit, _, rfl, h.move rfl, rfl, hn⟩

/-- A new buffer of a size that a word holds, in an OBUF of any capacity (R141). -/
theorem Running.emitted_of_allocate {size : Nat} (h : Running s tag u) (hobuf : u.obuf = s.obuf) (hword : size < 2 ^ 64)
    (hsize : size ≤ s.cfg.outCap) :
    Emitted s tag size []
      { u with
        w := { len := zext64 size, ptr := 0, bi := 0, acc := 0 }
        obuf := u.obuf.forgetBelow size
        obufEpoch := u.obufEpoch + 1 } where
  running := h.move rfl
  cap := hsize
  len := zext64_toNat hword
  ptr := rfl
  bi := rfl
  acc := rfl
  read a ha := absurd ha (Nat.not_lt_zero a)
  beyond a ha := by rw [Memory.read?_forgetBelow, if_neg (Nat.not_lt.mpr ha), hobuf]

/-- D_ALLOC decides the capacity condition whatever the capacity is (R220). -/
theorem HeaderRead.dAlloc_decides (h : HeaderRead s u) (hb : u.seq.b.toNat = s.codeWidth)
    (hdec : Decoding s tag s.dataStart u) (hfree : s.outValid = false) :
    (s.cfg.outCap < s.statedLength ∧ Rejects s tag .allocationFailure (dAlloc u)) ∨
      (s.statedLength ≤ s.cfg.outCap ∧ ∃ v, dAlloc u = .ok () v ∧ Unpacking s tag 0 v) := by
  have hfree := hdec.running.outValid.trans hfree
  have hcfg := hdec.running.cfg
  rw [dAlloc, h.l]
  rcases Nat.lt_or_ge s.cfg.outCap s.statedLength with hlong | hfit
  · rw [allocate_of_gt hfree (by rwa [hcfg])]
    exact .inl ⟨hlong, _, rfl, hdec.running.move rfl, hdec.obuf⟩
  · have hword : s.statedLength < 2 ^ 64 := h.l.symm.trans_lt u.seq.l.isLt
    rw [allocate_of_le hfree (by rwa [hcfg])]
    refine .inr ⟨hfit, _, rfl, (hdec.running.emitted_of_allocate hdec.obuf hword hfit).setSeq _, ⟨h.table, h.l⟩, hb, hdec.len, ?_⟩
    rw [Nat.zero_mul]
    exact ⟨hdec.reader.ptr, hdec.reader.bi, hdec.reader.la⟩

/-! ## Phases and conditions in step -/

/-- A phase that decides the next condition of R223: where the condition fails, the run ends with its kind, and otherwise the
phases after it answer for the conditions after it. -/
theorem FollowsVerdict.guard {bad good : Prop} [Decidable bad] {k : ErrKind} {P : State → Prop} {r : Res Unit}
    {next : Unit → State → Res Unit} {rest : Except ErrKind (List Byte)}
    (h : (bad ∧ Rejects s s.input.head? k r) ∨ (good ∧ ∃ v, r = .ok () v ∧ P v)) (hgood : good → ¬ bad)
    (hk : k ≠ .invalidInput) (hnext : good → ∀ v, P v → FollowsVerdict s (next () v) rest) :
    FollowsVerdict s (r.bind next) (if bad then .error k else rest) := by
  rcases h with ⟨hbad, hrejects⟩ | ⟨hholds, v, rfl, hv⟩
  · rw [if_pos hbad]
    exact (hrejects.bind next).followsVerdict hk
  · rw [if_neg (hgood hholds)]
    exact hnext hholds v hv

/-- D_UNPACK and D_DONE decide the last condition of R223. -/
theorem Unpacking.followsVerdict (h : Unpacking s s.input.head? 0 u) (hfit : BodyFits s)
    (hhead : s.input.head? = some s.cfg.methodTag) (hfree : s.outValid = false) :
    FollowsVerdict s ((dUnpack u).bind fun _ s => dDone s)
      (if ∃ i < s.statedLength, Wire.dataCode s.cfg s.input i ∉ Wire.headerCodes s.cfg s.input then .error .invalidCode
        else .ok (outputTo s.cfg s.input s.statedLength)) := by
  rcases h.dUnpack_cases hfit with ⟨hbad, v, hv, bytes, hout⟩ | ⟨hgood, v, hv, hout⟩
  · rw [if_pos hbad, hv]
    exact ⟨v, rfl, hout.running, by decide, fun hk => absurd rfl hk, hout.beyond⟩
  · rw [if_neg hgood, hv, Res.bind_ok]
    rw [hhead] at hout
    exact Emitted.finish (by rwa [outputTo_length]) hfree

/-- DECODE from D_CHECK on an acceptable input: one phase after the other decides one condition of R223 after the other (R211,
R223). -/
theorem Running.decodeFromCheck (h : Running s tag u) (hobuf : u.obuf = s.obuf) (hacc : s.acceptable = true)
    (hfree : s.outValid = false) : FollowsVerdict s (decodeFromCheck u) (Wire.verdict s.cfg s.input) := by
  obtain ⟨-, hpos, hinCap⟩ := s.acceptable_iff.mp hacc
  obtain ⟨v, hv, hdec, ht⟩ := Running.dCheck (u := u.toPhase .dCheck) (h.move rfl) hobuf hacc
  rw [Machine.decodeFromCheck, hv, Res.bind_ok]
  simp only [Wire.verdict]
  refine .guard (hdec.dTag_cases (by rwa [s.input_length])) not_not.mpr (by decide) ?_
  rintro hhead v1 ⟨hdec1, ht1⟩
  rw [← hhead] at hdec1
  rw [← ite_or]
  refine .guard hdec1.dCount_decides (by omega) (by decide) ?_
  rintro ⟨hlen, hone, hmax⟩ v2 ⟨hdec2, ht2, hn2⟩
  refine .guard (hdec2.dTabChk_cases hn2) Nat.not_lt.mpr (by decide) ?_
  rintro htab v3 ⟨hdec3, ht3, hn3⟩
  have hstart : TableReading s s.input.head? 0 v3 := ⟨hdec3, by rw [ht3, ht2, ht1, ht]; exact entriesRead_clear s.input _, hn3⟩
  refine .guard (hstart.dTable_cases (by omega)) not_not.mpr (by decide) ?_
  intro hnodup v4 hread
  refine .guard (hread.dLen_cases rfl (by omega)) Nat.not_lt.mpr (by decide) ?_
  rintro hlen8 v5 ⟨hdec5, ht5, hl5⟩
  have hheader : HeaderRead s v5 := ⟨ht5 ▸ hread.table, hl5⟩
  refine .guard (hheader.dBodyChk_cases rfl hmax hnodup hdec5) not_not.mpr (by decide) ?_
  rintro hbody v6 ⟨hdec6, hheader, hb⟩
  refine .guard (hheader.dAlloc_decides hb hdec6 hfree) Nat.not_lt.mpr (by decide) ?_
  intro hroom v7 hunpack
  have hfits : BodyFits s :=
    ⟨hinCap, show 11 + 2 * Wire.headerCount s.cfg s.input ≤ _ by omega, hbody.trans (Nat.sub_sub _ _ _)⟩
  exact hunpack.followsVerdict hfits hhead hfree

/-- With OBUF free and an acceptable input, DECODE is the phases from D_CHECK on; so is DECOMPRESS, unless byte 0, which it
inspects first and does not consume, is another tag (R210, R242). -/
theorem exec_followsVerdict {i : Instr} (hi : i = .decode ∨ i = .decompress) (hf : s.fault = 0) (hfree : s.outValid = false)
    (hacc : s.acceptable = true) : ∃ r, exec i s = r.outcome s ∧ FollowsVerdict s r (Wire.verdict s.cfg s.input) := by
  have hstart := running_afterPrologue s
  rcases hi with rfl | rfl
  · refine ⟨_, ?_, hstart.decodeFromCheck rfl hacc hfree⟩
    rw [exec, execDecode, command_of_ready _ hf, prologue_of_free hfree, Res.bind_ok]
  · obtain ⟨-, hpos, hinCap⟩ := s.acceptable_iff.mp hacc
    have hbyte : ibufByte 0 (afterPrologue s) = .ok (s.ibufAt 0) (afterPrologue s) :=
      ibufByte_of_lt (show 0 < s.cfg.inCap by omega)
    have hhead : s.input.head? = some (s.ibufAt 0) := by rw [List.head?_eq_getElem?, s.input_getElem? hpos]
    have hrunning := hstart.setTag (s.ibufAt 0)
    refine ⟨_, by rw [exec, execDecompress, command_of_ready _ hf, prologue_of_free hfree, Res.bind_ok,
      if_pos (hstart.acceptable.trans hacc), hbyte, Res.bind_ok], ?_⟩
    dsimp only
    rw [hrunning.cfg]
    split
    next hother =>
      rw [Wire.verdict, if_pos (by rw [hhead]; simpa using hother)]
      rw [← hhead] at hrunning
      exact Rejects.followsVerdict ⟨_, rfl, hrunning, rfl⟩ (by decide)
    next => exact hrunning.decodeFromCheck rfl hacc hfree

/-- Settles O33: the record of success or of failure that a run which follows the verdict leaves. -/
theorem decodeFollowsTheVerdict : Obligations.DecodeFollowsTheVerdict := by
  intro i s hi hf hfree hin hpos hcap
  obtain ⟨r, hr, hverdict⟩ := exec_followsVerdict hi hf hfree (s.acceptable_iff.mpr ⟨hin, hpos, hcap⟩)
  cases hv : Wire.verdict s.cfg s.input with
  | ok bytes =>
    rw [hv] at hverdict
    obtain ⟨t, rfl, hsuccess⟩ := hverdict
    refine ⟨t, hr, fun bytes' hbytes => ?_, fun k hk => nomatch hk⟩
    cases hbytes
    exact hsuccess
  | error k =>
    rw [hv] at hverdict
    obtain ⟨v, rfl, hrunning, hkind, hobuf, hbeyond⟩ := hverdict
    refine ⟨failureExit k v, hr, fun bytes hbytes => (nomatch hbytes), fun k' hk => ?_⟩
    cases hk
    rw [failureExit_obuf]
    exact ⟨hrunning.failure hkind, hobuf, hbeyond⟩

end Sys2Proof.Machine
end

section
/-! PROOF of EncodedBuffersDecode (spec 45_decoder.md R224, 46_dispatch_system.md R242). -/

namespace Sys2Proof.Machine

/-- Settles O34: an encoded buffer is never empty, so IBUF holds an acceptable input, and its verdict is the input. -/
theorem encodedBuffersDecode : Obligations.EncodedBuffersDecode := by
  intro i s x hi hwf hf hfree hpos _ hcap hinCap _ hin hinput
  have hlen : s.inLen.toNat = (Wire.enc s.cfg x).length := by rw [← hinput, s.input_length]
  have hsize := Wire.encodedLengthFollowsTheSizeLaw s.cfg x
  have hacc : s.acceptable = true := s.acceptable_iff.mpr ⟨hin, by omega, by omega⟩
  exact exec_decodes_enc hi hf hfree hacc hwf (List.ne_nil_of_length_pos hpos) hcap hinput

end Sys2Proof.Machine
end

section
/-! PROOF of TruncatedAndExtendedBuffersAreRejected (spec 45_decoder.md R225, 46_dispatch_system.md R242): a buffer's header fields
are those of any beginning of it that holds them, and an encoded buffer is its header and a data region of the one length that R218
allows. -/

namespace Sys2Proof.Wire

open Sys2Proof.Machine

/-! ## Fields and what follows them -/

section
variable (c : Config) {e : List Byte} (more : List Byte)

theorem headerCount_append (h : 3 ≤ e.length) : headerCount c (e ++ more) = headerCount c e := by
  rw [headerCount, headerCount, Config.countSize, List.drop_append_of_le_length (by omega),
    List.take_append_of_le_length (by rw [List.length_drop]; omega)]

theorem headerCodes_append (h : 3 + 2 * headerCount c e ≤ e.length) : headerCodes c (e ++ more) = headerCodes c e := by
  rw [headerCodes, headerCodes, headerCount_append c more (by omega)]
  refine List.map_congr_left fun k hk => ?_
  have hk := List.mem_range.mp hk
  exact List.getD_append _ _ _ _ (by omega)

theorem headerLength_append (h : 11 + 2 * headerCount c e ≤ e.length) : headerLength c (e ++ more) = headerLength c e := by
  rw [headerLength, headerLength, headerCount_append c more (by omega), Config.lenSize,
    List.drop_append_of_le_length (by omega), List.take_append_of_le_length (by rw [List.length_drop]; omega)]

end

/-! ## The header of an encoded buffer -/

section
variable (c : Config) (x : List Byte)

theorem headerCount_header : headerCount c (header c x) = (distinct x).length := by
  rw [← headerCount_enc c x, enc_eq_header_append, headerCount_append c _ (by rw [header_length]; omega)]

theorem nodup_headerCodes_header : (headerCodes c (header c x)).Nodup := by
  have h := nodup_headerCodes_enc c x
  rwa [enc_eq_header_append, headerCodes_append c _ (by rw [headerCount_header, header_length]; omega)] at h

theorem headerLength_header (hword : x.length < 2 ^ 64) : headerLength c (header c x) = x.length := by
  rw [← headerLength_enc c x hword, enc_eq_header_append,
    headerLength_append c _ (by rw [headerCount_header, header_length])]

/-- What an encoded buffer is cut to before its data region is what its header is cut to. -/
theorem take_enc_of_le {k : Nat} (h : k ≤ 11 + 2 * (distinct x).length) : (enc c x).take k = (header c x).take k := by
  rw [enc_eq_header_append, List.take_append_of_le_length (by rwa [header_length])]

end

/-! ## The verdict on a buffer that is not the encoded one -/

variable {c : Config} {x : List Byte}

/-- Another tag fails the first condition of R223 (R225 (a)). -/
theorem verdict_of_other_tag {tag : Byte} (htag : tag ≠ c.methodTag) (rest : List Byte) :
    verdict c (tag :: rest) = .error .unknownMethod := by
  rw [verdict, if_pos (by simpa using htag)]

/-- A truncated header fails one of the conditions on its fields: its count is there or not, then its entries, and, whether
its codes repeat or not, its length is not (R225 (b)). -/
theorem verdict_take_header {k : Nat} (hpos : 1 ≤ k) (hx : x ≠ []) (hk : k < 11 + 2 * (distinct x).length) :
    verdict c ((header c x).take k) = .error .malformedHeader := by
  have hlen : ((header c x).take k).length = k := by rw [List.length_take, header_length]; omega
  have hhead : ((header c x).take k).head? = some c.methodTag := by
    rw [List.head?_take, if_neg (by omega)]
    rfl
  rw [verdict, if_neg (not_not.mpr hhead), hlen]
  rcases Nat.lt_or_ge k 3 with hshort | hcount
  · rw [if_pos hshort]
  have hn : headerCount c ((header c x).take k) = (distinct x).length := by
    rw [← headerCount_header c x, ← headerCount_append c ((header c x).drop k) (by omega), List.take_append_drop]
  have hone := List.length_pos_iff.mpr (distinct_ne_nil hx)
  have hmax := distinct_length_le x
  rw [hn, if_neg (by omega), if_neg (by omega)]
  rcases Nat.lt_or_ge (k - 3) (2 * (distinct x).length) with htable | htable
  · rw [if_pos htable]
  rw [if_neg (by omega)]
  split
  next => rfl
  next => rw [if_pos (by omega)]

/-- A header fails with a data region of any length but its own (R225 (b), (c)). -/
theorem verdict_header_append (hx : x ≠ []) (hword : x.length < 2 ^ 64) {body : List Byte}
    (hbody : body.length ≠ ceilDiv (bitsPerEntry (distinct x).length * x.length) 8) :
    verdict c (header c x ++ body) = .error .malformedBody := by
  have hlen : (header c x ++ body).length = 11 + 2 * (distinct x).length + body.length := by
    rw [List.length_append, header_length]
  have hn : headerCount c (header c x ++ body) = (distinct x).length := by
    rw [headerCount_append c body (by rw [header_length]; omega), headerCount_header]
  have hcodes : headerCodes c (header c x ++ body) = headerCodes c (header c x) :=
    headerCodes_append c body (by rw [headerCount_header, header_length]; omega)
  have hl : headerLength c (header c x ++ body) = x.length := by
    rw [headerLength_append c body (by rw [headerCount_header, header_length]), headerLength_header c x hword]
  have hone := List.length_pos_iff.mpr (distinct_ne_nil hx)
  have hmax := distinct_length_le x
  have hhead : (header c x ++ body).head? = some c.methodTag := rfl
  rw [verdict, hn, hl, hcodes, hlen, if_neg (not_not.mpr hhead), if_neg (by omega), if_neg (by omega), if_neg (by omega),
    if_neg (not_not.mpr (nodup_headerCodes_header c x)), if_neg (by omega), if_pos (by omega)]

/-- The data region of an encoded buffer has the length that its header states (R106). -/
theorem packbits_idxOf_length (c : Config) (x : List Byte) :
    (packbits (bitsPerEntry (distinct x).length) (x.map fun b => (distinct x).idxOf b)).length
      = ceilDiv (bitsPerEntry (distinct x).length * x.length) 8 := by
  have hsize := encodedLengthFollowsTheSizeLaw c x
  rw [enc_eq_header_append, List.length_append, header_length] at hsize
  omega

/-- An encoded buffer truncated after its header has too short a data region (R225 (b)). -/
theorem verdict_take_enc {k : Nat} (hx : x ≠ []) (hword : x.length < 2 ^ 64) (hheader : 11 + 2 * (distinct x).length ≤ k)
    (hk : k < (enc c x).length) : verdict c ((enc c x).take k) = .error .malformedBody := by
  have hsize := encodedLengthFollowsTheSizeLaw c x
  have hbody := packbits_idxOf_length c x
  rw [enc_eq_header_append, List.take_append, List.take_of_length_le (by rwa [header_length])]
  exact verdict_header_append hx hword (by rw [List.length_take, header_length]; omega)

/-- An encoded buffer with bytes appended has too long a data region (R225 (c)). -/
theorem verdict_enc_append {more : List Byte} (hx : x ≠ []) (hword : x.length < 2 ^ 64) (hmore : more ≠ []) :
    verdict c (enc c x ++ more) = .error .malformedBody := by
  have hbody := packbits_idxOf_length c x
  have hpos := List.length_pos_iff.mpr hmore
  rw [enc_eq_header_append, List.append_assoc]
  exact verdict_header_append hx hword (by rw [List.length_append]; omega)

end Sys2Proof.Wire

namespace Sys2Proof.Machine

/-- What the verdict rejects before any allocation, every block rejects without writing a byte (R213, R268). -/
theorem decodeFails_of_verdict {c : Config} {e : List Byte} {k : ErrKind} (he : e ≠ []) (hverdict : Wire.verdict c e = .error k)
    (hk : k ≠ .invalidCode) : decodeFails c e k := by
  rintro i s hi rfl hf hfree hin hcap rfl
  have hpos : 1 ≤ s.inLen.toNat := s.input_length ▸ List.length_pos_iff.mpr he
  obtain ⟨t, ht, -, hfails⟩ := decodeFollowsTheVerdict i s hi hf hfree hin hpos hcap
  obtain ⟨hfailure, hobuf, -⟩ := hfails k hverdict
  exact ⟨t, ht, hfailure, hobuf hk⟩

/-- Settles O36: by the verdict on each kind of buffer, which every block follows. -/
theorem truncatedAndExtendedBuffersAreRejected : Obligations.TruncatedAndExtendedBuffersAreRejected := by
  intro c x hx hword
  have henc : Wire.enc c x ≠ [] := List.cons_ne_nil _ _
  have hcut : ∀ k, 1 ≤ k → (Wire.enc c x).take k ≠ [] := fun k hk hnil =>
    (List.take_eq_nil_iff.mp hnil).elim (by omega) henc
  refine ⟨fun tag htag => ?retagged, fun k hpos hk => ?inHeader, fun k hheader hk => ?inBody, fun more hmore => ?extended⟩
  case retagged =>
    have hverdict := Wire.verdict_of_other_tag htag ((Wire.enc c x).drop 1)
    exact ⟨hverdict, decodeFails_of_verdict (List.cons_ne_nil _ _) hverdict (by decide)⟩
  case inHeader =>
    have hverdict := Wire.verdict_take_header (c := c) hpos hx hk
    rw [← Wire.take_enc_of_le c x hk.le] at hverdict
    exact ⟨hverdict, decodeFails_of_verdict (hcut k hpos) hverdict (by decide)⟩
  case inBody =>
    have hverdict := Wire.verdict_take_enc hx hword hheader hk
    exact ⟨hverdict, decodeFails_of_verdict (hcut k (by omega)) hverdict (by decide)⟩
  case extended =>
    have hverdict := Wire.verdict_enc_append (c := c) hx hword hmore
    exact ⟨hverdict, decodeFails_of_verdict (List.append_ne_nil_of_left_ne_nil henc more) hverdict (by decide)⟩

end Sys2Proof.Machine
end

section
/-! PROOF of OnlyMacrosWriteTheRecord (spec 46_dispatch_system.md R246). -/

namespace Sys2Proof.Machine

/-- The record of the last composed operation is untouched (R246). -/
structure SameRecord (s t : State) : Prop where
  err : t.err = s.err
  tag : t.tag = s.tag
  tagValid : t.tagValid = s.tagValid

variable {s t u : State}

theorem SameRecord.refl (s : State) : SameRecord s s := ⟨rfl, rfl, rfl⟩

theorem sameRecord_takeFault (f : FaultKind) (s : State) : SameRecord s (takeFault f s) := ⟨rfl, rfl, rfl⟩

theorem SameRecord.trans (h : SameRecord s t) (k : SameRecord t u) : SameRecord s u :=
  ⟨k.err.trans h.err, k.tag.trans h.tag, k.tagValid.trans h.tagValid⟩

theorem sameRecord_of_sameButResults (h : SameButResults s t) : SameRecord s t := by
  unfold SameButResults at h
  rw [h]
  exact ⟨rfl, rfl, rfl⟩

theorem sameRecord_of_allocate {size : Nat} {bound : Bool} (h : allocate size s = .ok bound u) : SameRecord s u := by
  rcases allocate_cases size s with ⟨-, e⟩ | ⟨-, -, e⟩ | ⟨-, -, e⟩ <;> rw [e] at h <;> cases h
  · exact ⟨rfl, rfl, rfl⟩
  · exact ⟨rfl, rfl, rfl⟩

theorem sameRecord_of_giveBuffer (h : giveBuffer s = .ok () u) : SameRecord s u := by
  rcases giveBuffer_cases s with ⟨-, e⟩ | ⟨-, -, e⟩ | ⟨-, -, e⟩ <;> rw [e] at h <;> cases h
  exact ⟨rfl, rfl, rfl⟩

/-- No operation of a unit reports a tag or an error: the phases do (R246). -/
theorem UnitMove.sameRecord (h : UnitMove s u) : SameRecord s u := by
  cases h with
  | still => exact .refl s
  | table t _ => exact ⟨rfl, rfl, rfl⟩
  | writer hsame =>
    unfold SameButWriter at hsame
    rw [hsame]
    exact ⟨rfl, rfl, rfl⟩
  | reader hsame =>
    unfold SameButReader at hsame
    rw [hsame]
    exact ⟨rfl, rfl, rfl⟩
  | allocated h => exact sameRecord_of_allocate h
  | given h => exact sameRecord_of_giveBuffer h

theorem exec_sameRecord {i : Instr} (hcomposed : isMacro i = false) (hsreset : i ≠ .sreset) (h : exec i s = .next t) :
    SameRecord s t := by
  rcases instr_kinds i with hi | rfl | hi | hi
  · exact absurd hi hsreset
  · rcases release_cases h with rfl | ⟨-, f, rfl⟩ | rfl
    · exact .refl t
    · exact sameRecord_takeFault f s
    · exact ⟨rfl, rfl, rfl⟩
  · exact absurd (hi.symm.trans hcomposed) (by decide)
  · rcases unitLevel_cases hi h with rfl | ⟨-, f, rfl⟩ | ⟨u, hmove, ht⟩
    · exact .refl t
    · exact sameRecord_takeFault f s
    · exact hmove.sameRecord.trans (sameRecord_of_sameButResults ht)

/-- Settles O50: neither RELEASE nor a move of a unit touches the record. -/
theorem onlyMacrosWriteTheRecord : Obligations.OnlyMacrosWriteTheRecord := by
  intro i s t hcomposed hsreset h
  have k := exec_sameRecord hcomposed hsreset h
  exact ⟨k.err, k.tag, k.tagValid⟩

end Sys2Proof.Machine
end

section
/-! PROOF of ReleaseReturnsTheBuffer and SresetRestoresTheResetState (spec 46_dispatch_system.md R249, R250,
70_reset_and_hazards.md R291). -/

namespace Sys2Proof.Machine

/-- Settles O42: RELEASE tests the ownership bit, and writes it with `OUT_LEN` and the status. -/
theorem releaseReturnsTheBuffer : Obligations.ReleaseReturnsTheBuffer := by
  refine ⟨by decide, fun s hf => ⟨fun hfree => ?none, fun howned => ?owned⟩⟩
  case none =>
    rw [exec, execRelease]
    exact command_of_fault .ownership hf (by rw [hfree]; rfl)
  case owned =>
    rw [exec, execRelease]
    exact command_of_ok hf (by rw [howned]; rfl)

/-- SRESET has format Z, so a word with its opcode is its word or has a field set that must be 0 (R91). -/
theorem decode_sreset_opcode {w : CmdWord} (hop : fieldOp w = 0x01) (hw : w ≠ 0x00000001) :
    decode w = .error .reservedField := by
  have hfields : ¬ (fieldA w = 0 ∧ fieldB w = 0 ∧ fieldZ w = 0) := fun h => hw (eq_word_iff.mpr ⟨hop, h⟩)
  have hformat : decode w = formatZ w .sreset := by rw [decode, hop]; rfl
  rw [hformat, formatZ, if_neg hfields]

/-- Settles O43: SRESET does not look at FAULT, and its state is written out by `softReset`. -/
theorem sresetRestoresTheResetState : Obligations.SresetRestoresTheResetState := by
  refine ⟨by decide, fun w hop hw => ⟨_, decode_sreset_opcode hop hw⟩, fun s => ⟨softReset s, rfl, ?_⟩⟩
  exact ⟨rfl, rfl, rfl, rfl, rfl, rfl, rfl, rfl, rfl, rfl, rfl, resetUnits_unitsReset _, rfl, rfl, rfl, rfl, rfl, rfl, rfl⟩

end Sys2Proof.Machine
end

section
/-! PROOF of CompressRejectsUnknownMethods and MacrosLeaveTheUnitsAtReset: every composed operation that OBUF is free for ends in
one of the two records (spec 46_dispatch_system.md R241, R244, R248). -/

namespace Sys2Proof.Machine

variable {s t : State} {i : Instr}

theorem encode_compress (method : Byte) : encode (.compress method) = BitVec.ofNat 32 (0x60 + 256 * method.toNat) :=
  encode_eq_ofNat (.compress method)

/-- COMPRESS with another method reports the method and takes the failure exit before any phase (R241). -/
theorem exec_compress_failure {method : Byte} (hmethod : method ≠ s.cfg.methodTag) (hf : s.fault = 0)
    (hfree : s.outValid = false) (hacc : s.acceptable = true) :
    ∃ t, exec (.compress method) s = .next t ∧ s.failure t .unknownMethod (some method) ∧ t.obuf = s.obuf :=
  ⟨_, exec_compress_of_other_method hmethod hf hfree hacc, ((running_afterPrologue s).setTag method).failure (by decide),
    failureExit_obuf _ _⟩

/-- Settles O38. -/
theorem compressRejectsUnknownMethods : Obligations.CompressRejectsUnknownMethods :=
  fun method s hmethod hf hfree hin hpos hcap =>
    ⟨encode_compress method, exec_compress_failure hmethod hf hfree (s.acceptable_iff.mpr ⟨hin, hpos, hcap⟩)⟩

/-- `t` holds the record of a composed operation begun in `s`: of one that succeeded, or of one that failed (R244). -/
def State.recorded (s t : State) : Prop := (∃ bytes tag, s.success t bytes tag) ∨ ∃ k tag, s.failure t k tag

/-- Both records have the units at reset and FLAG clear, and grant the buffer exactly on success (R244, R248). -/
theorem State.recorded.atReset (h : s.recorded t) :
    t.unitsReset ∧ s.macroFrame t ∧ t.flag = false ∧ t.outValid = t.ok := by
  rcases h with ⟨_, _, hok, hflag, hvalid, -, -, -, -, -, -, hunits, hframe⟩ |
    ⟨_, _, hok, hflag, hvalid, -, -, -, -, hunits, hframe⟩
  · exact ⟨hunits, hframe, hflag, hvalid.trans hok.symm⟩
  · exact ⟨hunits, hframe, hflag, hvalid.trans hok.symm⟩

theorem exec_encodes_recorded (hi : i = .encode ∨ i = .compress s.cfg.methodTag) (hwf : s.cfg.wf) (hf : s.fault = 0)
    (hfree : s.outValid = false) (hacc : s.acceptable = true) : ∃ t, exec i s = .next t ∧ s.recorded t := by
  obtain ⟨hin, hpos, hcap⟩ := s.acceptable_iff.mp hacc
  obtain ⟨t, ht, hfits, hlong⟩ := encodeWritesTheEncodedBuffer i s hi hwf hf hfree hin hpos hcap
  refine ⟨t, ht, ?_⟩
  rcases Nat.lt_or_ge s.cfg.outCap (Wire.enc s.cfg s.input).length with hlt | hle
  · obtain ⟨hfailure, -⟩ := hlong hlt
    exact .inr ⟨_, _, hfailure⟩
  · exact .inl ⟨_, _, hfits hle⟩

theorem exec_decodes_recorded (hi : i = .decode ∨ i = .decompress) (hf : s.fault = 0) (hfree : s.outValid = false)
    (hacc : s.acceptable = true) : ∃ t, exec i s = .next t ∧ s.recorded t := by
  obtain ⟨hin, hpos, hcap⟩ := s.acceptable_iff.mp hacc
  obtain ⟨t, ht, hsuccess, hfails⟩ := decodeFollowsTheVerdict i s hi hf hfree hin hpos hcap
  refine ⟨t, ht, ?_⟩
  cases hverdict : Wire.verdict s.cfg s.input with
  | ok bytes => exact .inl ⟨_, _, hsuccess bytes hverdict⟩
  | error k =>
    obtain ⟨hfailure, -⟩ := hfails k hverdict
    exact .inr ⟨_, _, hfailure⟩

/-- With OBUF free, a composed operation rejects its input, or runs as the encoder, the decoder or the rejection of a method
does; each leaves a record. -/
theorem exec_isMacro_recorded (hi : isMacro i = true) (hwf : s.cfg.wf) (hf : s.fault = 0) (hfree : s.outValid = false) :
    ∃ t, exec i s = .next t ∧ s.recorded t := by
  by_cases hacc : s.acceptable = true
  · cases i with
    | encode => exact exec_encodes_recorded (.inl rfl) hwf hf hfree hacc
    | decode => exact exec_decodes_recorded (.inl rfl) hf hfree hacc
    | decompress => exact exec_decodes_recorded (.inr rfl) hf hfree hacc
    | compress method =>
      by_cases hmethod : method = s.cfg.methodTag
      · exact exec_encodes_recorded (.inr (by rw [hmethod])) hwf hf hfree hacc
      · obtain ⟨t, ht, hfailure, -⟩ := exec_compress_failure hmethod hf hfree hacc
        exact ⟨t, ht, .inr ⟨_, _, hfailure⟩⟩
    | _ => exact nomatch hi
  · obtain ⟨t, ht, hfailure, -⟩ := macrosRejectUnacceptableInput i s hi hf hfree (mt s.acceptable_iff.mpr hacc)
    exact ⟨t, ht, .inr ⟨_, _, hfailure⟩⟩

/-- Settles O41: what the two records have in common. -/
theorem macrosLeaveTheUnitsAtReset : Obligations.MacrosLeaveTheUnitsAtReset := by
  intro i s t hi hwf hf hfree hexec
  obtain ⟨t', ht', hrecorded⟩ := exec_isMacro_recorded hi hwf hf hfree
  rw [ht'] at hexec
  cases hexec
  exact hrecorded.atReset

end Sys2Proof.Machine
end

section
/-! PROOF of DispatchAgreesWithTheInnerOperations: what COMPRESS and DECOMPRESS do before E_CHECK and D_CHECK leaves no trace, since
the phases write the tag again and the failure exit resets the units (spec 46_dispatch_system.md R241, R242). -/

namespace Sys2Proof.Machine

variable {s u : State} {i j : Instr}

/-! ## Where no phase runs -/

/-- The failure exit resets the units, so what they held makes no difference to it (R268). -/
theorem failureExit_of_sameButUnits {v : State} (h : v = { u with t := v.t, w := v.w, r := v.r, seq := v.seq }) (k : ErrKind) :
    failureExit k v = failureExit k u := by
  rw [h]
  by_cases hk : k = .invalidInput
  · subst hk
    rfl
  · simp only [failureExit, if_neg hk]
    rfl

/-- Only S has moved when an input is rejected, so every composed operation leaves the same state. -/
theorem exec_of_unacceptable (hi : isMacro i = true) (hf : s.fault = 0) (hfree : s.outValid = false)
    (hbad : s.acceptable = false) : exec i s = .next (failureExit .invalidInput (afterPrologue s)) := by
  obtain ⟨q, e⟩ := exec_rejectsInput hi hf hfree hbad
  rw [e, failureExit_of_sameButUnits (u := afterPrologue s) rfl]

theorem ne_sreset_of_isMacro (hi : isMacro i = true) : i ≠ .sreset := by
  rintro rfl
  exact nomatch hi

/-- Composed operations differ only where the block is not faulted, OBUF is free and the input is acceptable. -/
theorem exec_isMacro_congr (hi : isMacro i = true) (hj : isMacro j = true)
    (h : s.fault = 0 → s.outValid = false → s.acceptable = true → exec i s = exec j s) : exec i s = exec j s := by
  by_cases hf : s.fault = 0
  · cases hvalid : s.outValid with
    | true => rw [exec_isMacro_of_owned hi hf hvalid, exec_isMacro_of_owned hj hf hvalid]
    | false =>
      cases hacc : s.acceptable with
      | true => exact h hf hvalid hacc
      | false => rw [exec_of_unacceptable hi hf hvalid hacc, exec_of_unacceptable hj hf hvalid hacc]
  · rw [exec_of_faulted hf (ne_sreset_of_isMacro hi), exec_of_faulted hf (ne_sreset_of_isMacro hj)]

/-! ## The tag is written again -/

/-- E_CHECK reports `METHOD_TAG`, whatever was reported before (R192). -/
theorem encodeFromCheck_setTag (h : u.acceptable = true) (valid : Bool) (tag : Byte) :
    encodeFromCheck (u.setTag valid tag) = encodeFromCheck u := by
  have hcheck : eCheck ((u.setTag valid tag).toPhase .eCheck) = eCheck (u.toPhase .eCheck) := (if_pos h).trans (if_pos h).symm
  rw [encodeFromCheck, hcheck]
  rfl

/-- The state D_CHECK leaves on an acceptable input: T is clear and R is bound to the input (R212). -/
def State.readerBound (u : State) : State :=
  ((u.setReader { len := u.inLen, ptr := 0, bi := 0, la := u.ibufAt 0 }).setTable u.t.clear).toPhase .dTag

theorem dCheck_of_acceptable (h : u.acceptable = true) : dCheck (u.toPhase .dCheck) = .ok () u.readerBound := by
  obtain ⟨hin, hpos, hcap⟩ := u.acceptable_iff.mp h
  have h' : (u.toPhase .dCheck).acceptable = true := h
  have hpos' : 0 < (u.toPhase .dCheck).inLen.toNat := hpos
  have hbind := bindReader_of_le (s := u.toPhase .dCheck) hin hcap
  rw [if_pos hpos'] at hbind
  rw [dCheck, if_pos h', hbind]
  rfl

/-- The state in which D_TAG compares the tag: byte 0 is read from the input and reported, in place of any tag reported before
(R213). -/
def State.tagRead (u : State) : State :=
  ((u.readerBound.setReader
    { len := u.inLen, ptr := 1, bi := 0, la := if 1 < u.inLen.toNat then u.ibufAt 1 else u.ibufAt 0 }).setSeq
      { u.readerBound.seq with tag := u.ibufAt 0 }).setTag true (u.ibufAt 0)

theorem State.tagRead_setTag (u : State) (valid : Bool) (tag : Byte) : (u.setTag valid tag).tagRead = u.tagRead := rfl

theorem dTag_readerBound (h : u.acceptable = true) :
    dTag u.readerBound =
      if u.ibufAt 0 ≠ u.cfg.methodTag then .raise .unknownMethod u.tagRead else .ok () (u.tagRead.toPhase .dCount) := by
  obtain ⟨-, hpos, hcap⟩ := u.acceptable_iff.mp h
  have hfit : 0 + 1 ≤ u.inLen.toNat := by omega
  have hread := readBytes_of_fits (n := Config.tagSize) (s := u.readerBound) rfl hfit hcap
  have hbytes :
      ((List.range Config.tagSize).map fun k => u.readerBound.ibufAt (u.readerBound.r.ptr.toNat + k)) = [u.ibufAt 0] := rfl
  rw [dTag, hread, Res.bind_ok, hbytes]
  simp only [decBytes_singleton]
  rfl

/-- D_CHECK and D_TAG do not look at the tag reported before, and D_TAG replaces it (R212, R213). -/
theorem decodeFromCheck_setTag (h : u.acceptable = true) (valid : Bool) (tag : Byte) :
    decodeFromCheck (u.setTag valid tag) = decodeFromCheck u := by
  have h' : (u.setTag valid tag).acceptable = true := h
  have htag : dTag (u.setTag valid tag).readerBound = dTag u.readerBound := by
    rw [dTag_readerBound h', dTag_readerBound h, u.tagRead_setTag]
    rfl
  rw [decodeFromCheck, decodeFromCheck, dCheck_of_acceptable h', dCheck_of_acceptable h, Res.bind_ok, Res.bind_ok, htag]

theorem decodeFromCheck_of_other_tag (h : u.acceptable = true) (htag : u.ibufAt 0 ≠ u.cfg.methodTag) :
    decodeFromCheck u = .raise .unknownMethod u.tagRead := by
  rw [decodeFromCheck, dCheck_of_acceptable h, Res.bind_ok, dTag_readerBound h, if_pos htag]
  rfl

/-! ## The two pairs -/

theorem exec_compress_methodTag (hf : s.fault = 0) (hfree : s.outValid = false) (hacc : s.acceptable = true) :
    exec (.compress s.cfg.methodTag) s = exec .encode s := by
  have hacc' : (afterPrologue s).acceptable = true := hacc
  have hmethod : s.cfg.methodTag = (afterPrologue s).cfg.methodTag := rfl
  rw [exec, exec, execCompress, execEncode, command_of_ready _ hf, command_of_ready _ hf, prologue_of_free hfree, Res.bind_ok,
    Res.bind_ok, if_pos hacc']
  dsimp only
  rw [setTag_cfg, if_neg (not_not.mpr hmethod), encodeFromCheck_setTag hacc']

/-- Of the state in which DECODE rejects the tag, the failure exit leaves no more than the tag (R268). -/
theorem failureExit_tagRead (k : ErrKind) (u : State) : failureExit k u.tagRead = failureExit k (u.setTag true (u.ibufAt 0)) :=
  failureExit_of_sameButUnits rfl k

theorem exec_decompress_of_acceptable (hf : s.fault = 0) (hfree : s.outValid = false) (hacc : s.acceptable = true) :
    exec .decompress s = exec .decode s := by
  obtain ⟨-, hpos, hcap⟩ := s.acceptable_iff.mp hacc
  have hacc' : (afterPrologue s).acceptable = true := hacc
  have hbyte : ibufByte 0 (afterPrologue s) = .ok ((afterPrologue s).ibufAt 0) (afterPrologue s) :=
    ibufByte_of_lt (show 0 < s.cfg.inCap by omega)
  rw [exec, exec, execDecompress, execDecode, command_of_ready _ hf, command_of_ready _ hf, prologue_of_free hfree, Res.bind_ok,
    Res.bind_ok, if_pos hacc', hbyte, Res.bind_ok]
  dsimp only
  rw [setTag_cfg]
  by_cases htag : (afterPrologue s).ibufAt 0 = (afterPrologue s).cfg.methodTag
  · rw [if_neg (not_not.mpr htag), decodeFromCheck_setTag hacc']
  · rw [if_pos htag, decodeFromCheck_of_other_tag hacc' htag, Res.outcome, Res.outcome, failureExit_tagRead]

/-- Settles O39: by where the operations of a pair part, which is on an acceptable input only. -/
theorem dispatchAgreesWithTheInnerOperations : Obligations.DispatchAgreesWithTheInnerOperations := fun _ =>
  ⟨exec_isMacro_congr rfl rfl exec_compress_methodTag, exec_isMacro_congr rfl rfl exec_decompress_of_acceptable⟩

end Sys2Proof.Machine
end

section
/-! PROOF of FaultsChangeOnlyTheFaultRegister (spec 60_exceptions.md R272): the one place a command writes FAULT is where it faults,
and only a block that is not faulted gets there. -/

namespace Sys2Proof.Machine

variable {s t u : State}

theorem fault_of_macroFrame (h : s.macroFrame t) : t.fault = s.fault := by
  obtain ⟨-, -, -, -, hfault, -⟩ := h
  exact hfault

theorem fault_of_sameButResults (h : SameButResults s t) : t.fault = s.fault := by
  unfold SameButResults at h
  rw [h]

theorem fault_of_allocate {size : Nat} {bound : Bool} (h : allocate size s = .ok bound u) : u.fault = s.fault := by
  rcases allocate_cases size s with ⟨-, e⟩ | ⟨-, -, e⟩ | ⟨-, -, e⟩ <;> rw [e] at h <;> cases h
  · rfl
  · rfl

theorem fault_of_giveBuffer (h : giveBuffer s = .ok () u) : u.fault = s.fault := by
  rcases giveBuffer_cases s with ⟨-, e⟩ | ⟨-, -, e⟩ | ⟨-, -, e⟩ <;> rw [e] at h <;> cases h
  rfl

/-- An operation of a unit that goes on writes no FAULT bit. -/
theorem UnitMove.fault (h : UnitMove s u) : u.fault = s.fault := by
  cases h with
  | still => rfl
  | table t _ => rfl
  | writer hsame => exact fault_of_macroFrame hsame.macroFrame
  | reader hsame => exact fault_of_macroFrame hsame.macroFrame
  | allocated h => exact fault_of_allocate h
  | given h => exact fault_of_giveBuffer h

theorem fault_keptByMoves (s : State) : KeptByMoves fun u => u.fault = s.fault where
  unit h m := m.fault.trans h
  seq _ h := h
  tag _ h := h

theorem fault_of_finishedFrom (h : FinishedFrom (fun u => u.fault = s.fault) t) : t.fault = s.fault := by
  obtain ⟨u, hu, e⟩ := h
  rcases finishMacro_cases u with ⟨-, e'⟩ | ⟨-, -, e'⟩ | ⟨-, -, e'⟩ <;> rw [e'] at e <;> cases e
  exact hu

theorem failureExit_fault (k : ErrKind) (s : State) : (failureExit k s).fault = s.fault := by
  obtain ⟨-, -, -, -, -, -, -, -, hframe, -⟩ := failureExit_record k s
  exact fault_of_macroFrame hframe

/-- Every command but SRESET keeps FAULT, or calls `fault(F)` in a block that is not faulted. -/
theorem exec_fault_cases {i : Instr} (hi : i ≠ .sreset) (h : exec i s = .next t) :
    t.fault = s.fault ∨ (s.fault = 0 ∧ ∃ f, t = takeFault f s) := by
  rcases instr_kinds i with hs | rfl | hm | hu
  · exact absurd hs hi
  · rcases release_cases h with rfl | hfault | rfl
    · exact .inl rfl
    · exact .inr hfault
    · exact .inl rfl
  · rcases isMacro_cases (fault_keptByMoves s) hm (fun _ => rfl) h with rfl | hfault | ht | ⟨k, u, hu, rfl⟩
    · exact .inl rfl
    · exact .inr hfault
    · exact .inl (fault_of_finishedFrom ht)
    · exact .inl ((failureExit_fault k u).trans hu)
  · rcases unitLevel_cases hu h with rfl | hfault | ⟨u, hmove, ht⟩
    · exact .inl rfl
    · exact .inr hfault
    · exact .inl ((fault_of_sameButResults ht).trans hmove.fault)

/-- Settles O7: a fault is taken with FAULT clear, so the one bit it adds is all the register holds. -/
theorem faultsChangeOnlyTheFaultRegister : Obligations.FaultsChangeOnlyTheFaultRegister := by
  intro i s t hi h
  rcases exec_fault_cases hi h with hkept | ⟨hf, f, rfl⟩
  · exact .inl hkept
  · exact .inr ⟨hf, f, takeFault_of_ready hf f⟩

end Sys2Proof.Machine
end

section
/-! PROOF of HardwareResetForgetsTheMemories (spec 70_reset_and_hazards.md R290, R291). -/

namespace Sys2Proof.Machine

/-- Hardware reset is SRESET, and then both memories are forgotten (R290, R291). -/
theorem hardReset_frame (s : State) :
    hardReset s =
      { softReset s with ibuf := [], obuf := [], ibufEpoch := s.ibufEpoch + 1, obufEpoch := s.obufEpoch + 1 } := rfl

theorem softReset_unitsReset (s : State) : (softReset s).unitsReset := resetUnits_unitsReset _

/-- Settles O44: the registers and the units are as SRESET leaves them, and no address of an empty memory holds a known byte. -/
theorem hardwareResetForgetsTheMemories : Obligations.HardwareResetForgetsTheMemories := by
  intro s rest hp
  refine ⟨hardReset { s with pending := rest }, step_of_action hp, ?_⟩
  rw [hardReset_frame]
  exact ⟨rfl, rfl, rfl, rfl, rfl, rfl, rfl, rfl, rfl, rfl, rfl, softReset_unitsReset _,
    fun a => ⟨Memory.read?_nil a, Memory.read?_nil a⟩, rfl, rfl⟩

end Sys2Proof.Machine
end

section
/-! PROOF of HostReadsOfObuf (spec 20_memory.md R65, 70_reset_and_hazards.md R306). -/

namespace Sys2Proof.Machine

variable {s : State} {a : Nat}

theorem State.hostObuf?_of_owned_of_lt (howned : s.outValid = true) (ha : a < s.outLen.toNat) :
    s.hostObuf? a = some (s.obufAt a) := if_pos ⟨howned, ha⟩

theorem State.hostObuf?_of_free_or_le (h : s.outValid = false ∨ s.outLen.toNat ≤ a) : s.hostObuf? a = none := by
  refine if_neg fun ⟨howned, ha⟩ => ?_
  rcases h with hfree | hle
  · exact absurd (hfree.symm.trans howned) (by decide)
  · exact Nat.not_lt.mpr hle ha

/-- Settles O48: the read shows the byte the host may see; without one it moves only the host's side. -/
theorem hostReadsOfObuf : Obligations.HostReadsOfObuf := by
  refine fun s a rest hp => ⟨fun howned ha => ?defined, fun h => ?undefined⟩ <;> rw [step_of_action hp, hostAct]
  case defined =>
    rw [State.hostObuf?_of_owned_of_lt (s := { s with pending := rest }) howned ha]
    exact ⟨State.hostObuf?_of_owned_of_lt howned ha, rfl⟩
  case undefined => exact ⟨State.hostObuf?_of_free_or_le h, _, rfl, hostReadByte_frame _ _⟩

end Sys2Proof.Machine
end
